-- ==== Sys2Proof/Config.lean ====
section
/-! DEFINITION. The implementation parameters of `HUFF-1.0` (00_scope.md R7, R8). The spec leaves no
value open (R18 (c)), so there is no free value here. -/

namespace Sys2Proof.Config

/-- `SYM_W`: width of a Symbol in bits (R7). -/
abbrev symW : Nat := 8
/-- `NSYM_MAX`: capacity, in entries, of FT and of CT (R7). -/
abbrev nsymMax : Nat := 16
/-- `LMAX`: largest code length in digits (R7). -/
abbrev lmax : Nat := 15
/-- `FREQ_W`: width of every count and of TOTAL (R7). -/
abbrev freqW : Nat := 16
/-- `FREQ_MAX`: the largest representable count (R7). -/
abbrev freqMax : Nat := 65535
/-- `NODE_MAX`: capacity of the tree node memory (R7). -/
abbrev nodeMax : Nat := 31
/-- `IDX_W`: width of a node index (R7). -/
abbrev idxW : Nat := 5
/-- `CMD_W`: width of a command word and of a response word (R7). -/
abbrev cmdW : Nat := 32
/-- `OP_W`: width of the opcode field and of the response code field (R7). -/
abbrev opW : Nat := 5
/-- `NERR`: number of response codes, 0 .. 10 (R7). -/
abbrev nerr : Nat := 11

end Sys2Proof.Config
end

