-- ==== Sys2Proof/Word.lean ====
section
/-! DEFINITION. The words of the block: one name for each width of 00_scope.md R7 and 10_state.md R20.
Bit 0 is the least significant (R10); everything is unsigned. -/

namespace Sys2Proof

/-- A command word or a response word (30_encoding.md R80, R87). -/
abbrev Word := BitVec 32
/-- A Symbol: compared for equality and copied, nothing else (00_scope.md R15). -/
abbrev Symbol := BitVec 8
/-- A count, a frequency, or TOTAL. -/
abbrev Count := BitVec 16
/-- A NODE index, and the width of FTN, CTN, NNODES and ROOT. -/
abbrev NodeIdx := BitVec 5
/-- A code length: CLEN, `CT[i].len`, ACCLEN. -/
abbrev CodeLen := BitVec 4
/-- A packed code: CBITS, `CT[i].bits`, ACC; digit j at bit j (20_memory.md R63). -/
abbrev CodeBits := BitVec 15
/-- The code field of a response (30_encoding.md R87). -/
abbrev RspCode := BitVec 5
/-- The data field of a response (30_encoding.md R87). -/
abbrev RspData := BitVec 27
/-- The sticky error log (10_state.md R35). -/
abbrev ErrLog := BitVec 11
/-- A binary digit: `false` is 0, `true` is 1 (00_scope.md R11). -/
abbrev Digit := Bool

end Sys2Proof
end

