-- ==== Sys2Proof/Syntax.lean ====
section
/-! DEFINITION. The 19 commands (30_encoding.md R82), one constructor per row of the opcode table. A
command's operands are the fields of its format, each used as the unsigned integer it holds (R90). -/

namespace Sys2Proof

/-- A decoded command. -/
inductive Instr where
  | nop
  | ftclr
  | count (sym : Symbol)
  | build
  | gen
  | ctclr
  | ldcode (sym : Symbol) (len : CodeLen) (cbits : CodeBits)
  | encbeg
  | enc (sym : Symbol)
  | encend
  | decbeg
  | decbit (dig : Digit)
  | decend
  | rdstat
  | rdtot
  | rdfreq (sym : Symbol)
  | rdtree
  | rdnode (idx : NodeIdx)
  | rdcode (sym : Symbol)
  deriving DecidableEq, Repr

end Sys2Proof
end

