-- ==== Sys2Proof/WellFormed.lean ====
section
/-! DEFINITION. Which commands carry operands that denote something. The operand types already make
every `Instr` a well-formed command in the sense of 30_encoding.md R83 (each field fits its place in
the word). What is left to check are the operand values that R90 calls never valid. Such a command
still encodes, decodes and runs: the block answers it with `BadOperand` (60_exceptions.md R198), or
with `BadSequence` where that comes first (log entry 9). -/

namespace Sys2Proof

/-- A (length, packed digits) pair denotes a code: at least one digit, and no stray bit at a position
at or above the length (42_code_table.md R127 (a), (b)). -/
def codeOperandOk (len : CodeLen) (cbits : CodeBits) : Bool :=
  len ≠ 0 && cbits >>> len.toNat == 0

/-- The operand checks that need no state: LDCODE's length and stray bits (R127 (a), (b)), and
RDNODE's index 31, which no tree reaches (45_control_readback.md R178). -/
def Instr.wellFormed : Instr → Bool
  | .nop => true
  | .ftclr => true
  | .count _ => true
  | .build => true
  | .gen => true
  | .ctclr => true
  | .ldcode _ len cbits => codeOperandOk len cbits
  | .encbeg => true
  | .enc _ => true
  | .encend => true
  | .decbeg => true
  | .decbit _ => true
  | .decend => true
  | .rdstat => true
  | .rdtot => true
  | .rdfreq _ => true
  | .rdtree => true
  | .rdnode idx => idx.toNat < Config.nodeMax
  | .rdcode _ => true

end Sys2Proof
end

