-- ==== Sys2Proof/Decode.lean ====
section
/-! DEFINITION. The decoder, total on all 2^32 words (30_encoding.md R83), and after it the encoder,
both from the formats of R81 and the opcode map of R82. -/

namespace Sys2Proof

/-- Why a word is no command; the block answers both with `IllegalCommand` (R83 to R85). -/
inductive Reject where
  /-- Stage 1: OP is not one of the 19 assigned values (R84). -/
  | reservedOpcode
  /-- Stage 2: a reserved-zero bit of the command's format is 1 (R85). -/
  | reservedBits
  deriving DecidableEq, Repr

/-- `OP = w[31:27]` (R80). -/
def opField (w : Word) : BitVec 5 := w.extractLsb' 27 5
/-- `SYM = w[7:0]` of formats S and C (R81). -/
def symField (w : Word) : Symbol := w.extractLsb' 0 8
/-- `DIG = w[0]` of format B (R81). -/
def digField (w : Word) : Digit := w.getLsbD 0
/-- `IDX = w[4:0]` of format N (R81). -/
def idxField (w : Word) : NodeIdx := w.extractLsb' 0 5
/-- `CLEN = w[11:8]` of format C (R81). -/
def clenField (w : Word) : CodeLen := w.extractLsb' 8 4
/-- `CBITS = w[26:12]` of format C (R81). -/
def cbitsField (w : Word) : CodeBits := w.extractLsb' 12 15

/-- Stage 2 of R83: the reserved-zero field of `n` bits from bit `lo` must be 0. -/
def requireZero (lo n : Nat) (w : Word) (i : Instr) : Except Reject Instr :=
  if w.extractLsb' lo n = 0 then .ok i else .error .reservedBits

/-- Format Z: bits 26:0 are reserved-zero. -/
def formatZ (w : Word) (i : Instr) : Except Reject Instr := requireZero 0 27 w i
/-- Format S: bits 26:8 are reserved-zero. -/
def formatS (w : Word) (i : Symbol → Instr) : Except Reject Instr := requireZero 8 19 w (i (symField w))
/-- Format B: bits 26:1 are reserved-zero. -/
def formatB (w : Word) (i : Digit → Instr) : Except Reject Instr := requireZero 1 26 w (i (digField w))
/-- Format N: bits 26:5 are reserved-zero. -/
def formatN (w : Word) (i : NodeIdx → Instr) : Except Reject Instr := requireZero 5 22 w (i (idxField w))
/-- Format C: no reserved-zero bit. -/
def formatC (w : Word) (i : Symbol → CodeLen → CodeBits → Instr) : Except Reject Instr :=
  .ok (i (symField w) (clenField w) (cbitsField w))

/-- The decoder: opcode, then reserved bits, then the command with its fields (R82, R83). -/
def decode (w : Word) : Except Reject Instr :=
  match opField w with
  | 0x00#5 => formatZ w .nop
  | 0x01#5 => formatZ w .ftclr
  | 0x02#5 => formatS w .count
  | 0x03#5 => formatZ w .build
  | 0x04#5 => formatZ w .gen
  | 0x05#5 => formatZ w .ctclr
  | 0x06#5 => formatC w .ldcode
  | 0x08#5 => formatZ w .encbeg
  | 0x09#5 => formatS w .enc
  | 0x0A#5 => formatZ w .encend
  | 0x0C#5 => formatZ w .decbeg
  | 0x0D#5 => formatB w .decbit
  | 0x0E#5 => formatZ w .decend
  | 0x10#5 => formatZ w .rdstat
  | 0x11#5 => formatZ w .rdtot
  | 0x12#5 => formatS w .rdfreq
  | 0x13#5 => formatZ w .rdtree
  | 0x14#5 => formatN w .rdnode
  | 0x15#5 => formatS w .rdcode
  | _ => .error .reservedOpcode

/-- The instruction whose bits are `w`, numbered as the opcode table numbers them; every command is one
32-bit word, and the bits above `nbits` are 0. -/
def decodeTableWord (nbits w : Nat) : Option Instr :=
  match decode (BitVec.ofNat 32 (w % 2 ^ nbits)) with
  | .ok i => some i
  | .error _ => none

/-- A word of format Z (R81). -/
def wordZ (op : BitVec 5) : Word := op ++ 0#27
/-- A word of format S (R81). -/
def wordS (op : BitVec 5) (sym : Symbol) : Word := op ++ 0#19 ++ sym
/-- A word of format B (R81). -/
def wordB (op : BitVec 5) (dig : Digit) : Word := op ++ 0#26 ++ BitVec.ofBool dig
/-- A word of format N (R81). -/
def wordN (op : BitVec 5) (idx : NodeIdx) : Word := op ++ 0#22 ++ idx
/-- A word of format C (R81). -/
def wordC (op : BitVec 5) (sym : Symbol) (len : CodeLen) (cbits : CodeBits) : Word :=
  op ++ cbits ++ len ++ sym

/-- The encoder: the one word of each command (R82, R91). -/
def encode : Instr → Word
  | .nop => wordZ 0x00
  | .ftclr => wordZ 0x01
  | .count sym => wordS 0x02 sym
  | .build => wordZ 0x03
  | .gen => wordZ 0x04
  | .ctclr => wordZ 0x05
  | .ldcode sym len cbits => wordC 0x06 sym len cbits
  | .encbeg => wordZ 0x08
  | .enc sym => wordS 0x09 sym
  | .encend => wordZ 0x0A
  | .decbeg => wordZ 0x0C
  | .decbit dig => wordB 0x0D dig
  | .decend => wordZ 0x0E
  | .rdstat => wordZ 0x10
  | .rdtot => wordZ 0x11
  | .rdfreq sym => wordS 0x12 sym
  | .rdtree => wordZ 0x13
  | .rdnode idx => wordN 0x14 idx
  | .rdcode sym => wordS 0x15 sym

/-- The (mask, match) rows of `opcode_table.json`, in the table's order (R83). -/
def tableRows : List (Word × Word) :=
  [ (0xFFFFFFFF#32, 0x00000000#32), (0xFFFFFFFF#32, 0x08000000#32), (0xFFFFFF00#32, 0x10000000#32),
    (0xFFFFFFFF#32, 0x18000000#32), (0xFFFFFFFF#32, 0x20000000#32), (0xFFFFFFFF#32, 0x28000000#32),
    (0xF8000000#32, 0x30000000#32) ] ++
  [ (0xFFFFFFFF#32, 0x40000000#32), (0xFFFFFF00#32, 0x48000000#32), (0xFFFFFFFF#32, 0x50000000#32),
    (0xFFFFFFFF#32, 0x60000000#32), (0xFFFFFFFE#32, 0x68000000#32), (0xFFFFFFFF#32, 0x70000000#32) ] ++
  [ (0xFFFFFFFF#32, 0x80000000#32), (0xFFFFFFFF#32, 0x88000000#32), (0xFFFFFF00#32, 0x90000000#32),
    (0xFFFFFFFF#32, 0x98000000#32), (0xFFFFFFE0#32, 0xA0000000#32), (0xFFFFFF00#32, 0xA8000000#32) ]

/-- The row of a command: its mask and match in `opcode_table.json`. -/
def Instr.row : Instr → Word × Word
  | .nop => (0xFFFFFFFF#32, 0x00000000#32)
  | .ftclr => (0xFFFFFFFF#32, 0x08000000#32)
  | .count _ => (0xFFFFFF00#32, 0x10000000#32)
  | .build => (0xFFFFFFFF#32, 0x18000000#32)
  | .gen => (0xFFFFFFFF#32, 0x20000000#32)
  | .ctclr => (0xFFFFFFFF#32, 0x28000000#32)
  | .ldcode _ _ _ => (0xF8000000#32, 0x30000000#32)
  | .encbeg => (0xFFFFFFFF#32, 0x40000000#32)
  | .enc _ => (0xFFFFFF00#32, 0x48000000#32)
  | .encend => (0xFFFFFFFF#32, 0x50000000#32)
  | .decbeg => (0xFFFFFFFF#32, 0x60000000#32)
  | .decbit _ => (0xFFFFFFFE#32, 0x68000000#32)
  | .decend => (0xFFFFFFFF#32, 0x70000000#32)
  | .rdstat => (0xFFFFFFFF#32, 0x80000000#32)
  | .rdtot => (0xFFFFFFFF#32, 0x88000000#32)
  | .rdfreq _ => (0xFFFFFF00#32, 0x90000000#32)
  | .rdtree => (0xFFFFFFFF#32, 0x98000000#32)
  | .rdnode _ => (0xFFFFFFE0#32, 0xA0000000#32)
  | .rdcode _ => (0xFFFFFF00#32, 0xA8000000#32)

end Sys2Proof
end

