-- ==== Sys2Proof/Machine/State.lean ====
section
/-! DEFINITION. The state of the block: every element of 10_state.md R20 and the four channels of R39,
as plain data, with the state right after reset (R41). Each table is the list of exactly its valid
entries, as R41 and 93_implementation_defined.md Q7 say a model should hold it, so FTN, NNODES and CTN
are lengths (log entry 3). -/

namespace Sys2Proof.Machine

open Sys2Proof

/-- A valid entry of FT (R21). -/
structure FtEntry where
  sym : Symbol
  count : Count
  deriving DecidableEq, Repr

/-- A valid entry of NODE: the sum type of R24. An unused field (`c0`, `c1` of a Leaf, `sym` of an
Internal node) holds no value (Q8), so it has no place here. -/
inductive Node where
  /-- `kind = 0`: one Symbol and its frequency. -/
  | leaf (sym : Symbol) (freq : Count)
  /-- `kind = 1`: the NODE indices of the zero-branch and of the one-branch, and the frequency. -/
  | internal (c0 c1 : NodeIdx) (freq : Count)
  deriving DecidableEq, Repr

/-- A valid entry of CT (R27). -/
structure CtEntry where
  sym : Symbol
  len : CodeLen
  bits : CodeBits
  deriving DecidableEq, Repr

/-- A token of BITOUT (`α` is `Digit`) or of SYMOUT (`α` is `Symbol`) (R39). -/
inductive Token (α : Type) where
  /-- `Bit b` or `Sym s`. -/
  | data (a : α)
  /-- `End`: the frame closes and its data tokens are the result. -/
  | close
  /-- `Abort`: the frame closes with no result. -/
  | abort
  deriving DecidableEq, Repr

/-- The block's state (R20) with its channels (R39). -/
structure State where
  /-- FT[0 .. FTN-1], in first-occurrence order (R21). -/
  ft : List FtEntry
  /-- TOTAL (R23). -/
  total : Count
  /-- NODE[0 .. NNODES-1] (R24). -/
  node : List Node
  /-- ROOT (R25). -/
  root : NodeIdx
  /-- TREE_VALID (R25). -/
  treeValid : Bool
  /-- CT[0 .. CTN-1] (R27). -/
  ct : List CtEntry
  /-- DEGEN (R34). -/
  degen : Bool
  /-- ENC_OPEN (R33). -/
  encOpen : Bool
  /-- DEC_OPEN (R33). -/
  decOpen : Bool
  /-- ACC (R31). -/
  acc : CodeBits
  /-- ACCLEN (R31). -/
  acclen : CodeLen
  /-- OVR (R32). -/
  ovr : Bool
  /-- ERRLOG (R35). -/
  errlog : ErrLog
  /-- CMD: the commands presented and not yet accepted, oldest first (R37, R39). -/
  cmd : List Word
  /-- The history of RSP, oldest first (R39). -/
  rsp : List Word
  /-- The history of BITOUT, oldest first (R39). -/
  bitout : List (Token Digit)
  /-- The history of SYMOUT, oldest first (R39). -/
  symout : List (Token Symbol)
  deriving DecidableEq, Repr

/-- Why the machine can stop. Both name an access to a table entry that does not exist, in a state
that breaks the invariant of R42, which no run reaches; stopping there is safe (log entry 6). -/
inductive Fault where
  /-- Raised by BUILD when FT holds more than 16 entries, so that the tree would need a NODE entry
  above 30 (R20). Safe. -/
  | nodeIndexOutOfRange
  /-- Raised by GEN when the walk from ROOT meets an index with no value or goes deeper than 15
  digits, or when it gathers more than 16 leaves, which CT cannot hold (R20, R25). Safe. -/
  | treeMalformed
  deriving DecidableEq, Repr

/-- Why the model gives no meaning. -/
inductive Refusal where
  /-- Raised by an arm of `exec` that has no meaning yet; no arm is left. Safe. -/
  | notModelled (mnemonic : String)
  deriving DecidableEq, Repr

/-- FTN (R22). -/
def State.ftn (s : State) : NodeIdx := BitVec.ofNat 5 s.ft.length
/-- NNODES (R25). -/
def State.nnodes (s : State) : NodeIdx := BitVec.ofNat 5 s.node.length
/-- CTN (R28). -/
def State.ctn (s : State) : NodeIdx := BitVec.ofNat 5 s.ct.length

/-- The state after reset (R41); the channels are empty at launch (log entry 1). -/
def State.reset : State where
  ft := []
  total := 0
  node := []
  root := 0
  treeValid := false
  ct := []
  degen := false
  encOpen := false
  decOpen := false
  acc := 0
  acclen := 0
  ovr := false
  errlog := 0
  cmd := []
  rsp := []
  bitout := []
  symout := []

end Sys2Proof.Machine
end

