-- ==== Sys2Proof/Machine/Operands.lean ====
section
/-! DEFINITION. Operand and result forms: packed codes (20_memory.md R63), the prefix relation
(00_scope.md R11), the three associative look-ups (R72), the DATA layouts of a response
(30_encoding.md R87, R88) and the token encodings (R89). -/

namespace Sys2Proof.Machine

open Sys2Proof

/-! ### Packed codes (R63) -/

/-- The digit sequence held in a packed field of the given length: digit j is bit j (R63, R90). -/
def digitsOf (len : CodeLen) (bits : CodeBits) : List Digit :=
  (List.range len.toNat).map bits.getLsbD

/-- The packing of a digit sequence: digit j at bit j, 0 above (R63). -/
def pack : List Digit → CodeBits
  | [] => 0
  | d :: ds => pack ds <<< 1 ||| (BitVec.ofBool d).setWidth 15

/-- `ACC[i] <- d`: one bit of a packed field is written (R151). -/
def setDigit (bits : CodeBits) (i : CodeLen) (d : Digit) : CodeBits :=
  bits &&& ~~~(1#15 <<< i.toNat) ||| (BitVec.ofBool d).setWidth 15 <<< i.toNat

/-- `code(i)`: the digit sequence of a CT entry (00_scope.md R13, 10_state.md R27). -/
def CtEntry.code (e : CtEntry) : List Digit := digitsOf e.len e.bits

/-- The CT entry that holds a symbol and a digit sequence (R120). -/
def CtEntry.ofCode (sym : Symbol) (c : List Digit) : CtEntry :=
  ⟨sym, BitVec.ofNat 4 c.length, pack c⟩

/-- One of two digit sequences is a prefix of the other (R11). -/
def comparable (p q : List Digit) : Bool := p.isPrefixOf q || q.isPrefixOf p

/-! ### Look-ups (R72). Each answers the entry of the index the spec names; where more than one entry
fits, in a state that breaks R21 (a) or R29, the first (log entry 8). -/

/-- `ft_find(s)`. -/
def ftFind (ft : List FtEntry) (s : Symbol) : Option FtEntry := ft.find? fun e => e.sym == s

/-- `ct_find(s)`. -/
def ctFind (ct : List CtEntry) (s : Symbol) : Option CtEntry := ct.find? fun e => e.sym == s

/-- `dt_find(c)` for the accumulator `c` held as (length, packed digits): whole-code equality (R72,
44_decoder.md R153). -/
def dtFind (ct : List CtEntry) (len : CodeLen) (bits : CodeBits) : Option CtEntry :=
  ct.find? fun e => e.len == len && e.bits == bits

/-- The count of a symbol, 0 when it is not in FT (45_control_readback.md R173). -/
def freqOf (ft : List FtEntry) (s : Symbol) : Count :=
  match ftFind ft s with
  | some e => e.count
  | none => 0

/-- `FT[i].count <- FT[i].count + 1` for the entry of `sym` (40_frequency_counter.md R101). -/
def bump (sym : Symbol) : List FtEntry → List FtEntry
  | [] => []
  | e :: es => if e.sym = sym then { e with count := e.count + 1 } :: es else e :: bump sym es

/-! ### Responses (R87, R88) -/

/-- `r = CODE ‖ DATA` (R87). -/
def responseWord (code : RspCode) (data : RspData) : Word := code ++ data

/-- DATA of RDTOT and RDFREQ: 26:16 = 0, 15:0 the count (R88). -/
def countData (c : Count) : RspData := 0#11 ++ c

/-- DATA of RDTREE: 26:10 = 0, 9:5 = NNODES, 4:0 = ROOT (R88). -/
def treeData (nnodes root : NodeIdx) : RspData := 0#17 ++ nnodes ++ root

/-- DATA of RDNODE: 26 the kind, 25:10 freq, then the symbol, or c1 and c0 (R88, R177). -/
def nodeData : Node → RspData
  | .leaf sym freq => 0#1 ++ freq ++ 0#2 ++ sym
  | .internal c0 c1 freq => 1#1 ++ freq ++ c1 ++ c0

/-- DATA of RDCODE: the layout of LDCODE's ARG; CLEN = CBITS = 0 for an absent symbol (R88, R179). -/
def codeData (sym : Symbol) : Option CtEntry → RspData
  | some e => e.bits ++ e.len ++ sym
  | none => 0#15 ++ 0#4 ++ sym

/-! ### Tokens (R89) -/

/-- `kind[1:0]` of a token: 0 data, 1 `End`, 2 `Abort`; 3 never occurs. -/
def Token.kind {α : Type} : Token α → BitVec 2
  | .data _ => 0
  | .close => 1
  | .abort => 2

/-- A BITOUT token as the pair (kind, bit); the payload of a closing token is 0. -/
def encodeBitToken (t : Token Digit) : BitVec 2 × BitVec 1 :=
  match t with
  | .data d => (t.kind, BitVec.ofBool d)
  | .close => (t.kind, 0)
  | .abort => (t.kind, 0)

/-- A SYMOUT token as the pair (kind, sym); the payload of a closing token is 0. -/
def encodeSymToken (t : Token Symbol) : BitVec 2 × Symbol :=
  match t with
  | .data s => (t.kind, s)
  | .close => (t.kind, 0)
  | .abort => (t.kind, 0)

end Sys2Proof.Machine
end

