-- ==== Sys2Proof/Machine/Flags.lean ====
section
/-! DEFINITION. Error causes with their codes and log bits (60_exceptions.md R190 to R201), the pending
condition (10_state.md R32) and the status word (R36). -/

namespace Sys2Proof.Machine

open Sys2Proof

/-- The nine causes a command can return (R190). `DegenerateSingleSymbol`, code 4, is never returned
(R195), so it is no cause here (93_implementation_defined.md Q3; log entry 5). -/
inductive Err where
  | emptyCorpus
  | unknownSymbol
  | truncatedStream
  | illegalCommand
  | badSequence
  | badOperand
  | codeConflict
  | tableFull
  | countOverflow
  deriving DecidableEq, Repr

/-- The response code of a cause (30_encoding.md R87). -/
def Err.code : Err → RspCode
  | .emptyCorpus => 1
  | .unknownSymbol => 2
  | .truncatedStream => 3
  | .illegalCommand => 5
  | .badSequence => 6
  | .badOperand => 7
  | .codeConflict => 8
  | .tableFull => 9
  | .countOverflow => 10

/-- `OK` (R87). -/
def okCode : RspCode := 0

/-- The ERRLOG mask of a response code: bit k for code k (R35). -/
def logBit (code : RspCode) : ErrLog := 1#11 <<< code.toNat

/-- `DPEND = (ACCLEN ≠ 0) or (OVR = 1)` (R32). -/
def State.dpend (s : State) : Bool := s.acclen ≠ 0 || s.ovr

/-- STATUS, from bit 26 down to bit 0 (R36): ERRLOG, a reserved 0, CTN, FTN, DEGEN, DPEND, DEC_OPEN,
ENC_OPEN, TREE_VALID. -/
def State.status (s : State) : RspData :=
  s.errlog ++ 0#1 ++ s.ctn ++ s.ftn ++ BitVec.ofBool s.degen ++ BitVec.ofBool s.dpend ++
    BitVec.ofBool s.decOpen ++ BitVec.ofBool s.encOpen ++ BitVec.ofBool s.treeValid

end Sys2Proof.Machine
end

