-- ==== Sys2Proof/Machine/Ops.lean ====
section
/-! DEFINITION. The operations every meaning is built from: producing the response, emitting tokens, and
`raise`, the one error entry of 60_exceptions.md R203. There is no return operation beside it: R205
says there is nothing to return from. -/

namespace Sys2Proof.Machine

open Sys2Proof

/-- What a step of the block answers. -/
abbrev Result := Host.Outcome State Fault Refusal

/-- `respond(code, data)`: the step's one response word goes to RSP (R13, R87). -/
def respond (code : RspCode) (data : RspData) (s : State) : State :=
  { s with rsp := s.rsp ++ [responseWord code data] }

/-- `emit BITOUT (Bit d)` for each digit of `ds`, first digit first (R62). -/
def emitBits (ds : List Digit) (s : State) : State :=
  { s with bitout := s.bitout ++ ds.map Token.data }

/-- `emit BITOUT t` for a closing token. -/
def emitBitout (t : Token Digit) (s : State) : State := { s with bitout := s.bitout ++ [t] }

/-- `emit SYMOUT t`. -/
def emitSymout (t : Token Symbol) (s : State) : State := { s with symout := s.symout ++ [t] }

/-- `ACC <- 0; ACCLEN <- 0`. -/
def clearAcc (s : State) : State := { s with acc := 0, acclen := 0 }

/-- `DEC_OPEN <- v; ACC <- 0; ACCLEN <- 0; OVR <- 0` (R150, R154). -/
def setDecFrame (v : Bool) (s : State) : State :=
  { s with decOpen := v, acc := 0, acclen := 0, ovr := false }

/-- `ERRLOG[code(E)] <- 1` (R203 step 1). -/
def logError (e : Err) (s : State) : State := { s with errlog := s.errlog ||| logBit e.code }

/-- The frame abort of R203 step 2: for `UnknownSymbol` and `TruncatedStream` only. -/
def abortFrame (e : Err) (s : State) : State :=
  match e with
  | .unknownSymbol => emitBitout .abort { s with encOpen := false }
  | .truncatedStream => emitSymout .abort (setDecFrame false s)
  | .emptyCorpus => s
  | .illegalCommand => s
  | .badSequence => s
  | .badOperand => s
  | .codeConflict => s
  | .tableFull => s
  | .countOverflow => s

/-- `raise E`: the error entry of R203, in its three steps. -/
def raise (e : Err) (s : State) : State := respond e.code 0 (abortFrame e (logError e s))

/-- A command that ends in the error `e`. -/
def failWith (e : Err) (s : State) : Result := .next (raise e s)

/-- A command that completes with `OK` and the given data. -/
def finish (data : RspData) (s : State) : Result := .next (respond okCode data s)

/-- A frame is open, so the code table is locked (20_memory.md R71). -/
def State.locked (s : State) : Bool := s.encOpen || s.decOpen

end Sys2Proof.Machine
end

