-- ==== Sys2Proof/Machine/CodeTable.lean ====
section
/-! DEFINITION. Unit U3, the code table: GEN, CTCLR and LDCODE (42_code_table.md). -/

namespace Sys2Proof.Machine

open Sys2Proof

/-- `walk(i, p)` of R121: the leaves under node `i`, left to right, each with the digits of its path
after the prefix `p`. `depth` is how many more digits a code may take; `none` when an index holds no
value or a path is too long, which no tree of BUILD has (R122 (b)). -/
def walk (node : List Node) : (depth : Nat) → (i : Nat) → (p : List Digit) → Option (List (Symbol × List Digit))
  | depth, i, p =>
    match node[i]? with
    | none => none
    | some (.leaf sym _) => some [(sym, p)]
    | some (.internal c0 c1 _) =>
      match depth with
      | 0 => none
      | d + 1 =>
        match walk node d c0.toNat (p ++ [false]), walk node d c1.toNat (p ++ [true]) with
        | some zeros, some ones => some (zeros ++ ones)
        | _, _ => none

/-- The (symbol, code) list GEN makes from the tree: the walk from ROOT, or the one-digit code `[0]`
for a tree that is a single Leaf (R120, R123). With it, whether the root is a Leaf. -/
def genCodes (node : List Node) (root : NodeIdx) : Option (List (Symbol × List Digit) × Bool) :=
  match node[root.toNat]? with
  | none => none
  | some (.leaf sym _) => some ([(sym, [false])], true)
  | some (.internal _ _ _) =>
    match walk node Config.lmax root.toNat [] with
    | none => none
    | some new => some (new, false)

/-- GEN: replace the code table by the codes of the current tree (R120). -/
def execGen (s : State) : Result :=
  if s.locked then failWith .badSequence s
  else if !s.treeValid then failWith .badSequence s
  else match genCodes s.node s.root with
    | none => .fault .treeMalformed
    | some (new, single) =>
      if Config.nsymMax < new.length then .fault .treeMalformed
      else finish 0 { s with ct := new.map fun (sym, c) => CtEntry.ofCode sym c, degen := single }

/-- CTCLR: empty the code table (R125). -/
def execCtclr (s : State) : Result :=
  if s.locked then failWith .badSequence s
  else finish 0 { s with ct := [], degen := false }

/-- LDCODE: add one entry to the code table, after the checks of R126 in their order (R127). -/
def execLdcode (sym : Symbol) (len : CodeLen) (cbits : CodeBits) (s : State) : Result :=
  if s.locked then failWith .badSequence s
  else if len = 0 then failWith .badOperand s
  else if cbits >>> len.toNat ≠ 0 then failWith .badOperand s
  else if (ctFind s.ct sym).isSome then failWith .codeConflict s
  else if s.ct.any fun e => comparable e.code (digitsOf len cbits) then failWith .codeConflict s
  else if s.ct.length = Config.nsymMax then failWith .tableFull s
  else finish 0 { s with ct := s.ct ++ [⟨sym, len, cbits⟩], degen := false }

end Sys2Proof.Machine
end

