-- ==== Sys2Proof/Machine/Control.lean ====
section
/-! DEFINITION. Control and read-back: NOP, RDSTAT, RDTOT, RDFREQ, RDTREE, RDNODE and RDCODE
(45_control_readback.md). -/

namespace Sys2Proof.Machine

open Sys2Proof

/-- NOP: do nothing (R170). -/
def execNop (s : State) : Result := finish 0 s

/-- RDSTAT: read the status word (R171). -/
def execRdstat (s : State) : Result := finish s.status s

/-- RDTOT: read the corpus length (R172). -/
def execRdtot (s : State) : Result := finish (countData s.total) s

/-- RDFREQ: read one symbol's count, 0 for an absent symbol (R173). -/
def execRdfreq (sym : Symbol) (s : State) : Result := finish (countData (freqOf s.ft sym)) s

/-- RDTREE: read the tree's size and root (R174). -/
def execRdtree (s : State) : Result := finish (treeData s.nnodes s.root) s

/-- RDNODE: read one node of the tree; an index with no value is refused (R177, R178). -/
def execRdnode (idx : NodeIdx) (s : State) : Result :=
  match s.node[idx.toNat]? with
  | none => failWith .badOperand s
  | some n => finish (nodeData n) s

/-- RDCODE: read one symbol's code (R179). -/
def execRdcode (sym : Symbol) (s : State) : Result := finish (codeData sym (ctFind s.ct sym)) s

end Sys2Proof.Machine
end

