-- ==== Sys2Proof/Machine/Decoder.lean ====
section
/-! DEFINITION. Unit U5, the decoder: DECBEG, DECBIT and DECEND (44_decoder.md). -/

namespace Sys2Proof.Machine

open Sys2Proof

/-- DECBEG: open a decode frame with an empty accumulator (R150). -/
def execDecbeg (s : State) : Result :=
  if s.decOpen then failWith .badSequence s
  else finish 0 (setDecFrame true s)

/-- "Append it to the accumulator" (R151). -/
def appendDigit (dig : Digit) (s : State) : State :=
  { s with acc := setDigit s.acc s.acclen dig, acclen := s.acclen + 1 }

/-- "Look up the accumulator in DecodeTable"; on a match emit the symbol and empty the accumulator
(R151, R153). -/
def matchAcc (s : State) : State :=
  match dtFind s.ct s.acclen s.acc with
  | some e => clearAcc (emitSymout (.data e.sym) s)
  | none => s

/-- DECBIT: take one digit (R151). -/
def execDecbit (dig : Digit) (s : State) : Result :=
  if !s.decOpen then failWith .badSequence s
  else if s.ovr then finish 0 s
  else if s.acclen.toNat = Config.lmax then finish 0 { s with ovr := true }
  else finish 0 (matchAcc (appendDigit dig s))

/-- DECEND: close the decode frame (R154, R155). -/
def execDecend (s : State) : Result :=
  if !s.decOpen then failWith .badSequence s
  else if s.dpend then failWith .truncatedStream s
  else finish 0 (emitSymout .close (setDecFrame false s))

end Sys2Proof.Machine
end

