-- ==== Sys2Proof/Machine/Encoder.lean ====
section
/-! DEFINITION. Unit U4, the encoder: ENCBEG, ENC and ENCEND (43_encoder.md). -/

namespace Sys2Proof.Machine

open Sys2Proof

/-- ENCBEG: open an encode frame (R140). -/
def execEncbeg (s : State) : Result :=
  if s.encOpen then failWith .badSequence s
  else finish 0 { s with encOpen := true }

/-- ENC: emit the code of one symbol, or abort the frame (R141, R142). -/
def execEnc (sym : Symbol) (s : State) : Result :=
  if !s.encOpen then failWith .badSequence s
  else match ctFind s.ct sym with
    | none => failWith .unknownSymbol s
    | some e => finish 0 (emitBits e.code s)

/-- ENCEND: close the encode frame (R144). -/
def execEncend (s : State) : Result :=
  if !s.encOpen then failWith .badSequence s
  else finish 0 (emitBitout .close { s with encOpen := false })

end Sys2Proof.Machine
end

