-- ==== Sys2Proof/Machine/Frequency.lean ====
section
/-! DEFINITION. Unit U1, the frequency counter: FTCLR and COUNT (40_frequency_counter.md). -/

namespace Sys2Proof.Machine

open Sys2Proof

/-- FTCLR: empty the frequency table (R100). -/
def execFtclr (s : State) : Result := finish 0 { s with ft := [], total := 0 }

/-- COUNT: tally one occurrence of a symbol (R101), with the guards of R102 and R103. -/
def execCount (sym : Symbol) (s : State) : Result :=
  if s.total.toNat = Config.freqMax then failWith .countOverflow s
  else match ftFind s.ft sym with
    | some _ => finish 0 { s with ft := bump sym s.ft, total := s.total + 1 }
    | none =>
      if s.ft.length = Config.nsymMax then failWith .tableFull s
      else finish 0 { s with ft := s.ft ++ [⟨sym, 1⟩], total := s.total + 1 }

end Sys2Proof.Machine
end

