-- ==== Sys2Proof/Machine/Tree.lean ====
section
/-! DEFINITION. Unit U2, the tree builder: BUILD (41_tree_builder.md). -/

namespace Sys2Proof.Machine

open Sys2Proof

/-- An element of `live`: a node's frequency and its NODE index, the pair R112 compares. -/
structure LiveNode where
  freq : Count
  idx : Nat
  deriving DecidableEq, Repr

/-- The order of R112: smaller frequency first, then smaller NODE index. -/
def LiveNode.before (x y : LiveNode) : Bool :=
  x.freq.toNat < y.freq.toNat || (x.freq == y.freq && x.idx < y.idx)

/-- `pop_min(live)`: the least element under R112, and the rest (R111). -/
def popMin : List LiveNode → Option (LiveNode × List LiveNode)
  | [] => none
  | x :: xs =>
    match popMin xs with
    | none => some (x, xs)
    | some (m, rest) => if m.before x then some (m, x :: rest) else some (x, xs)

/-- The node table and `live` while BUILD runs. -/
structure MergeState where
  node : List Node
  live : List LiveNode
  deriving DecidableEq, Repr

/-- The seed of R110: one Leaf per FT entry, in FT order, all of them live. -/
def seedMerge (ft : List FtEntry) : MergeState where
  node := ft.map fun e => .leaf e.sym e.count
  live := ft.zipIdx.map fun (e, i) => ⟨e.count, i⟩

/-- One pass of the loop of R110: the two least nodes become the zero-branch and the one-branch of the
next Internal node, which is reinserted. With fewer than two live nodes there is nothing to merge. -/
def mergeOnce (m : MergeState) : MergeState :=
  match popMin m.live with
  | none => m
  | some (a, rest) =>
    match popMin rest with
    | none => m
    | some (b, rest') =>
      { node := m.node ++ [.internal (BitVec.ofNat 5 a.idx) (BitVec.ofNat 5 b.idx) (a.freq + b.freq)]
        live := rest' ++ [⟨a.freq + b.freq, m.node.length⟩] }

/-- `k` passes of the loop; n live nodes need n - 1 (R110). -/
def mergeLoop : Nat → MergeState → MergeState
  | 0, m => m
  | k + 1, m => mergeLoop k (mergeOnce m)

/-- The node table and the root that BUILD makes from FT (R110). -/
def buildTree (ft : List FtEntry) : List Node × NodeIdx :=
  let m := mergeLoop (ft.length - 1) (seedMerge ft)
  (m.node, match m.live with
    | [] => 0
    | r :: _ => BitVec.ofNat 5 r.idx)

/-- BUILD: build the coding tree from the frequency table (R110, R113). -/
def execBuild (s : State) : Result :=
  if s.ft.length = 0 then failWith .emptyCorpus s
  else if Config.nsymMax < s.ft.length then .fault .nodeIndexOutOfRange
  else finish 0 { s with
    node := (buildTree s.ft).1, root := (buildTree s.ft).2, treeValid := true }

end Sys2Proof.Machine
end

