-- ==== Sys2Proof/Machine/Dispatch.lean ====
section
/-! DEFINITION. One arm per command: the meaning of each (30_encoding.md R82, R83 stage 3). -/

namespace Sys2Proof.Machine

open Sys2Proof

def exec (i : Instr) (s : State) : Host.Outcome State Fault Refusal :=
  match i with
  | .nop => Sys2Proof.Machine.execNop s
  | .ftclr => Sys2Proof.Machine.execFtclr s
  | .count sym => Sys2Proof.Machine.execCount sym s
  | .build => Sys2Proof.Machine.execBuild s
  | .gen => Sys2Proof.Machine.execGen s
  | .ctclr => Sys2Proof.Machine.execCtclr s
  | .ldcode sym len cbits => Sys2Proof.Machine.execLdcode sym len cbits s
  | .encbeg => Sys2Proof.Machine.execEncbeg s
  | .enc sym => Sys2Proof.Machine.execEnc sym s
  | .encend => Sys2Proof.Machine.execEncend s
  | .decbeg => Sys2Proof.Machine.execDecbeg s
  | .decbit dig => Sys2Proof.Machine.execDecbit dig s
  | .decend => Sys2Proof.Machine.execDecend s
  | .rdstat => Sys2Proof.Machine.execRdstat s
  | .rdtot => Sys2Proof.Machine.execRdtot s
  | .rdfreq sym => Sys2Proof.Machine.execRdfreq sym s
  | .rdtree => Sys2Proof.Machine.execRdtree s
  | .rdnode idx => Sys2Proof.Machine.execRdnode idx s
  | .rdcode sym => Sys2Proof.Machine.execRdcode sym s

end Sys2Proof.Machine
end

