-- ==== Sys2Proof/Machine/Step.lean ====
section
/-! DEFINITION. One step of the block: the acceptance of one command word (00_scope.md R12). -/

namespace Sys2Proof.Machine

open Sys2Proof

/-- Accept the oldest command presented (10_state.md R37: drop the head, the same for every command):
decode it, and run it or raise `IllegalCommand` (30_encoding.md R83). With no command presented the
block is idle and keeps all state (60_exceptions.md R213; log entry 2). -/
def step (s : State) : Host.Outcome State Fault Refusal :=
  match s.cmd with
  | [] => .next s
  | w :: rest =>
    match decode w with
    | .ok i => exec i { s with cmd := rest }
    | .error _ => failWith .illegalCommand { s with cmd := rest }

/-- The host presents the word `w` ahead of everything else on CMD, so that the next step accepts it
(log entry 1). -/
def State.withFetchWord (s : State) (nbits w : Nat) : State :=
  { s with cmd := BitVec.ofNat 32 (w % 2 ^ nbits) :: s.cmd }

end Sys2Proof.Machine
end

