-- ==== Sys2Proof/Machine/Assembler.lean ====
section
/-! DEFINITION. The assembler notation of 30_encoding.md R91 and the pseudo-commands of R92: from a source
statement to command words, and from the text of a line to a source statement. The block never sees any
of it; it is how programs are written down. -/

namespace Sys2Proof.Machine

open Sys2Proof

/-- A source statement: a command with operands as written, a word placed as it is, or a
pseudo-command (R91, R92). -/
inductive Asm where
  | nop
  | ftclr
  | count (sym : Nat)
  | build
  | gen
  | ctclr
  | ldcode (sym len cbits : Nat)
  | encbeg
  | enc (sym : Nat)
  | encend
  | decbeg
  | decbit (dig : Nat)
  | decend
  | rdstat
  | rdtot
  | rdfreq (sym : Nat)
  | rdtree
  | rdnode (idx : Nat)
  | rdcode (sym : Nat)
  /-- `.word value` -/
  | word (value : Nat)
  /-- `LDCODE sym, "d0d1..."` -/
  | ldcodeDigits (sym : Nat) (digits : List Digit)
  | decbits (digits : List Digit)
  | counts (syms : List Nat)
  | encs (syms : List Nat)
  | encodeFrame (syms : List Nat)
  | decodeFrame (digits : List Digit)
  | mktable (syms : List Nat)
  deriving DecidableEq, Repr

/-- An operand that does not fit its field is an assembler error, not a truncation (R91). -/
def fit (w n : Nat) : Option (BitVec w) := if n < 2 ^ w then some (BitVec.ofNat w n) else none

/-- `cbits = sum of d_j << j` (R92). -/
def packNat : List Digit → Nat
  | [] => 0
  | d :: ds => d.toNat + 2 * packNat ds

/-- The word of a one-symbol command. -/
def symWord (f : Symbol → Instr) (sym : Nat) : Option Word := (fit 8 sym).map fun x => encode (f x)

/-- The words of one command per symbol, in order. -/
def symWords (f : Symbol → Instr) : List Nat → Option (List Word)
  | [] => some []
  | n :: ns =>
    match symWord f n, symWords f ns with
    | some w, some ws => some (w :: ws)
    | _, _ => none

/-- The words of one DECBIT per digit, first digit first. -/
def digitWords (ds : List Digit) : List Word := ds.map fun d => encode (.decbit d)

/-- The word of `LDCODE sym, len, cbits`. -/
def ldcodeWord (sym len cbits : Nat) : Option Word :=
  match fit 8 sym, fit 4 len, fit 15 cbits with
  | some x, some n, some c => some (encode (.ldcode x n c))
  | _, _, _ => none

/-- The command words of a statement, or none for an assembler error (R91, R92). -/
def Asm.words : Asm → Option (List Word)
  | .nop => some [encode .nop]
  | .ftclr => some [encode .ftclr]
  | .count sym => symWords .count [sym]
  | .build => some [encode .build]
  | .gen => some [encode .gen]
  | .ctclr => some [encode .ctclr]
  | .ldcode sym len cbits => (ldcodeWord sym len cbits).map fun w => [w]
  | .encbeg => some [encode .encbeg]
  | .enc sym => symWords .enc [sym]
  | .encend => some [encode .encend]
  | .decbeg => some [encode .decbeg]
  | .decbit dig => (fit 1 dig).map fun d => [encode (.decbit (d == 1))]
  | .decend => some [encode .decend]
  | .rdstat => some [encode .rdstat]
  | .rdtot => some [encode .rdtot]
  | .rdfreq sym => symWords .rdfreq [sym]
  | .rdtree => some [encode .rdtree]
  | .rdnode idx => (fit 5 idx).map fun i => [encode (.rdnode i)]
  | .rdcode sym => symWords .rdcode [sym]
  | .word value => (fit 32 value).map fun w => [w]
  | .ldcodeDigits sym digits => (ldcodeWord sym digits.length (packNat digits)).map fun w => [w]
  | .decbits digits => some (digitWords digits)
  | .counts syms => symWords .count syms
  | .encs syms => symWords .enc syms
  | .encodeFrame syms =>
    (symWords .enc syms).map fun ws => encode .encbeg :: ws ++ [encode .encend]
  | .decodeFrame digits => some (encode .decbeg :: digitWords digits ++ [encode .decend])
  | .mktable syms =>
    (symWords .count syms).map fun ws => encode .ftclr :: ws ++ [encode .build, encode .gen]

/-! ### The text of a line (R91). Points R91 does not spell out are in log entry 10. -/

/-- An operand as written. -/
inductive Operand where
  /-- Decimal, `0x` or `0b`. -/
  | number (n : Nat)
  /-- A quoted ASCII character: only a Symbol may be written so. -/
  | quoted (n : Nat)
  /-- A digit string in double quotes. -/
  | digits (ds : List Digit)
  deriving DecidableEq, Repr

/-- What the next character of a line belongs to. -/
inductive LexMode where
  /-- Neither of the others. -/
  | plain
  /-- A digit string whose closing double quote is still to come. -/
  | string
  /-- A quoted character, of which `left + 1` characters are still to come. -/
  | quoted (left : Nat)
  deriving DecidableEq, Repr

/-- The mode after the character `c` with `rest` to come.

DESIGN CHOICE (log entry 10): R91 gives no escape. Outside a digit string an apostrophe, any one character
and an apostrophe are one quoted character, whatever the character is, so the apostrophe itself is
written as three apostrophes; an apostrophe that starts no such group is an ordinary character. -/
def LexMode.after (c : Char) (rest : List Char) : LexMode → LexMode
  | .plain =>
    if c = '"' then .string
    else if c = '\'' ∧ rest[1]? = some '\'' then .quoted 1
    else .plain
  | .string => if c = '"' then .plain else .string
  | .quoted 0 => .plain
  | .quoted (left + 1) => .quoted left

/-- Split at `sep`, but not inside a quoted character or a digit string; `cur` is the piece so far,
reversed (log entry 10). -/
def splitOutside (sep : Char) (mode : LexMode) (cur : List Char) : List Char → List (List Char)
  | [] => [cur.reverse]
  | c :: cs =>
    if mode = .plain ∧ c = sep then cur.reverse :: splitOutside sep .plain [] cs
    else splitOutside sep (mode.after c cs) (c :: cur) cs

/-- A space, a tab or a carriage return. -/
def isBlank (c : Char) : Bool := c == ' ' || c == '\t' || c == '\r'

/-- Drop blanks at both ends. -/
def trim (cs : List Char) : List Char := ((cs.dropWhile isBlank).reverse.dropWhile isBlank).reverse

/-- The value of a digit character in a base, `none` for any other character. -/
def charValue (base : Nat) (c : Char) : Option Nat :=
  let v :=
    if '0' ≤ c ∧ c ≤ '9' then c.toNat - '0'.toNat
    else if 'a' ≤ c ∧ c ≤ 'f' then c.toNat - 'a'.toNat + 10
    else if 'A' ≤ c ∧ c ≤ 'F' then c.toNat - 'A'.toNat + 10
    else base
  if v < base then some v else none

/-- The value of a digit sequence in a base, most significant first, continuing from `acc`. -/
def numeral (base : Nat) (acc : Nat) : List Char → Option Nat
  | [] => some acc
  | c :: cs =>
    match charValue base c with
    | some v => numeral base (base * acc + v) cs
    | none => none

/-- A numeral of at least one digit. -/
def numeral1 (base : Nat) : List Char → Option Nat
  | [] => none
  | cs => numeral base 0 cs

/-- A digit string: characters 0 and 1 up to the closing quote. -/
def digitString : List Char → Option (List Digit)
  | ['"'] => some []
  | '0' :: cs => (digitString cs).map (false :: ·)
  | '1' :: cs => (digitString cs).map (true :: ·)
  | _ => none

/-- One operand, blanks already dropped. A quoted character stands for its ASCII code, the apostrophe
between two others for 0x27 (R91; log entry 10). -/
def parseOperand : List Char → Option Operand
  | ['\'', c, '\''] => if c.toNat < 128 then some (.quoted c.toNat) else none
  | '"' :: cs => (digitString cs).map .digits
  | '0' :: 'x' :: cs => (numeral1 16 cs).map .number
  | '0' :: 'b' :: cs => (numeral1 2 cs).map .number
  | cs => (numeral1 10 cs).map .number

/-- All operands of a command, or none if one of them cannot be read. -/
def parseOperands : List (List Char) → Option (List Operand)
  | [] => some []
  | p :: ps =>
    match parseOperand (trim p), parseOperands ps with
    | some o, some os => some (o :: os)
    | _, _ => none

/-- The symbol values of a list of operands, each a number or a quoted character. -/
def symValues : List Operand → Option (List Nat)
  | [] => some []
  | .number n :: os => (symValues os).map (n :: ·)
  | .quoted n :: os => (symValues os).map (n :: ·)
  | .digits _ :: _ => none

/-- A command of format S or a pseudo-command over one symbol. -/
def oneSym (f : Nat → Asm) (os : List Operand) : Option Asm :=
  match symValues os with
  | some [n] => some (f n)
  | _ => none

/-- `LDCODE` in both its forms (R91, R92). -/
def ldcodeStatement : List Operand → Option Asm
  | [o, .number len, .number cbits] => oneSym (fun n => .ldcode n len cbits) [o]
  | [o, .digits ds] => oneSym (fun n => .ldcodeDigits n ds) [o]
  | _ => none

/-- The statement of a mnemonic and its operands. -/
def statement (mnemonic : String) (os : List Operand) : Option Asm :=
  match mnemonic, os with
  | "NOP", [] => some .nop
  | "FTCLR", [] => some .ftclr
  | "BUILD", [] => some .build
  | "GEN", [] => some .gen
  | "CTCLR", [] => some .ctclr
  | "ENCBEG", [] => some .encbeg
  | "ENCEND", [] => some .encend
  | "DECBEG", [] => some .decbeg
  | "DECEND", [] => some .decend
  | "RDSTAT", [] => some .rdstat
  | "RDTOT", [] => some .rdtot
  | "RDTREE", [] => some .rdtree
  | "COUNT", os => oneSym .count os
  | "ENC", os => oneSym .enc os
  | "RDFREQ", os => oneSym .rdfreq os
  | "RDCODE", os => oneSym .rdcode os
  | "DECBIT", [.number n] => some (.decbit n)
  | "RDNODE", [.number n] => some (.rdnode n)
  | "LDCODE", os => ldcodeStatement os
  | ".word", [.number n] => some (.word n)
  | "DECBITS", [.digits ds] => some (.decbits ds)
  | "DECODE", [.digits ds] => some (.decodeFrame ds)
  | "COUNTS", os => (symValues os).map .counts
  | "ENCS", os => (symValues os).map .encs
  | "ENCODE", os => (symValues os).map .encodeFrame
  | "MKTABLE", os => (symValues os).map .mktable
  | _, _ => none

/-- The statement of a line: at most one; none for a blank or comment line; an error when the line is
not of the form of R91. -/
def parseLine (line : List Char) : Option (List Asm) :=
  let code := trim ((splitOutside ';' .plain [] line).headD [])
  let mnemonic := code.takeWhile fun c => !isBlank c
  let rest := trim (code.dropWhile fun c => !isBlank c)
  if code = [] then some []
  else
    let pieces := if rest = [] then [] else splitOutside ',' .plain [] rest
    match parseOperands pieces with
    | none => none
    | some os => (statement (String.ofList mnemonic) os).map fun a => [a]

/-- The words of a list of statements, in order. -/
def assemble : List Asm → Option (List Word)
  | [] => some []
  | a :: as =>
    match a.words, assemble as with
    | some ws, some more => some (ws ++ more)
    | _, _ => none

/-- The words of a program given as lines of text, one command a line (R91). -/
def assembleLines : List (List Char) → Option (List Word)
  | [] => some []
  | l :: ls =>
    match (parseLine l).bind assemble, assembleLines ls with
    | some ws, some more => some (ws ++ more)
    | _, _ => none

end Sys2Proof.Machine
end

