-- ==== Sys2Proof/Machine/Frames.lean ====
section
/-! DEFINITION. Frames and their results (10_state.md R40): how a consumer reads a token history. No
meaning uses this; claims about what an encode or decode operation returned do. -/

namespace Sys2Proof.Machine

open Sys2Proof

/-- The result of a closed frame (R40). -/
inductive FrameResult (α : Type) where
  /-- Closed with `End`: the payloads of its data tokens, in order. -/
  | success (payload : List α)
  /-- Closed with `Abort`: no list. -/
  | failure
  deriving DecidableEq, Repr

/-- Cut a history into frames; `pending` are the payloads of the frame being read. -/
def resultsFrom {α : Type} (pending : List α) : List (Token α) → List (FrameResult α)
  | [] => []
  | .data a :: ts => resultsFrom (pending ++ [a]) ts
  | .close :: ts => .success pending :: resultsFrom [] ts
  | .abort :: ts => .failure :: resultsFrom [] ts

/-- The results of the closed frames of a history, oldest first (R40).

It is meant for a history without a host reset in it. DESIGN CHOICE (log entry 4): a history holds no mark
of a reset, so in one that spans a reset the data tokens left unfinished there are joined to the next
frame that closes; 70_reset_and_hazards.md R222 has the consumer end that frame at the reset, with result
failure. -/
def frameResults {α : Type} (ts : List (Token α)) : List (FrameResult α) := resultsFrom [] ts

/-- The payloads of the unfinished frame at the end of a history; it has no result. -/
def unfinishedFrom {α : Type} (pending : List α) : List (Token α) → List α
  | [] => pending
  | .data a :: ts => unfinishedFrom (pending ++ [a]) ts
  | .close :: ts => unfinishedFrom [] ts
  | .abort :: ts => unfinishedFrom [] ts

/-- The payloads after the last closing token of a history; a host reset is no closing token (log entry 4). -/
def unfinished {α : Type} (ts : List (Token α)) : List α := unfinishedFrom [] ts

end Sys2Proof.Machine
end

