-- ==== Sys2Proof/Machine/HostPort.lean ====
section
/-! DEFINITION. What the host can do to the block between steps (00_scope.md R16), reset among it
(70_reset_and_hazards.md R220, R222). None of it is a step of the block. -/

namespace Sys2Proof.Machine

open Sys2Proof

/-- The host's three actions (R16). -/
inductive HostAction where
  /-- Present a command word on CMD. -/
  | present (w : Word)
  /-- Consume whatever stands on the output channels. -/
  | consume
  /-- Assert reset. -/
  | reset
  deriving DecidableEq, Repr

/-- Every element of R20 takes its reset value, whatever it held (R220). A command presented and not
yet accepted is not executed, and what has left on RSP, BITOUT and SYMOUT stays sent (R222; log
entry 4). -/
def hostReset (s : State) : State :=
  { State.reset with rsp := s.rsp, bitout := s.bitout, symout := s.symout }

/-- The effect of a host action. The histories are the observation of the run (R17), so consuming an
item leaves them, and the block, unchanged. -/
def hostAct : HostAction → State → State
  | .present w, s => { s with cmd := s.cmd ++ [w] }
  | .consume, s => s
  | .reset, s => hostReset s

end Sys2Proof.Machine
end

