-- ==== Sys2Proof/Machine/Run.lean ====
section
/-! DEFINITION. A sequence of commands run one after another (20_memory.md R68): what a program is to the
block (10_state.md R37). -/

namespace Sys2Proof.Machine

open Sys2Proof

/-- Run the commands in order, each in the state the one before left, stopping at a fault or refusal. -/
def execAll : List Instr → State → Result
  | [], s => .next s
  | i :: is, s =>
    match exec i s with
    | .next t => execAll is t
    | .fault r => .fault r
    | .refused r => .refused r

end Sys2Proof.Machine
end

