-- ==== Sys2Proof/Machine/Trie.lean ====
section
/-! DEFINITION. Two other decoders the spec describes beside the normative one of `Decoder.lean`: the state
machine of doc00 with its unbounded accumulator (44_decoder.md R156), and the prefix-tree traversal
(R158). `step` uses neither; claims of equivalence speak of them. -/

namespace Sys2Proof.Machine

open Sys2Proof

/-- The symbol of the CT entry whose code is `c`: doc00's DecodeTable (10_state.md R30). -/
def decodeTable (ct : List CtEntry) (c : List Digit) : Option Symbol :=
  (ct.find? fun e => e.code == c).map CtEntry.sym

/-- One digit of doc00's machine: append, look up, and on a match emit and empty (R151, R156). -/
def unboundedBit (ct : List CtEntry) (acc : List Digit) (d : Digit) : List Digit × Option Symbol :=
  match decodeTable ct (acc ++ [d]) with
  | some s => ([], some s)
  | none => (acc ++ [d], none)

/-- `POS`: a node of the code trie, named by the digits from the root, or `DEAD` (R158). -/
inductive TriePos where
  | node (path : List Digit)
  | dead
  deriving DecidableEq, Repr

/-- The trie has the node `p` below the root: `p` is a prefix of a code (R158). -/
def trieHas (ct : List CtEntry) (p : List Digit) : Bool := ct.any fun e => p.isPrefixOf e.code

/-- One digit of the traversal (R158). -/
def trieBit (ct : List CtEntry) (pos : TriePos) (d : Digit) : TriePos × Option Symbol :=
  match pos with
  | .dead => (.dead, none)
  | .node p =>
    if trieHas ct (p ++ [d]) then
      match decodeTable ct (p ++ [d]) with
      | some s => (.node [], some s)
      | none => (.node (p ++ [d]), none)
    else (.dead, none)

/-- The traversal's pending condition: `POS ≠ root` (R158). -/
def triePending (pos : TriePos) : Bool := pos ≠ .node []

/-- Feed digits to a decoder that takes one digit at a time; gather the symbols it emits. -/
def feed {σ : Type} (bit : σ → Digit → σ × Option Symbol) (s : σ) : List Digit → σ × List Symbol
  | [] => (s, [])
  | d :: ds =>
    let r := bit s d
    let more := feed bit r.1 ds
    (more.1, r.2.toList ++ more.2)

end Sys2Proof.Machine
end

