-- ==== Sys2Proof/Safety.lean ====
section
/-! DEFINITION. The terms claims are stated in: the invariant of 10_state.md R42, the paths of a coding
tree, the answer of a command, and when a command is out of order. -/

namespace Sys2Proof.Machine

open Sys2Proof

/-! ### Answers -/

/-- `s` after a command that did nothing but respond with the word `w`. -/
def answered (w : Word) (s : State) : State := { s with rsp := s.rsp ++ [w] }

/-- `s` after a command that did nothing but end in the error of code `k`: one ERRLOG bit and the
response word `k << 27` (60_exceptions.md R203, R204). -/
def errored (k : Nat) (s : State) : State :=
  { s with errlog := s.errlog ||| 1#11 <<< k, rsp := s.rsp ++ [BitVec.ofNat 32 (k * 2 ^ 27)] }

/-- The response code of a response word (30_encoding.md R87). -/
def codeOf (r : Word) : Nat := (r.extractLsb' 27 5).toNat

/-- The word `w`, and no other, is the command `i` (30_encoding.md R82, R83). -/
def EncodedAs (i : Instr) (w : Word) : Prop := ∀ v : Word, decode v = .ok i ↔ v = w

/-! ### The invariant (R42) -/

/-- R21 (a), (b), R23 and the capacity of FT. -/
structure FtInv (s : State) : Prop where
  room : s.ft.length ≤ Config.nsymMax
  distinct : (s.ft.map FtEntry.sym).Nodup
  positive : ∀ e ∈ s.ft, 1 ≤ e.count.toNat
  total_eq : s.total.toNat = (s.ft.map fun e => e.count.toNat).sum

/-- The frequency of node `i`, 0 where there is none. -/
def freqAt (node : List Node) (i : Nat) : Nat :=
  match node[i]? with
  | some (.leaf _ f) => f.toNat
  | some (.internal _ _ f) => f.toNat
  | none => 0

/-- The symbols of the Leaves, in table order. -/
def leafSyms : List Node → List Symbol
  | [] => []
  | .leaf sym _ :: ns => sym :: leafSyms ns
  | .internal _ _ _ :: ns => leafSyms ns

/-- The children of every Internal node, zero-branch first, in table order. -/
def childIdxs : List Node → List Nat
  | [] => []
  | .leaf _ _ :: ns => childIdxs ns
  | .internal c0 c1 _ :: ns => c0.toNat :: c1.toNat :: childIdxs ns

/-- Node `i` is a Leaf. -/
def isLeafAt (node : List Node) (i : Nat) : Bool :=
  match node[i]? with
  | some (.leaf _ _) => true
  | some (.internal _ _ _) => false
  | none => false

/-- Node `i` is Internal, its children differ and lie below it, and its frequency is the sum of theirs
(R26 (a), (c)). -/
def internalOkAt (node : List Node) (i : Nat) : Bool :=
  match node[i]? with
  | some (.leaf _ _) => false
  | some (.internal c0 c1 f) =>
    c0 ≠ c1 && c0.toNat < i && c1.toNat < i && f.toNat = freqAt node c0.toNat + freqAt node c1.toNat
  | none => false

/-- A valid tree with `n` Leaves (R25, R26 (a) to (c)). -/
structure ValidTree (n : Nat) (node : List Node) (root : NodeIdx) : Prop where
  some_leaf : 1 ≤ n
  room : n ≤ Config.nsymMax
  size : node.length = 2 * n - 1
  root_last : root.toNat = 2 * n - 2
  leaves : ∀ i < n, isLeafAt node i = true
  internals : ∀ i < 2 * n - 1, n ≤ i → internalOkAt node i = true
  one_parent : ∀ i < 2 * n - 2, (childIdxs node).count i = 1
  distinct : (leafSyms node).Nodup
  root_freq : freqAt node root.toNat = ((List.range n).map (freqAt node)).sum

/-- R25: no tree, or a valid one. -/
def TreeInv (s : State) : Prop :=
  if s.treeValid then ∃ n, ValidTree n s.node s.root else s.node = [] ∧ s.root = 0

/-- Neither digit sequence is a prefix of the other (00_scope.md R11). -/
def Apart (p q : List Digit) : Prop := ¬ p <+: q ∧ ¬ q <+: p

/-- R27, R29 and the capacity of CT. -/
structure CtInv (ct : List CtEntry) : Prop where
  room : ct.length ≤ Config.nsymMax
  well_formed : ∀ e ∈ ct, codeOperandOk e.len e.bits = true
  distinct : (ct.map CtEntry.sym).Nodup
  prefix_free : ct.Pairwise fun a b => Apart a.code b.code

/-- The accumulator as a digit sequence (R31). -/
def State.accDigits (s : State) : List Digit := digitsOf s.acclen s.acc

/-- R31 and the accumulator clauses of R42. -/
structure DecInv (s : State) : Prop where
  closed_empty : s.decOpen = false → s.acclen = 0 ∧ s.acc = 0 ∧ s.ovr = false
  high_zero : s.acc >>> s.acclen.toNat = 0
  no_code_inside : ∀ e ∈ s.ct, s.decOpen = true → ¬ e.code <+: s.accDigits
  overrun_full : s.ovr = true → s.acclen.toNat = Config.lmax

/-- R35: bits 0 and 4 are always 0. -/
def ErrlogInv (s : State) : Prop := s.errlog.getLsbD 0 = false ∧ s.errlog.getLsbD 4 = false

/-- The invariant of R42. -/
structure Inv (s : State) : Prop where
  ft : FtInv s
  tree : TreeInv s
  ct : CtInv s.ct
  dec : DecInv s
  errlog : ErrlogInv s

/-- While a frame is closed its channel ends with a closing token or is empty (R33, R40). This one
is about the histories of a run without a host reset in it (70_reset_and_hazards.md R222). -/
structure FramesClosed (s : State) : Prop where
  enc : s.encOpen = false → unfinished s.bitout = []
  dec : s.decOpen = false → unfinished s.symout = []

/-! ### The coding tree -/

/-- The digits `p` lead from node `i` to a Leaf with symbol `sym` (42_code_table.md R121). -/
inductive PathTo (node : List Node) : Nat → List Digit → Symbol → Prop where
  | leaf {i : Nat} {sym : Symbol} {f : Count} : node[i]? = some (.leaf sym f) → PathTo node i [] sym
  | zero {i : Nat} {c0 c1 : NodeIdx} {f : Count} {p : List Digit} {sym : Symbol} :
      node[i]? = some (.internal c0 c1 f) → PathTo node c0.toNat p sym → PathTo node i (false :: p) sym
  | one {i : Nat} {c0 c1 : NodeIdx} {f : Count} {p : List Digit} {sym : Symbol} :
      node[i]? = some (.internal c0 c1 f) → PathTo node c1.toNat p sym → PathTo node i (true :: p) sym

/-- Node `x` stands before node `y` in the order of 41_tree_builder.md R112. -/
def NodeBefore (node : List Node) (x y : Nat) : Prop :=
  freqAt node x < freqAt node y ∨ freqAt node x = freqAt node y ∧ x < y

/-- Node `i` is in `live` when Internal node `k` is made: it exists by then, and is a child of none of
the nodes before `k` (R110). -/
def LiveAt (node : List Node) (k i : Nat) : Prop := i < k ∧ i ∉ childIdxs (node.take k)

/-! ### Sequences -/

/-- The distinct elements of a sequence in the order of their first occurrence (R21 (c)). -/
def firstOccurrences {α : Type} [DecidableEq α] : List α → List α
  | [] => []
  | x :: xs => x :: (firstOccurrences xs).filter fun y => y ≠ x

/-- The code CT maps a symbol to, `[]` for an absent symbol. -/
def codeFor (ct : List CtEntry) (sym : Symbol) : List Digit :=
  match ctFind ct sym with
  | some e => e.code
  | none => []

/-- An encode frame: ENCBEG, the commands `mid`, ENCEND (43_encoder.md R145). -/
def encodeFrame (mid : List Instr) : List Instr := .encbeg :: (mid ++ [.encend])

/-- A decode frame: DECBEG, the commands `mid`, DECEND (44_decoder.md R161). -/
def decodeFrame (mid : List Instr) : List Instr := .decbeg :: (mid ++ [.decend])

/-- doc00's `build(S)`: count each symbol, build, generate (44_decoder.md R162). -/
def tableProgram (syms : List Symbol) : List Instr := syms.map .count ++ [.build, .gen]

/-- The response codes a run of `prog` from `s` to `t` gave to the commands that `keep` selects, in
order: one response per command (20_memory.md R69). -/
def codesFor (keep : Instr → Bool) (prog : List Instr) (s t : State) : List Nat :=
  ((prog.zip (t.rsp.drop s.rsp.length)).filter fun x => keep x.1).map fun x => codeOf x.2

/-- A command of the encoder. -/
def isEncoder : Instr → Bool
  | .encbeg => true
  | .enc _ => true
  | .encend => true
  | .nop | .ftclr | .count _ | .build | .gen | .ctclr | .ldcode _ _ _ | .decbeg | .decbit _ | .decend
  | .rdstat | .rdtot | .rdfreq _ | .rdtree | .rdnode _ | .rdcode _ => false

/-- A command of the decoder. -/
def isDecoder : Instr → Bool
  | .decbeg => true
  | .decbit _ => true
  | .decend => true
  | .nop | .ftclr | .count _ | .build | .gen | .ctclr | .ldcode _ _ _ | .encbeg | .enc _ | .encend
  | .rdstat | .rdtot | .rdfreq _ | .rdtree | .rdnode _ | .rdcode _ => false

/-- A full binary tree with a symbol at each leaf (41_tree_builder.md R114 (d)). -/
inductive CodeTree where
  | leaf (sym : Symbol)
  | fork (zero one : CodeTree)
  deriving DecidableEq, Repr

/-- The symbols at the leaves, left to right. -/
def CodeTree.syms : CodeTree → List Symbol
  | .leaf sym => [sym]
  | .fork a b => a.syms ++ b.syms

/-- The sum over the leaves of weight times depth, the root standing at depth `d` (R114 (d)). -/
def CodeTree.costFrom (w : Symbol → Nat) (d : Nat) : CodeTree → Nat
  | .leaf sym => w sym * d
  | .fork a b => a.costFrom w (d + 1) + b.costFrom w (d + 1)

/-! ### Command order -/

/-- The state `s` with everything upstream of the code table taken from `u`: FT, TOTAL and the tree
(00_scope.md R3). -/
def withUpstream (u s : State) : State :=
  { s with ft := u.ft, total := u.total, node := u.node, root := u.root, treeValid := u.treeValid }

/-- The table of 60_exceptions.md R197: when a well-formed command is not permitted. -/
def outOfOrder (s : State) : Instr → Bool
  | .gen => s.encOpen || s.decOpen || !s.treeValid
  | .ctclr => s.encOpen || s.decOpen
  | .ldcode _ _ _ => s.encOpen || s.decOpen
  | .encbeg => s.encOpen
  | .enc _ => !s.encOpen
  | .encend => !s.encOpen
  | .decbeg => s.decOpen
  | .decbit _ => !s.decOpen
  | .decend => !s.decOpen
  | .nop | .ftclr | .count _ | .build | .rdstat | .rdtot | .rdfreq _ | .rdtree | .rdnode _ | .rdcode _ => false

end Sys2Proof.Machine
end

