-- ==== Sys2Proof/Certificates/Slice0/Obligations.lean ====
section
/-! DEFINITION. The statements about the block, from the numbered rules of spec/. Where a statement
needs a premise that every run meets, it is the invariant `Inv` of R42, which is a statement of its own. -/

open Sys2Proof Sys2Proof.Machine

/-! ### Reset, the invariant, and the step -/

/-- R41: the value of every element after reset, counters and STATUS view among them. -/
def Obligations.ResetStateHoldsTheSpecValues : Prop :=
  State.reset.ft = [] ∧ State.reset.ftn = 0 ∧ State.reset.total = 0 ∧
  State.reset.node = [] ∧ State.reset.nnodes = 0 ∧ State.reset.root = 0 ∧ State.reset.treeValid = false ∧
  State.reset.ct = [] ∧ State.reset.ctn = 0 ∧ State.reset.degen = false ∧
  State.reset.encOpen = false ∧ State.reset.decOpen = false ∧
  State.reset.acc = 0 ∧ State.reset.acclen = 0 ∧ State.reset.ovr = false ∧
  State.reset.errlog = 0 ∧ State.reset.status = 0

/-- R42: the reset state meets the invariant. That its histories hold no unfinished frame rests on the
model's choice that the channels are empty at launch (log entry 1, DESIGN CHOICE). -/
def Obligations.ResetMeetsTheInvariant : Prop := Inv State.reset ∧ FramesClosed State.reset

/-- R42: every step keeps the invariant, from every state that meets it. -/
def Obligations.StepKeepsTheInvariant : Prop :=
  ∀ s t : State, Inv s → step s = .next t → Inv t

/-- R33, R40: a channel holds an unfinished frame only while that frame is open, and every step keeps
it so. -/
def Obligations.StepLeavesFramesClosedUnlessOpen : Prop :=
  ∀ s t : State, FramesClosed s → step s = .next t → FramesClosed t

/-- R12, R18 (a): every one of the 2^32 words completes in every state a run can reach. The word is
taken from CMD, exactly one response is produced, and tokens are only appended. -/
def Obligations.EveryWordCompletesInOneStep : Prop :=
  ∀ (s : State) (w : Word) (rest : List Word), Inv s → s.cmd = w :: rest →
    ∃ (t : State) (r : Word) (bits : List (Token Digit)) (syms : List (Token Symbol)),
      step s = .next t ∧ t.cmd = rest ∧ t.rsp = s.rsp ++ [r] ∧
      t.bitout = s.bitout ++ bits ∧ t.symout = s.symout ++ syms

/-- R83 stage 3, R37: when the word at the head of CMD decodes to a command, the step is that command's
meaning in the state with the head dropped. With no command presented the state is kept, which is the
model's reading of R213 (log entry 2). -/
def Obligations.StepRunsTheDecodedCommand : Prop :=
  (∀ (s : State) (w : Word) (rest : List Word) (i : Instr), s.cmd = w :: rest → decode w = .ok i →
    step s = exec i { s with cmd := rest }) ∧
  (∀ s : State, s.cmd = [] → step s = .next s)

/-- R37, R68: the steps over the words of a program are the program's commands, run in order. -/
def Obligations.EncodedProgramRunsInOrder : Prop :=
  ∀ (prog : List Instr) (rest : List Word) (s : State),
    Sys2Proof.core.run prog.length ({ s with cmd := prog.map encode ++ rest } : State) =
      execAll prog { s with cmd := rest }

/-- R220, R222: a host reset gives every element its reset value whatever it held and drops the commands
not yet accepted (log entry 4). It says nothing of the histories across the reset, as R222 advises. No
command clears ERRLOG or TREE_VALID. -/
def Obligations.HostResetIsTotalAndTheOnlyClear : Prop :=
  (∀ s : State, { hostAct .reset s with rsp := [], bitout := [], symout := [] } = State.reset) ∧
  (∀ (i : Instr) (s t : State), exec i s = .next t →
    (s.treeValid = true → t.treeValid = true) ∧
    ∀ k, s.errlog.getLsbD k = true → t.errlog.getLsbD k = true)

/-! ### Encoding -/

/-- R81, R90: decoding the word of a command gives that command, for every operand value. -/
def Obligations.DecodeOfEncodeIsTheCommand : Prop :=
  ∀ i : Instr, decode (encode i) = .ok i

/-- R85, R86: a command has exactly one word. -/
def Obligations.EncodeOfDecodeIsTheWord : Prop :=
  ∀ (w : Word) (i : Instr), decode w = .ok i → encode i = w

/-- R83: a word is a command exactly when it matches a row of the opcode table; no word matches two
rows; and a word that is no command fails at the opcode exactly when its OP is one of the 13 reserved
values. -/
def Obligations.DecodingFollowsTheOpcodeTable : Prop :=
  (∀ w : Word, (∃ i, decode w = .ok i) ↔ ∃ r ∈ tableRows, w &&& r.1 = r.2) ∧
  (tableRows.Pairwise fun a b => ∀ w : Word, ¬ (w &&& a.1 = a.2 ∧ w &&& b.1 = b.2)) ∧
  (∀ w : Word, decode w = .error .reservedOpcode ↔
    w.toNat / 2 ^ 27 ∈ [0x07, 0x0B, 0x0F, 0x16, 0x17, 0x18, 0x19, 0x1A, 0x1B, 0x1C, 0x1D, 0x1E, 0x1F])

/-- R84, R85, R196: a word with a reserved opcode, or with a 1 in a reserved-zero bit of its format,
changes nothing but ERRLOG bit 5 and is answered 0x28000000, in every state. -/
def Obligations.ReservedWordsAreIllegalCommands : Prop :=
  ∀ (s : State) (w : Word) (rest : List Word), s.cmd = w :: rest →
    (w.toNat / 2 ^ 27 ∈ [0x07, 0x0B, 0x0F, 0x16, 0x17, 0x18, 0x19, 0x1A, 0x1B, 0x1C, 0x1D, 0x1E, 0x1F] ∨
     w.toNat / 2 ^ 27 ∈ [0x00, 0x01, 0x03, 0x04, 0x05, 0x08, 0x0A, 0x0C, 0x0E, 0x10, 0x11, 0x13] ∧
       w.toNat % 2 ^ 27 ≠ 0 ∨
     w.toNat / 2 ^ 27 ∈ [0x02, 0x09, 0x12, 0x15] ∧ w.toNat % 2 ^ 27 / 2 ^ 8 ≠ 0 ∨
     w.toNat / 2 ^ 27 = 0x0D ∧ w.toNat % 2 ^ 27 / 2 ≠ 0 ∨
     w.toNat / 2 ^ 27 = 0x14 ∧ w.toNat % 2 ^ 27 / 2 ^ 5 ≠ 0) →
    step s = .next
      { s with cmd := rest, errlog := s.errlog ||| 0x020#11, rsp := s.rsp ++ [0x28000000#32] }

/-- R82: words written out from the formats, one per format and unit. -/
def Obligations.SampleWordsDecode : Prop :=
  decode 0x00000000#32 = .ok .nop ∧ decode 0x10000061#32 = .ok (.count 0x61) ∧
  decode 0x18000000#32 = .ok .build ∧ decode 0x37FFFF20#32 = .ok (.ldcode 0x20 15 0x7FFF) ∧
  decode 0x30001262#32 = .ok (.ldcode 0x62 2 0b01) ∧ decode 0x48000062#32 = .ok (.enc 0x62) ∧
  decode 0x68000001#32 = .ok (.decbit true) ∧ decode 0xA000001E#32 = .ok (.rdnode 30)

/-! ### Unit U1: the frequency counter -/

/-- R100: FTCLR, the word 0x08000000, empties FT and TOTAL and changes nothing else, in every state. -/
def Obligations.FtclrEmptiesTheFrequencyTable : Prop :=
  EncodedAs .ftclr 0x08000000#32 ∧
  ∀ s : State, exec .ftclr s = .next { s with ft := [], total := 0, rsp := s.rsp ++ [0x00000000#32] }

/-- R101: COUNT of a symbol in FT increments that entry and TOTAL; COUNT of a new symbol appends it
with count 1. Nothing else changes. -/
def Obligations.CountTalliesOneOccurrence : Prop :=
  ∀ (s : State) (sym : Symbol), s.total ≠ 65535 →
    (∀ (pre post : List FtEntry) (c : Count),
      s.ft = pre ++ ⟨sym, c⟩ :: post → sym ∉ pre.map FtEntry.sym →
      exec (.count sym) s = .next
        { s with ft := pre ++ ⟨sym, c + 1⟩ :: post, total := s.total + 1, rsp := s.rsp ++ [0x00000000#32] }) ∧
    (sym ∉ s.ft.map FtEntry.sym → s.ft.length ≠ 16 →
      exec (.count sym) s = .next
        { s with ft := s.ft ++ [⟨sym, 1⟩], total := s.total + 1, rsp := s.rsp ++ [0x00000000#32] })

/-- R102, R103, R201: COUNT is refused when TOTAL is 65535, whichever symbol it names and before the
capacity test; and when FT has 16 entries and none is the symbol's. A symbol already in the full table is
accepted. -/
def Obligations.CountRefusesAtItsLimits : Prop :=
  ∀ (s : State) (sym : Symbol),
    (s.total = 65535 → exec (.count sym) s = .next (errored 10 s)) ∧
    (s.total ≠ 65535 → s.ft.length = 16 → sym ∉ s.ft.map FtEntry.sym →
      exec (.count sym) s = .next (errored 9 s)) ∧
    (s.total ≠ 65535 → s.ft.length = 16 → sym ∈ s.ft.map FtEntry.sym →
      ∃ t : State, exec (.count sym) s = .next t ∧ t.rsp = s.rsp ++ [0x00000000#32])

/-- R101, R21 (c), R23: after the COUNTs of a sequence within the capacities, counted from the empty
table, every symbol's count is its number of occurrences, the entries stand in first-occurrence
order, and TOTAL is the length; every response is `OK` and nothing else changes. -/
def Obligations.CountsGiveTheFrequencyTable : Prop :=
  ∀ (s : State) (syms : List Symbol), s.ft = [] → s.total = 0 →
    syms.length ≤ 65535 → (firstOccurrences syms).length ≤ 16 →
    ∃ t : State, execAll (syms.map Instr.count) s = .next t ∧
      t.ft.map FtEntry.sym = firstOccurrences syms ∧
      (∀ x : Symbol, (freqOf t.ft x).toNat = syms.count x) ∧
      t.total.toNat = syms.length ∧
      t = { s with
        ft := t.ft, total := t.total, rsp := s.rsp ++ List.replicate syms.length 0x00000000#32 }

/-! ### Unit U2: the tree builder -/

/-- R113 (a), R192: BUILD on the empty table changes nothing but ERRLOG bit 1 and is answered
0x08000000, and no other command or state gives that answer. -/
def Obligations.EmptyCorpusIsBuildOnTheEmptyTable : Prop :=
  (∀ s : State, s.ft = [] → exec .build s = .next
    { s with errlog := s.errlog ||| 0x002#11, rsp := s.rsp ++ [0x08000000#32] }) ∧
  (∀ (i : Instr) (s t : State) (r : Word), exec i s = .next t → t.rsp = s.rsp ++ [r] → codeOf r = 1 →
    i = .build ∧ s.ft = [])

/-- R110, R114 (a) to (c), R25: BUILD of a table with n entries gives a valid tree whose first n nodes
are the entries as Leaves, in order, and whose root has frequency TOTAL. Nothing else changes. -/
def Obligations.BuildMakesAValidTree : Prop :=
  ∀ s : State, FtInv s → s.ft ≠ [] →
    ∃ t : State, exec .build s = .next t ∧
      ValidTree s.ft.length t.node t.root ∧
      t.node.take s.ft.length = s.ft.map (fun e => Node.leaf e.sym e.count) ∧
      freqAt t.node t.root.toNat = s.total.toNat ∧
      t = { s with node := t.node, root := t.root, treeValid := true, rsp := s.rsp ++ [0x00000000#32] }

/-- R110 to R112: each Internal node joins the two least live nodes in the order (frequency, index),
the first removed as zero-branch, with the sum of their frequencies. -/
def Obligations.BuildMergesTheTwoLeastNodes : Prop :=
  ∀ s : State, FtInv s → s.ft ≠ [] →
    ∃ t : State, exec .build s = .next t ∧
      ∀ k, s.ft.length ≤ k → k < 2 * s.ft.length - 1 →
        ∃ (a b : NodeIdx) (f : Count), t.node[k]? = some (.internal a b f) ∧
          f.toNat = freqAt t.node a.toNat + freqAt t.node b.toNat ∧
          LiveAt t.node k a.toNat ∧ LiveAt t.node k b.toNat ∧ NodeBefore t.node a.toNat b.toNat ∧
          ∀ i, LiveAt t.node k i → i ≠ a.toNat → i ≠ b.toNat → NodeBefore t.node b.toNat i

/-- R115: the frequencies of the Internal nodes do not decrease in the order of their creation. -/
def Obligations.MergeFrequenciesDoNotDecrease : Prop :=
  ∀ s t : State, FtInv s → s.ft ≠ [] → exec .build s = .next t →
    ∀ i, s.ft.length ≤ i → i + 1 < 2 * s.ft.length - 1 → freqAt t.node i ≤ freqAt t.node (i + 1)

/-- R116: the tree is a function of FT alone, and BUILD, GEN done twice give the same tree and code
table. -/
def Obligations.BuildAndGenAreRepeatable : Prop :=
  (∀ s s' t t' : State, s.ft = s'.ft → s.ft ≠ [] → exec .build s = .next t → exec .build s' = .next t' →
    t.node = t'.node ∧ t.root = t'.root) ∧
  (∀ s t u : State, execAll [.build, .gen] s = .next t → execAll [.build, .gen] t = .next u →
    u.node = t.node ∧ u.root = t.root ∧ u.ct = t.ct ∧ u.degen = t.degen)

/-- R114 (d): no full binary tree on the same symbols and counts has a smaller sum of count times
depth than the tree of BUILD. -/
def Obligations.BuiltTreeIsOptimal : Prop :=
  ∀ (s t : State) (path : Symbol → List Digit) (other : CodeTree), FtInv s → exec .build s = .next t →
    (∀ e ∈ s.ft, PathTo t.node t.root.toNat (path e.sym) e.sym) →
    other.syms.Perm (s.ft.map FtEntry.sym) →
    (s.ft.map fun e => e.count.toNat * (path e.sym).length).sum ≤
      other.costFrom (fun x => (freqOf s.ft x).toNat) 0

/-! ### Unit U3: the code table -/

/-- R120: GEN is refused while a frame is open or while there is no tree, with nothing changed but
ERRLOG bit 6. -/
def Obligations.GenIsRefusedWhenLockedOrTreeless : Prop :=
  ∀ s : State, s.encOpen = true ∨ s.decOpen = true ∨ s.treeValid = false →
    exec .gen s = .next
      { s with errlog := s.errlog ||| 0x040#11, rsp := s.rsp ++ [0x30000000#32] }

/-- R120 to R122: from a tree with n ≥ 2 Leaves GEN maps exactly the symbols of the Leaves, each to
the digits of its path from ROOT; CTN is n, each code has 1 to n - 1 digits, the table is a prefix-free
mapping, DEGEN is 0, and nothing else changes. -/
def Obligations.GenAssignsRootToLeafPaths : Prop :=
  ∀ s : State, Inv s → s.encOpen = false → s.decOpen = false → s.treeValid = true → 1 < s.node.length →
    ∃ t : State, exec .gen s = .next t ∧
      (∀ (sym : Symbol) (c : List Digit),
        (∃ e ∈ t.ct, e.sym = sym ∧ e.code = c) ↔ PathTo s.node s.root.toNat c sym) ∧
      (t.ct.map CtEntry.sym).Perm (leafSyms s.node) ∧
      2 * t.ct.length = s.node.length + 1 ∧
      (∀ e ∈ t.ct, 1 ≤ e.code.length ∧ e.code.length ≤ t.ct.length - 1) ∧
      CtInv t.ct ∧
      t = { s with ct := t.ct, degen := false, rsp := s.rsp ++ [0x00000000#32] }

/-- R123: from a tree that is a single Leaf GEN gives its symbol the one-digit code `[0]`, sets DEGEN
and answers `OK`; ERRLOG and everything else stay. -/
def Obligations.GenOfASingleLeafGivesTheCodeZero : Prop :=
  ∀ (s : State) (sym : Symbol) (f : Count), s.encOpen = false → s.decOpen = false → s.treeValid = true →
    s.node = [.leaf sym f] → s.root = 0 →
    exec .gen s = .next
      { s with ct := [⟨sym, 1, 0⟩], degen := true, rsp := s.rsp ++ [0x00000000#32] }

/-- R122 (d): after GEN from a tree with two or more Leaves, every digit sequence of 15 or more digits
has exactly one code of the table as a prefix. -/
def Obligations.GeneratedCodeSetIsComplete : Prop :=
  ∀ (s t : State) (ds : List Digit), Inv s → s.encOpen = false → s.decOpen = false → s.treeValid = true →
    1 < s.node.length → exec .gen s = .next t → 15 ≤ ds.length →
    ∃ e ∈ t.ct, e.code <+: ds ∧ ∀ e' ∈ t.ct, e'.code <+: ds → e' = e

/-- R125: CTCLR, the word 0x28000000, empties CT and DEGEN, unless a frame is open. -/
def Obligations.CtclrEmptiesTheCodeTable : Prop :=
  EncodedAs .ctclr 0x28000000#32 ∧
  ∀ s : State,
    (s.encOpen = false → s.decOpen = false → exec .ctclr s = .next
      { s with ct := [], degen := false, rsp := s.rsp ++ [0x00000000#32] }) ∧
    (s.encOpen = true ∨ s.decOpen = true → exec .ctclr s = .next (errored 6 s))

/-- R126, R127: the word of LDCODE, and its five checks in their order, after the lock; an entry that
passes them all is appended to CT and clears DEGEN, and nothing else changes. -/
def Obligations.LdcodeChecksInOrder : Prop :=
  (∀ (sym : Symbol) (len : CodeLen) (cbits : CodeBits), EncodedAs (.ldcode sym len cbits)
    (0x30000000#32 ||| cbits.setWidth 32 <<< 12 ||| len.setWidth 32 <<< 8 ||| sym.setWidth 32)) ∧
  ∀ (s : State) (sym : Symbol) (len : CodeLen) (cbits : CodeBits),
    let c : List Digit := (List.range len.toNat).map fun j => cbits.getLsbD j
    let stray : Prop := ∃ j, len.toNat ≤ j ∧ j < 15 ∧ cbits.getLsbD j = true
    let known : Prop := sym ∈ s.ct.map CtEntry.sym
    let conflict : Prop := ∃ e ∈ s.ct, e.code <+: c ∨ c <+: e.code
    (s.encOpen = true ∨ s.decOpen = true → exec (.ldcode sym len cbits) s = .next (errored 6 s)) ∧
    (s.encOpen = false → s.decOpen = false →
      (len = 0 ∨ stray → exec (.ldcode sym len cbits) s = .next (errored 7 s)) ∧
      (len ≠ 0 → ¬ stray →
        (known ∨ conflict → exec (.ldcode sym len cbits) s = .next (errored 8 s)) ∧
        (¬ known → ¬ conflict →
          (s.ct.length = 16 → exec (.ldcode sym len cbits) s = .next (errored 9 s)) ∧
          (s.ct.length ≠ 16 → exec (.ldcode sym len cbits) s = .next
            { s with
              ct := s.ct ++ [⟨sym, len, cbits⟩], degen := false, rsp := s.rsp ++ [0x00000000#32] }))))

/-- R71: while a frame is open GEN, CTCLR and LDCODE are refused with `BadSequence`, so that no command
changes CT; FTCLR, COUNT and BUILD are not refused so, and leave the frames open. -/
def Obligations.OpenFrameLocksTheCodeTable : Prop :=
  ∀ s : State, s.encOpen = true ∨ s.decOpen = true →
    (∀ i : Instr, i = .gen ∨ i = .ctclr ∨ (∃ sym len cbits, i = .ldcode sym len cbits) →
      exec i s = .next (errored 6 s)) ∧
    (∀ (i : Instr) (t : State), exec i s = .next t → t.ct = s.ct) ∧
    (∀ (i : Instr) (t : State) (r : Word), i = .ftclr ∨ i = .build ∨ (∃ sym, i = .count sym) →
      exec i s = .next t → t.rsp = s.rsp ++ [r] →
      codeOf r ≠ 6 ∧ t.encOpen = s.encOpen ∧ t.decOpen = s.decOpen)

/-! ### Unit U4: the encoder -/

/-- R140, R144: ENCBEG, the word 0x40000000, opens a closed frame and ENCEND, the word 0x50000000, closes
an open one with `End`; otherwise each is refused with nothing changed but ERRLOG bit 6. -/
def Obligations.EncbegAndEncendOpenAndClose : Prop :=
  EncodedAs .encbeg 0x40000000#32 ∧ EncodedAs .encend 0x50000000#32 ∧
  ∀ s : State,
    (s.encOpen = false → exec .encbeg s = .next
      { s with encOpen := true, rsp := s.rsp ++ [0x00000000#32] }) ∧
    (s.encOpen = true → exec .encbeg s = .next (errored 6 s)) ∧
    (s.encOpen = true → exec .encend s = .next
      { s with
        encOpen := false, bitout := s.bitout ++ [.close], rsp := s.rsp ++ [0x00000000#32] }) ∧
    (s.encOpen = false → exec .encend s = .next (errored 6 s))

/-- R141, R142: the word of ENC; inside a frame it emits the digits of the symbol's code, first digit
first, and changes nothing else; a symbol with no entry aborts the frame; with no frame open ENC is
refused. -/
def Obligations.EncEmitsTheCodeOrAborts : Prop :=
  (∀ sym : Symbol, EncodedAs (.enc sym) (0x48000000#32 ||| sym.setWidth 32)) ∧
  ∀ (s : State) (sym : Symbol),
    (s.encOpen = true → ∀ (pre post : List CtEntry) (len : CodeLen) (bits : CodeBits),
      s.ct = pre ++ ⟨sym, len, bits⟩ :: post → sym ∉ pre.map CtEntry.sym →
      exec (.enc sym) s = .next
        { s with
          bitout := s.bitout ++ (List.range len.toNat).map (fun j => Token.data (bits.getLsbD j))
          rsp := s.rsp ++ [0x00000000#32] }) ∧
    (s.encOpen = true → sym ∉ s.ct.map CtEntry.sym → exec (.enc sym) s = .next
      { s with
        encOpen := false, bitout := s.bitout ++ [.abort]
        errlog := s.errlog ||| 0x004#11, rsp := s.rsp ++ [0x10000000#32] }) ∧
    (s.encOpen = false → exec (.enc sym) s = .next (errored 6 s))

/-- R145: an encode frame with any commands of the other units in between. With every symbol in CT its
result is the concatenation of the codes; with a first symbol that is not, its result is failure, that
ENC answers `UnknownSymbol` and all later encoder commands `BadSequence`. -/
def Obligations.EncodeFrameGivesTheConcatenation : Prop :=
  ∀ (s : State) (syms : List Symbol) (mid : List Instr),
    Inv s → FramesClosed s → s.encOpen = false → mid.filter isEncoder = syms.map Instr.enc →
    ∃ t : State, execAll (encodeFrame mid) s = .next t ∧ t.encOpen = false ∧
      ((∀ x ∈ syms, x ∈ s.ct.map CtEntry.sym) →
        frameResults t.bitout = frameResults s.bitout ++ [.success (syms.flatMap (codeFor s.ct))] ∧
        codesFor isEncoder (encodeFrame mid) s t = List.replicate (syms.length + 2) 0) ∧
      (∀ (pre post : List Symbol) (x : Symbol), syms = pre ++ x :: post →
        (∀ y ∈ pre, y ∈ s.ct.map CtEntry.sym) → x ∉ s.ct.map CtEntry.sym →
        frameResults t.bitout = frameResults s.bitout ++ [.failure] ∧
        codesFor isEncoder (encodeFrame mid) s t =
          List.replicate (pre.length + 1) 0 ++ 2 :: List.replicate (post.length + 1) 6)

/-! ### Unit U5: the decoder -/

/-- R150: DECBEG, the word 0x60000000, opens a frame with an empty accumulator, or is refused with the
open frame and its accumulator intact. -/
def Obligations.DecbegOpensWithAnEmptyAccumulator : Prop :=
  EncodedAs .decbeg 0x60000000#32 ∧
  ∀ s : State,
    (s.decOpen = false → exec .decbeg s = .next
      { s with
        decOpen := true, acc := 0, acclen := 0, ovr := false, rsp := s.rsp ++ [0x00000000#32] }) ∧
    (s.decOpen = true → exec .decbeg s = .next (errored 6 s))

/-- R151: the words of DECBIT, and what it does in each of its cases. With room, the digit is written at position
ACCLEN; a CT entry whose length and bits are then those of the accumulator gives its symbol and empties
it, and otherwise the digit is kept. Every answer is `OK` inside a frame (R160). -/
def Obligations.DecbitAppendsAndMatches : Prop :=
  EncodedAs (.decbit false) 0x68000000#32 ∧ EncodedAs (.decbit true) 0x68000001#32 ∧
  ∀ (s : State) (d : Digit),
    (s.decOpen = false → exec (.decbit d) s = .next (errored 6 s)) ∧
    (s.decOpen = true → s.ovr = true → exec (.decbit d) s = .next (answered 0x00000000#32 s)) ∧
    (s.decOpen = true → s.ovr = false → s.acclen = 15 →
      exec (.decbit d) s = .next { s with ovr := true, rsp := s.rsp ++ [0x00000000#32] }) ∧
    (s.decOpen = true → s.ovr = false → s.acclen ≠ 15 →
      ∃ acc : CodeBits,
        (∀ j, j < 15 → acc.getLsbD j = if j = s.acclen.toNat then d else s.acc.getLsbD j) ∧
        (∀ (pre post : List CtEntry) (e : CtEntry), s.ct = pre ++ e :: post →
          e.len = s.acclen + 1 → e.bits = acc →
          (∀ x ∈ pre, ¬ (x.len = s.acclen + 1 ∧ x.bits = acc)) →
          exec (.decbit d) s = .next
            { s with
              acc := 0, acclen := 0, symout := s.symout ++ [.data e.sym]
              rsp := s.rsp ++ [0x00000000#32] }) ∧
        ((∀ e ∈ s.ct, ¬ (e.len = s.acclen + 1 ∧ e.bits = acc)) →
          exec (.decbit d) s = .next
            { s with acc := acc, acclen := s.acclen + 1, rsp := s.rsp ++ [0x00000000#32] }))

/-- R154, R155: DECEND, the word 0x70000000, closes the frame and empties the accumulator; with an empty accumulator it
emits `End`, otherwise `Abort` and `TruncatedStream`; with no frame open it is refused. -/
def Obligations.DecendClosesTheFrame : Prop :=
  EncodedAs .decend 0x70000000#32 ∧
  ∀ s : State,
    (s.decOpen = true → s.acclen = 0 → s.ovr = false → exec .decend s = .next
      { s with
        decOpen := false, acc := 0, acclen := 0, ovr := false
        symout := s.symout ++ [.close], rsp := s.rsp ++ [0x00000000#32] }) ∧
    (s.decOpen = true → s.acclen ≠ 0 ∨ s.ovr = true → exec .decend s = .next
      { s with
        decOpen := false, acc := 0, acclen := 0, ovr := false
        symout := s.symout ++ [.abort]
        errlog := s.errlog ||| 0x008#11, rsp := s.rsp ++ [0x18000000#32] }) ∧
    (s.decOpen = false → exec .decend s = .next (errored 6 s))

/-- R161: a decode frame with any commands of the other units in between. If its digits are the codes
of some entries of CT one after another, its result is their symbols and every answer is `OK`;
otherwise its result is failure and DECEND answers `TruncatedStream`. -/
def Obligations.DecodeFrameRecoversTheSymbols : Prop :=
  ∀ (s : State) (ds : List Digit) (mid : List Instr),
    Inv s → FramesClosed s → s.decOpen = false → mid.filter isDecoder = ds.map Instr.decbit →
    ∃ t : State, execAll (decodeFrame mid) s = .next t ∧ t.decOpen = false ∧
      (∀ es : List CtEntry, (∀ e ∈ es, e ∈ s.ct) → ds = es.flatMap CtEntry.code →
        frameResults t.symout = frameResults s.symout ++ [.success (es.map CtEntry.sym)] ∧
        codesFor isDecoder (decodeFrame mid) s t = List.replicate (ds.length + 2) 0) ∧
      ((¬ ∃ es : List CtEntry, (∀ e ∈ es, e ∈ s.ct) ∧ ds = es.flatMap CtEntry.code) →
        frameResults t.symout = frameResults s.symout ++ [.failure] ∧
        codesFor isDecoder (decodeFrame mid) s t = List.replicate (ds.length + 1) 0 ++ [3])

/-- R161: from an empty accumulator, the digits of a code give its symbol at the last of them and not
before. -/
def Obligations.SymbolLeavesWithItsLastDigit : Prop :=
  ∀ (s : State) (e : CtEntry), Inv s → s.decOpen = true → s.acclen = 0 → s.ovr = false → e ∈ s.ct →
    (∃ t : State, execAll (e.code.map Instr.decbit) s = .next t ∧
      t.symout = s.symout ++ [.data e.sym] ∧ t.acclen = 0 ∧ t.ovr = false) ∧
    (∀ p : List Digit, p <+: e.code → p ≠ e.code →
      ∃ t : State, execAll (p.map Instr.decbit) s = .next t ∧ t.symout = s.symout ∧ t.accDigits = p)

/-- R157, R161: a digit sequence is a concatenation of codes in at most one way. -/
def Obligations.FactorisationIsUnique : Prop :=
  ∀ (ct : List CtEntry) (xs ys : List CtEntry), CtInv ct → (∀ e ∈ xs, e ∈ ct) → (∀ e ∈ ys, e ∈ ct) →
    xs.flatMap CtEntry.code = ys.flatMap CtEntry.code → xs = ys

/-- R156: from an empty accumulator the block emits the same symbols at the same digits as doc00's
machine with its unbounded accumulator, and is pending exactly when that accumulator is not empty. -/
def Obligations.BoundedAccumulatorEqualsUnbounded : Prop :=
  ∀ (s : State) (ds : List Digit), Inv s → s.decOpen = true → s.acclen = 0 → s.ovr = false →
    ∃ t : State, execAll (ds.map Instr.decbit) s = .next t ∧
      t.symout = s.symout ++ (feed (unboundedBit s.ct) [] ds).2.map Token.data ∧
      (t.dpend = true ↔ (feed (unboundedBit s.ct) [] ds).1 ≠ [])

/-- R158: the prefix-tree traversal emits the same symbols at the same digits and is pending exactly
when the block is. -/
def Obligations.TrieTraversalEqualsAccumulator : Prop :=
  ∀ (s : State) (ds : List Digit), Inv s → s.decOpen = true → s.acclen = 0 → s.ovr = false →
    ∃ t : State, execAll (ds.map Instr.decbit) s = .next t ∧
      t.symout = s.symout ++ (feed (trieBit s.ct) (.node []) ds).2.map Token.data ∧
      t.dpend = triePending (feed (trieBit s.ct) (.node []) ds).1

/-- R159: after GEN from a tree with two or more Leaves the trie traversal never meets a missing child. -/
def Obligations.GeneratedTrieHasNoDeadBranch : Prop :=
  ∀ (s t : State) (ds : List Digit), Inv s → s.encOpen = false → s.decOpen = false → s.treeValid = true →
    1 < s.node.length → exec .gen s = .next t → (feed (trieBit t.ct) (.node []) ds).1 ≠ .dead

/-- R162: the round trip. Counting S from the empty table, building, generating and encoding S gives
digits whose decoding is S; every response is `OK` and ERRLOG is unchanged. For one distinct symbol the
digits are as many zeros. -/
def Obligations.EncodeThenDecodeIsTheInput : Prop :=
  ∀ (s : State) (input : List Symbol), Inv s → FramesClosed s →
    s.encOpen = false → s.decOpen = false → s.ft = [] → s.total = 0 →
    input ≠ [] → input.length < 65536 → (firstOccurrences input).length ≤ 16 →
    ∃ (t u : State) (digits : List Digit),
      execAll (tableProgram input ++ encodeFrame (input.map Instr.enc)) s =
        .next t ∧
      frameResults t.bitout = frameResults s.bitout ++ [.success digits] ∧
      execAll (decodeFrame (digits.map Instr.decbit)) t = .next u ∧
      frameResults u.symout = frameResults s.symout ++ [.success input] ∧
      (∀ r ∈ u.rsp.drop s.rsp.length, codeOf r = 0) ∧ u.errlog = s.errlog ∧
      ((firstOccurrences input).length = 1 → digits = List.replicate input.length false)

/-! ### Control and read-back -/

/-- R170: NOP is the all-zero word and no other; it changes no state element and is answered 0x00000000,
in every state. -/
def Obligations.NopOnlyResponds : Prop :=
  EncodedAs .nop 0x00000000#32 ∧
  ∀ s : State, exec .nop s = .next (answered 0x00000000#32 s)

/-- R171 to R174, R177, R179, R175: the read-back commands write no state element and answer with the
value they read, in the layout of R88. -/
def Obligations.ReadBacksAnswerAndChangeNothing : Prop :=
  ∀ s : State,
    exec .rdstat s = .next (answered (0#5 ++ s.status) s) ∧
    exec .rdtot s = .next (answered (BitVec.ofNat 32 s.total.toNat) s) ∧
    (∀ (sym : Symbol) (c : Count) (pre post : List FtEntry),
      s.ft = pre ++ ⟨sym, c⟩ :: post → sym ∉ pre.map FtEntry.sym →
      exec (.rdfreq sym) s = .next (answered (BitVec.ofNat 32 c.toNat) s)) ∧
    (∀ sym : Symbol, sym ∉ s.ft.map FtEntry.sym →
      exec (.rdfreq sym) s = .next (answered 0x00000000#32 s)) ∧
    exec .rdtree s = .next (answered (BitVec.ofNat 32 (s.nnodes.toNat * 2 ^ 5 + s.root.toNat)) s) ∧
    (∀ (idx : NodeIdx) (sym : Symbol) (f : Count), s.node[idx.toNat]? = some (.leaf sym f) →
      exec (.rdnode idx) s = .next (answered (BitVec.ofNat 32 (f.toNat * 2 ^ 10 + sym.toNat)) s)) ∧
    (∀ (idx c0 c1 : NodeIdx) (f : Count), s.node[idx.toNat]? = some (.internal c0 c1 f) →
      exec (.rdnode idx) s = .next (answered
        (BitVec.ofNat 32 (2 ^ 26 + f.toNat * 2 ^ 10 + c1.toNat * 2 ^ 5 + c0.toNat)) s)) ∧
    (∀ (sym : Symbol) (len : CodeLen) (bits : CodeBits) (pre post : List CtEntry),
      s.ct = pre ++ ⟨sym, len, bits⟩ :: post → sym ∉ pre.map CtEntry.sym →
      exec (.rdcode sym) s = .next (answered
        (BitVec.ofNat 32 (bits.toNat * 2 ^ 12 + len.toNat * 2 ^ 8 + sym.toNat)) s)) ∧
    (∀ sym : Symbol, sym ∉ s.ct.map CtEntry.sym →
      exec (.rdcode sym) s = .next (answered (BitVec.ofNat 32 sym.toNat) s))

/-- R178: RDNODE of an index at or above NNODES, and always of index 31, changes nothing but ERRLOG
bit 7 and is answered 0x38000000. -/
def Obligations.RdnodeRefusesAnIndexWithNoValue : Prop :=
  ∀ (s : State) (idx : NodeIdx), Inv s → s.nnodes.toNat ≤ idx.toNat ∨ idx = 31 →
    exec (.rdnode idx) s = .next
      { s with errlog := s.errlog ||| 0x080#11, rsp := s.rsp ++ [0x38000000#32] }

/-- R36: the bits of STATUS, with each counter equal to the number of valid entries of its table. -/
def Obligations.StatusWordLayout : Prop :=
  ∀ s : State, Inv s →
    s.status.getLsbD 0 = s.treeValid ∧ s.status.getLsbD 1 = s.encOpen ∧ s.status.getLsbD 2 = s.decOpen ∧
    (s.status.getLsbD 3 = true ↔ s.acclen ≠ 0 ∨ s.ovr = true) ∧
    (s.decOpen = false → s.status.getLsbD 3 = false) ∧
    s.status.getLsbD 4 = s.degen ∧
    s.status.toNat / 2 ^ 5 % 2 ^ 5 = s.ft.length ∧ s.status.toNat / 2 ^ 10 % 2 ^ 5 = s.ct.length ∧
    s.status.getLsbD 15 = false ∧
    (∀ k, k < 11 → s.status.getLsbD (16 + k) = s.errlog.getLsbD k)

/-- R179: the answer to RDCODE of a present symbol, with the opcode of LDCODE put before it, is the
command word that loads the same entry. -/
def Obligations.RdcodeAnswerReloadsTheEntry : Prop :=
  ∀ (s : State) (e : CtEntry), CtInv s.ct → e ∈ s.ct →
    ∃ r : Word, exec (.rdcode e.sym) s = .next (answered r s) ∧
      decode (0x30000000#32 ||| r) = .ok (.ldcode e.sym e.len e.bits)

/-! ### Errors -/

/-- R203, R204: a step that ends in an error takes its word from CMD and has no other effect but its
ERRLOG bit, its response and, for `UnknownSymbol` and `TruncatedStream`, the abort of their frame. -/
def Obligations.ErrorsArePrecise : Prop :=
  ∀ (s t : State) (w : Word) (rest : List Word) (r : Word), s.cmd = w :: rest → step s = .next t →
    t.rsp = s.rsp ++ [r] → codeOf r ≠ 0 →
    let u := { s with cmd := rest }
    t = (if codeOf r = 2 then
          { errored 2 u with encOpen := false, bitout := s.bitout ++ [.abort] }
        else if codeOf r = 3 then
          { errored 3 u with
            decOpen := false, acc := 0, acclen := 0, ovr := false, symout := s.symout ++ [.abort] }
        else errored (codeOf r) u)

/-- R87, R195: the only response codes are 0 to 3 and 5 to 10, and an error carries no data. -/
def Obligations.ResponseCodesAreTheTableOnes : Prop :=
  ∀ (s t : State) (r : Word), step s = .next t → t.rsp = s.rsp ++ [r] →
    codeOf r ∈ [0, 1, 2, 3, 5, 6, 7, 8, 9, 10] ∧ (codeOf r ≠ 0 → r.toNat % 2 ^ 27 = 0)

/-- R35, R205: the step that returns response code k ≠ 0 sets ERRLOG bit k and no other; a step that
answers `OK` leaves ERRLOG as it is; no step clears a bit. -/
def Obligations.ErrlogRecordsEveryError : Prop :=
  ∀ (s t : State) (r : Word), step s = .next t → t.rsp = s.rsp ++ [r] →
    ∀ k, k < 11 → (t.errlog.getLsbD k = true ↔ s.errlog.getLsbD k = true ∨ k ≠ 0 ∧ codeOf r = k)

/-- R197: `BadSequence` is the answer exactly when the table of R197 says the command is not permitted,
and then nothing changes but ERRLOG bit 6. -/
def Obligations.BadSequenceExactlyWhenOutOfOrder : Prop :=
  ∀ (i : Instr) (s : State), Inv s →
    (outOfOrder s i = true → exec i s = .next
      { s with errlog := s.errlog ||| 0x040#11, rsp := s.rsp ++ [0x30000000#32] }) ∧
    (outOfOrder s i = false → ∃ (t : State) (r : Word),
      exec i s = .next t ∧ t.rsp = s.rsp ++ [r] ∧ codeOf r ≠ 6)

/-- R198: LDCODE and RDNODE with an operand that denotes nothing are refused with `BadOperand`, unless
the lock comes first (R202). -/
def Obligations.IllFormedOperandsAreRefused : Prop :=
  ∀ (i : Instr) (s : State), Inv s → i.wellFormed = false →
    exec i s = .next (errored (if outOfOrder s i then 6 else 7) s)

/-- R221: the first command after reset, for every operand value. -/
def Obligations.FirstCommandAfterReset : Prop :=
  let s := State.reset
  exec .build s = .next (errored 1 s) ∧
  (∀ i, i = .gen ∨ (∃ x, i = .enc x) ∨ i = .encend ∨ (∃ d, i = .decbit d) ∨ i = .decend →
    exec i s = .next (errored 6 s)) ∧
  (∀ idx, exec (.rdnode idx) s = .next (errored 7 s)) ∧
  (∀ x, exec (.rdfreq x) s = .next (answered 0x00000000#32 s)) ∧
  (∀ x : Symbol, exec (.rdcode x) s = .next (answered (BitVec.ofNat 32 x.toNat) s)) ∧
  (∀ i, i = .rdstat ∨ i = .rdtot ∨ i = .rdtree ∨ i = .nop ∨ i = .ftclr ∨ i = .ctclr →
    exec i s = .next (answered 0x00000000#32 s)) ∧
  (∀ x, exec (.count x) s = .next
    { s with ft := [⟨x, 1⟩], total := 1, rsp := s.rsp ++ [0x00000000#32] }) ∧
  (∀ x len cbits, (Instr.ldcode x len cbits).wellFormed = true → exec (.ldcode x len cbits) s = .next
    { s with ct := [⟨x, len, cbits⟩], rsp := s.rsp ++ [0x00000000#32] }) ∧
  exec .encbeg s = .next { s with encOpen := true, rsp := s.rsp ++ [0x00000000#32] } ∧
  exec .decbeg s = .next { s with decOpen := true, rsp := s.rsp ++ [0x00000000#32] }

/-! ### Whole-machine rules -/

/-- R20: every element is written only by the commands named for it (the channels by their units): ERRLOG
only by a command that ends in an error, and ENC_OPEN by ENC only when it does. The host's reset gives
every element its reset value. -/
def Obligations.ElementsAreWrittenOnlyByTheirCommands : Prop :=
  (∀ (i : Instr) (s t : State), exec i s = .next t →
    (i ≠ .ftclr → (∀ x, i ≠ .count x) → t.ft = s.ft ∧ t.total = s.total) ∧
    (i ≠ .build → t.node = s.node ∧ t.root = s.root ∧ t.treeValid = s.treeValid) ∧
    (i ≠ .gen → i ≠ .ctclr → (∀ x len c, i ≠ .ldcode x len c) → t.ct = s.ct ∧ t.degen = s.degen) ∧
    (isEncoder i = false → t.encOpen = s.encOpen ∧ t.bitout = s.bitout) ∧
    (isDecoder i = false → t.acc = s.acc ∧ t.acclen = s.acclen ∧ t.ovr = s.ovr ∧ t.symout = s.symout) ∧
    (i ≠ .decbeg → i ≠ .decend → t.decOpen = s.decOpen) ∧
    (∀ r, t.rsp = s.rsp ++ [r] → codeOf r = 0 →
      t.errlog = s.errlog ∧ ((∃ x, i = .enc x) → t.encOpen = s.encOpen)) ∧
    t.cmd = s.cmd) ∧
  (∀ s : State, let t := hostReset s
    t.ft = [] ∧ t.total = 0 ∧ t.node = [] ∧ t.root = 0 ∧ t.treeValid = false ∧ t.ct = [] ∧
    t.degen = false ∧ t.encOpen = false ∧ t.decOpen = false ∧ t.acc = 0 ∧ t.acclen = 0 ∧
    t.ovr = false ∧ t.errlog = 0)

/-- R3: the commands of the encoder and of the decoder do not read FT, TOTAL or the tree: whatever
stands there, they do the same and leave it. -/
def Obligations.CodersReadNothingUpstream : Prop :=
  ∀ (i : Instr) (s u t : State), isEncoder i = true ∨ isDecoder i = true → exec i s = .next t →
    exec i (withUpstream u s) = .next (withUpstream u t)

/-- R34, R35: DEGEN and ERRLOG gate nothing. Whatever stands in them, every command but RDSTAT, which
reads them, does the same. -/
def Obligations.ErrlogAndDegenGateNothing : Prop :=
  ∀ (i : Instr) (s t : State) (log : ErrLog) (degen : Bool), i ≠ .rdstat → exec i s = .next t →
    ∃ u : State, exec i { s with errlog := log, degen := degen } = .next u ∧
      { u with errlog := t.errlog, degen := t.degen } = t

/-- R66, R175: a read-back command issued twice gives the same answer twice, and only RDNODE can fail. -/
def Obligations.ReadBacksAreIdempotent : Prop :=
  ∀ (i : Instr) (s t u : State) (r r' : Word),
    i ∈ [.rdstat, .rdtot, .rdtree] ∨ (∃ x, i = .rdfreq x ∨ i = .rdcode x) ∨
      (∃ idx, i = .rdnode idx ∧ idx.toNat < s.node.length) →
    exec i s = .next t → exec i t = .next u → t.rsp = s.rsp ++ [r] → u.rsp = t.rsp ++ [r'] →
    r' = r ∧ codeOf r = 0 ∧ { u with rsp := s.rsp } = s

/-! ### The assembler notation -/

/-- R91: a source command whose operands fit assembles to the word of the command, and one whose operand
does not fit is an error, not a truncation. Every command of the five formats, and `.word`. -/
def Obligations.AssemblerEncodesOrRejects : Prop :=
  (∀ p ∈ [(Asm.nop, Instr.nop), (.ftclr, .ftclr), (.build, .build), (.gen, .gen), (.ctclr, .ctclr),
      (.encbeg, .encbeg), (.encend, .encend), (.decbeg, .decbeg), (.decend, .decend), (.rdstat, .rdstat),
      (.rdtot, .rdtot), (.rdtree, .rdtree)],
    p.1.words = some [encode p.2]) ∧
  (∀ n : Nat, (Asm.count n).words = if n < 256 then some [encode (.count (BitVec.ofNat 8 n))] else none) ∧
  (∀ n : Nat, (Asm.enc n).words = if n < 256 then some [encode (.enc (BitVec.ofNat 8 n))] else none) ∧
  (∀ n : Nat, (Asm.rdfreq n).words = if n < 256 then some [encode (.rdfreq (BitVec.ofNat 8 n))] else none) ∧
  (∀ n : Nat, (Asm.rdcode n).words = if n < 256 then some [encode (.rdcode (BitVec.ofNat 8 n))] else none) ∧
  (∀ n : Nat, (Asm.rdnode n).words = if n < 32 then some [encode (.rdnode (BitVec.ofNat 5 n))] else none) ∧
  (∀ n : Nat, (Asm.decbit n).words = if n < 2 then some [encode (.decbit (n == 1))] else none) ∧
  (∀ x len c : Nat, (Asm.ldcode x len c).words =
    if x < 256 ∧ len < 16 ∧ c < 32768 then
      some [encode (.ldcode (BitVec.ofNat 8 x) (BitVec.ofNat 4 len) (BitVec.ofNat 15 c))]
    else none) ∧
  (∀ n : Nat, (Asm.word n).words = if n < 2 ^ 32 then some [BitVec.ofNat 32 n] else none)

/-- R92: the pseudo-commands expand to the commands the table of R92 names; a digit string loads the
code it spells. -/
def Obligations.PseudoCommandsExpand : Prop :=
  (∀ syms : List Symbol,
    (Asm.counts (syms.map BitVec.toNat)).words = some (syms.map fun x => encode (.count x)) ∧
    (Asm.encs (syms.map BitVec.toNat)).words = some (syms.map fun x => encode (.enc x)) ∧
    (Asm.encodeFrame (syms.map BitVec.toNat)).words =
      some ((encodeFrame (syms.map Instr.enc)).map encode) ∧
    (Asm.mktable (syms.map BitVec.toNat)).words =
      some ((Instr.ftclr :: tableProgram syms).map encode)) ∧
  (∀ ds : List Digit,
    (Asm.decbits ds).words = some ((ds.map Instr.decbit).map encode) ∧
    (Asm.decodeFrame ds).words = some ((decodeFrame (ds.map Instr.decbit)).map encode)) ∧
  (∀ (x : Symbol) (ds : List Digit), ds.length ≤ 15 →
    ∃ (len : CodeLen) (c : CodeBits), digitsOf len c = ds ∧ (ds ≠ [] → codeOperandOk len c = true) ∧
      (Asm.ldcodeDigits x.toNat ds).words = some [encode (.ldcode x len c)])
end

