-- ==== Sys2Proof/Laws/Build.lean ====
section
/-! SUPPORT. The merge of BUILD (41_tree_builder.md R110 to R112): what one `popMin` and one pass of the
loop do, and the invariant of the loop. -/

namespace Sys2Proof.Machine

open Sys2Proof

/-! ### `popMin` (R111) -/

theorem popMin_eq_none_iff {l : List LiveNode} : popMin l = none ↔ l = [] := by
  cases l with
  | nil => simp [popMin]
  | cons x xs =>
    simp only [popMin]
    split
    · simp
    · split <;> simp

theorem before_trans {x y z : LiveNode} (h1 : x.before y = true) (h2 : y.before z = true) :
    x.before z = true := by
  simp only [LiveNode.before, Bool.or_eq_true, Bool.and_eq_true, decide_eq_true_eq, beq_iff_eq] at *
  rcases h1 with h1 | ⟨e1, h1⟩ <;> rcases h2 with h2 | ⟨e2, h2⟩
  · left; omega
  · left; rw [← e2]; exact h1
  · left; rw [e1]; exact h2
  · right; exact ⟨e1.trans e2, by omega⟩

/-- Two live nodes with different indices are ordered one way or the other (R112). -/
theorem before_total {x y : LiveNode} (h : x.idx ≠ y.idx) (hn : y.before x = false) : x.before y = true := by
  simp only [LiveNode.before, Bool.or_eq_false_iff, Bool.and_eq_false_iff, decide_eq_false_iff_not,
    Bool.or_eq_true, Bool.and_eq_true, decide_eq_true_eq, beq_iff_eq, beq_eq_false_iff_ne] at *
  obtain ⟨h1, h2⟩ := hn
  by_cases he : x.freq = y.freq
  · right; refine ⟨he, ?_⟩
    rcases h2 with h2 | h2
    · exact absurd he.symm h2
    · omega
  · left
    have : x.freq.toNat ≠ y.freq.toNat := fun h' => he (BitVec.eq_of_toNat_eq h')
    omega

/-- `popMin` takes one element out and leaves the others. -/
theorem popMin_perm {l rest : List LiveNode} {m : LiveNode} (h : popMin l = some (m, rest)) :
    l.Perm (m :: rest) := by
  induction l generalizing m rest with
  | nil => simp [popMin] at h
  | cons x xs ih =>
    simp only [popMin] at h
    split at h
    · simp only [Option.some.injEq, Prod.mk.injEq] at h
      obtain ⟨rfl, rfl⟩ := h; exact .refl _
    · rename_i m' rest' hp
      split at h
      · simp only [Option.some.injEq, Prod.mk.injEq] at h
        obtain ⟨rfl, rfl⟩ := h
        exact ((ih hp).cons x).trans (.swap _ _ _)
      · simp only [Option.some.injEq, Prod.mk.injEq] at h
        obtain ⟨rfl, rfl⟩ := h; exact .refl _

/-- The element taken out stands before every other, where the indices differ (R111, R112). -/
theorem popMin_least {l rest : List LiveNode} {m : LiveNode} (h : popMin l = some (m, rest))
    (hd : (l.map LiveNode.idx).Nodup) : ∀ x ∈ rest, m.before x = true := by
  induction l generalizing m rest with
  | nil => simp [popMin] at h
  | cons y ys ih =>
    rw [List.map_cons, List.nodup_cons] at hd
    simp only [popMin] at h
    split at h
    · rename_i hp
      simp only [Option.some.injEq, Prod.mk.injEq] at h
      obtain ⟨rfl, rfl⟩ := h
      rw [popMin_eq_none_iff.mp hp]; simp
    · rename_i m' rest' hp
      have hm : m' ∈ ys := (popMin_perm hp).mem_iff.mpr (by simp)
      split at h
      · rename_i hb
        simp only [Option.some.injEq, Prod.mk.injEq] at h
        obtain ⟨rfl, rfl⟩ := h
        intro x hx
        rcases List.mem_cons.mp hx with rfl | hx
        · exact hb
        · exact ih hp hd.2 x hx
      · rename_i hb
        simp only [Option.some.injEq, Prod.mk.injEq] at h
        obtain ⟨rfl, rfl⟩ := h
        have hym : y.before m' = true := by
          refine before_total (fun e => hd.1 ?_) (by simpa using hb)
          rw [e]; exact List.mem_map_of_mem hm
        intro x hx
        rcases List.mem_cons.mp ((popMin_perm hp).mem_iff.mp hx) with rfl | hx
        · exact hym
        · exact before_trans hym (ih hp hd.2 x hx)

/-! ### The node table as it grows -/

theorem freqAt_append {node : List Node} {x : List Node} {i : Nat} (h : i < node.length) :
    freqAt (node ++ x) i = freqAt node i := by
  simp only [freqAt, List.getElem?_append_left h]

@[simp] theorem childIdxs_append (a b : List Node) : childIdxs (a ++ b) = childIdxs a ++ childIdxs b := by
  induction a with
  | nil => rfl
  | cons n ns ih => cases n <;> simp [childIdxs, ih]

@[simp] theorem leafSyms_append (a b : List Node) : leafSyms (a ++ b) = leafSyms a ++ leafSyms b := by
  induction a with
  | nil => rfl
  | cons n ns ih => cases n <;> simp [leafSyms, ih]

theorem isLeafAt_append {node x : List Node} {i : Nat} (h : i < node.length) :
    isLeafAt (node ++ x) i = isLeafAt node i := by
  simp only [isLeafAt, List.getElem?_append_left h]

theorem internalOkAt_append {node x : List Node} {i : Nat} (h : i < node.length)
    (hok : internalOkAt node i = true) : internalOkAt (node ++ x) i = true := by
  unfold internalOkAt at *
  rw [List.getElem?_append_left h]
  split at hok
  · exact hok
  · simp only [ne_eq, decide_not, Bool.and_eq_true, decide_eq_true_eq] at hok ⊢
    obtain ⟨⟨⟨h1, h2⟩, h3⟩, h4⟩ := hok
    rw [freqAt_append (by omega), freqAt_append (by omega)]
    exact ⟨⟨⟨h1, h2⟩, h3⟩, h4⟩
  · exact hok

theorem liveAt_append {node x : List Node} {k i : Nat} (h : k ≤ node.length) :
    LiveAt (node ++ x) k i ↔ LiveAt node k i := by
  rw [LiveAt, LiveAt, List.take_append_of_le_length h]

/-! ### The loop -/

/-- Node `k` joins the two least live nodes, the first removed as zero-branch (R110 to R112). -/
def MergedAt (node : List Node) (k : Nat) : Prop :=
  ∃ (a b : NodeIdx) (f : Count), node[k]? = some (.internal a b f) ∧
    f.toNat = freqAt node a.toNat + freqAt node b.toNat ∧
    LiveAt node k a.toNat ∧ LiveAt node k b.toNat ∧ NodeBefore node a.toNat b.toNat ∧
    ∀ i, LiveAt node k i → i ≠ a.toNat → i ≠ b.toNat → NodeBefore node b.toNat i

theorem mergedAt_append {node x : List Node} {k : Nat} (h : k < node.length) (hm : MergedAt node k) :
    MergedAt (node ++ x) k := by
  obtain ⟨a, b, f, h1, h2, h3, h4, h5, h6⟩ := hm
  have ha : a.toNat < node.length := lt_trans h3.1 h
  have hb : b.toNat < node.length := lt_trans h4.1 h
  refine ⟨a, b, f, by rw [List.getElem?_append_left h]; exact h1, ?_, ?_, ?_, ?_, ?_⟩
  · rw [freqAt_append ha, freqAt_append hb]; exact h2
  · exact (liveAt_append h.le).mpr h3
  · exact (liveAt_append h.le).mpr h4
  · rw [NodeBefore, freqAt_append ha, freqAt_append hb]; exact h5
  · intro i hi hia hib
    have hi' := (liveAt_append h.le).mp hi
    rw [NodeBefore, freqAt_append hb, freqAt_append (lt_trans hi'.1 h)]
    exact h6 i hi' hia hib

/-- What holds after `k` passes over the table `ft`. -/
structure MergeInv (ft : List FtEntry) (k : Nat) (m : MergeState) : Prop where
  size : m.node.length = ft.length + k
  live_size : m.live.length + k = ft.length
  seed : m.node.take ft.length = ft.map fun e => Node.leaf e.sym e.count
  live_nodup : (m.live.map LiveNode.idx).Nodup
  live_iff : ∀ i, i ∈ m.live.map LiveNode.idx ↔ i < m.node.length ∧ i ∉ childIdxs m.node
  live_freq : ∀ x ∈ m.live, x.freq.toNat = freqAt m.node x.idx
  live_sum : (m.live.map fun x => x.freq.toNat).sum = (ft.map fun e => e.count.toNat).sum
  child_nodup : (childIdxs m.node).Nodup
  child_lt : ∀ i ∈ childIdxs m.node, i < m.node.length
  internals : ∀ i, ft.length ≤ i → i < m.node.length → internalOkAt m.node i = true
  merged : ∀ i, ft.length ≤ i → i < m.node.length → MergedAt m.node i
  leaf_syms : leafSyms m.node = ft.map FtEntry.sym

theorem childIdxs_leaves (ft : List FtEntry) : childIdxs (ft.map fun e => Node.leaf e.sym e.count) = [] := by
  induction ft with
  | nil => rfl
  | cons e es ih => simpa [childIdxs] using ih

theorem leafSyms_leaves (ft : List FtEntry) :
    leafSyms (ft.map fun e => Node.leaf e.sym e.count) = ft.map FtEntry.sym := by
  induction ft with
  | nil => rfl
  | cons e es ih => simp [leafSyms, ih]

theorem seedMerge_inv (ft : List FtEntry) : MergeInv ft 0 (seedMerge ft) := by
  have hidx : (seedMerge ft).live.map LiveNode.idx = List.range ft.length := by
    simp only [seedMerge, List.map_map]
    have : (LiveNode.idx ∘ fun (x : FtEntry × Nat) => (⟨x.1.count, x.2⟩ : LiveNode)) = Prod.snd := rfl
    rw [this, List.zipIdx_map_snd]
    simp [List.range_eq_range']
  refine ⟨by simp [seedMerge], by simp [seedMerge], by simp [seedMerge], ?_, ?_, ?_, ?_, ?_, ?_, ?_, ?_, ?_⟩
  · rw [hidx]; exact List.nodup_range
  · intro i; rw [hidx]; simp [seedMerge, childIdxs_leaves]
  · intro x hx
    simp only [seedMerge, List.mem_map, Prod.exists] at hx
    obtain ⟨e, i, hei, rfl⟩ := hx
    obtain ⟨h1, h2, h3⟩ := List.mem_zipIdx hei
    simp only [seedMerge, freqAt, List.getElem?_map]
    simp only [Nat.sub_zero] at h3
    rw [List.getElem?_eq_getElem (by omega), ← h3]; rfl
  · simp only [seedMerge, List.map_map]
    have : ((fun x : LiveNode => x.freq.toNat) ∘ fun (x : FtEntry × Nat) => (⟨x.1.count, x.2⟩ : LiveNode)) =
      (fun e : FtEntry => e.count.toNat) ∘ Prod.fst := rfl
    rw [this, ← List.map_map, List.zipIdx_map_fst]
  · simp [seedMerge, childIdxs_leaves]
  · simp [seedMerge, childIdxs_leaves]
  · intro i h1 h2; simp [seedMerge] at h2; omega
  · intro i h1 h2; simp [seedMerge] at h2; omega
  · simp [seedMerge, leafSyms_leaves]

/-- One pass keeps the invariant, while two nodes are live and the table fits its 31 entries. -/
theorem mergeOnce_inv {ft : List FtEntry} {k : Nat} {m : MergeState} (h : MergeInv ft k m)
    (hk : k + 1 < ft.length) (hroom : ft.length ≤ 16)
    (hsum : (ft.map fun e => e.count.toNat).sum ≤ 65535) : MergeInv ft (k + 1) (mergeOnce m) := by
  have hls := h.live_size
  have hsz := h.size
  cases hp : popMin m.live with
  | none => rw [popMin_eq_none_iff.mp hp] at hls; simp at hls; omega
  | some ar =>
  obtain ⟨a, rest⟩ := ar
  have hperm := popMin_perm hp
  have hleast := popMin_least hp h.live_nodup
  have hnd' : (a.idx :: rest.map LiveNode.idx).Nodup := (hperm.map LiveNode.idx).nodup_iff.mp h.live_nodup
  cases hq : popMin rest with
  | none =>
    rw [popMin_eq_none_iff.mp hq] at hperm
    have := hperm.length_eq; simp at this; omega
  | some br =>
  obtain ⟨b, rest'⟩ := br
  have hperm' := popMin_perm hq
  have hleast' := popMin_least hq (List.nodup_cons.mp hnd').2
  have hall : m.live.Perm (a :: b :: rest') := hperm.trans (hperm'.cons a)
  have hndI : (a.idx :: b.idx :: rest'.map LiveNode.idx).Nodup :=
    (hall.map LiveNode.idx).nodup_iff.mp h.live_nodup
  have hsumL : a.freq.toNat + (b.freq.toNat + (rest'.map fun x => x.freq.toNat).sum) =
      (ft.map fun e => e.count.toNat).sum := by
    rw [← h.live_sum, (hall.map _).sum_eq]; simp
  have memI : ∀ i, (i = a.idx ∨ i = b.idx ∨ i ∈ rest'.map LiveNode.idx) ↔
      i < m.node.length ∧ i ∉ childIdxs m.node := by
    intro i; rw [← h.live_iff i, (hall.map LiveNode.idx).mem_iff]; simp
  have hna := (memI a.idx).mp (Or.inl rfl)
  have hnb := (memI b.idx).mp (Or.inr (Or.inl rfl))
  have ha5 : (BitVec.ofNat 5 a.idx).toNat = a.idx := by
    rw [BitVec.toNat_ofNat]; exact Nat.mod_eq_of_lt (by omega)
  have hb5 : (BitVec.ofNat 5 b.idx).toNat = b.idx := by
    rw [BitVec.toNat_ofNat]; exact Nat.mod_eq_of_lt (by omega)
  have hadd : (a.freq + b.freq).toNat = a.freq.toNat + b.freq.toNat := by
    rw [BitVec.toNat_add]; exact Nat.mod_eq_of_lt (by omega)
  have hfa := h.live_freq a (hall.mem_iff.mpr (by simp))
  have hfb := h.live_freq b (hall.mem_iff.mpr (by simp))
  have hab : a.idx ≠ b.idx := by
    intro e; rw [List.nodup_cons] at hndI; exact hndI.1 (by simp [e])
  set new : Node := .internal (BitVec.ofNat 5 a.idx) (BitVec.ofNat 5 b.idx) (a.freq + b.freq) with hnew
  have hm : mergeOnce m = ⟨m.node ++ [new], rest' ++ [⟨a.freq + b.freq, m.node.length⟩]⟩ := by
    simp [mergeOnce, hp, hq, hnew]
  have hcn : childIdxs (m.node ++ [new]) = childIdxs m.node ++ [a.idx, b.idx] := by
    simp [childIdxs, hnew, Nat.mod_eq_of_lt (show a.idx < 32 by omega), Nat.mod_eq_of_lt (show b.idx < 32 by omega)]
  have hget : (m.node ++ [new])[m.node.length]? = some new := by simp
  have hbefore : ∀ x y : LiveNode, x.before y = true → x ∈ m.live → y ∈ m.live →
      NodeBefore m.node x.idx y.idx := by
    intro x y hxy hx hy
    simp only [LiveNode.before, Bool.or_eq_true, Bool.and_eq_true, decide_eq_true_eq, beq_iff_eq] at hxy
    rw [NodeBefore, ← h.live_freq x hx, ← h.live_freq y hy]
    rcases hxy with hxy | ⟨e, hxy⟩
    · exact .inl hxy
    · exact .inr ⟨by rw [e], hxy⟩
  have hb_before_a : NodeBefore m.node a.idx b.idx :=
    hbefore a b (hleast b (hperm'.mem_iff.mpr (by simp))) (hall.mem_iff.mpr (by simp)) (hall.mem_iff.mpr (by simp))
  rw [hm]
  refine ⟨by simp [hsz]; omega, ?_, ?_, ?_, ?_, ?_, ?_, ?_, ?_, ?_, ?_, ?_⟩
  · have := hall.length_eq; simp at this ⊢; omega
  · rw [List.take_append_of_le_length (by omega)]; exact h.seed
  · show ((rest' ++ [_]).map LiveNode.idx).Nodup
    rw [List.map_append, List.nodup_append]
    refine ⟨(List.nodup_cons.mp (List.nodup_cons.mp hndI).2).2, by simp, ?_⟩
    rintro x hx y hy rfl
    have := ((memI x).mp (.inr (.inr hx))).1
    simp at hy; omega
  · intro i
    show i ∈ (rest' ++ [_]).map LiveNode.idx ↔ i < (m.node ++ [new]).length ∧ i ∉ childIdxs (m.node ++ [new])
    rw [hcn]
    simp only [List.map_append, List.mem_append, List.map_cons, List.map_nil, List.length_append,
      List.length_singleton, List.mem_cons, List.not_mem_nil, or_false, not_or]
    constructor
    · rintro (hi | rfl)
      · have := (memI i).mp (.inr (.inr hi))
        refine ⟨by omega, this.2, ?_, ?_⟩
        · rintro rfl; rw [List.nodup_cons] at hndI; exact hndI.1 (List.mem_cons_of_mem _ hi)
        · rintro rfl; exact (List.nodup_cons.mp (List.nodup_cons.mp hndI).2).1 hi
      · refine ⟨by omega, fun hc => ?_, by omega, by omega⟩
        exact absurd (h.child_lt _ hc) (lt_irrefl _)
    · rintro ⟨h1, h2, h3, h4⟩
      by_cases hi : i = m.node.length
      · exact .inr hi
      · left
        rcases (memI i).mpr ⟨by omega, h2⟩ with h | h | h
        · exact absurd h h3
        · exact absurd h h4
        · exact h
  · intro x hx
    rcases List.mem_append.mp hx with hx | hx
    · have hi := (memI x.idx).mp (.inr (.inr (List.mem_map_of_mem hx)))
      show x.freq.toNat = freqAt (m.node ++ [new]) x.idx
      rw [freqAt_append hi.1]
      exact h.live_freq x (hall.mem_iff.mpr (by simp [hx]))
    · obtain rfl := List.mem_singleton.mp hx
      simp [freqAt, hnew]
  · show ((rest' ++ [_]).map fun x : LiveNode => x.freq.toNat).sum = _
    rw [List.map_append, List.sum_append]
    simp only [List.map_cons, List.map_nil, List.sum_cons, List.sum_nil, hadd]
    omega
  · show (childIdxs (m.node ++ [new])).Nodup
    rw [hcn, List.nodup_append]
    refine ⟨h.child_nodup, by simpa using hab, ?_⟩
    rintro x hx y hy rfl
    simp only [List.mem_cons, List.not_mem_nil, or_false] at hy
    rcases hy with rfl | rfl
    · exact hna.2 hx
    · exact hnb.2 hx
  · intro i hi
    show i < (m.node ++ [new]).length
    have hi' : i ∈ childIdxs (m.node ++ [new]) := hi
    rw [hcn] at hi'
    simp only [List.mem_append, List.mem_cons, List.not_mem_nil, or_false] at hi'
    simp only [List.length_append, List.length_singleton]
    rcases hi' with hi' | rfl | rfl
    · have := h.child_lt i hi'; omega
    · omega
    · omega
  · intro i h1 h2
    show internalOkAt (m.node ++ [new]) i = true
    have h2' : i < (m.node ++ [new]).length := h2
    simp only [List.length_append, List.length_singleton] at h2'
    by_cases hi : i < m.node.length
    · exact internalOkAt_append hi (h.internals i h1 hi)
    · obtain rfl : i = m.node.length := by omega
      rw [internalOkAt, hget, hnew]
      simp only [ne_eq, decide_not, Bool.and_eq_true, decide_eq_true_eq, Bool.not_eq_true',
        decide_eq_false_iff_not, ha5, hb5, hadd]
      refine ⟨⟨⟨fun e => hab ?_, hna.1⟩, hnb.1⟩, ?_⟩
      · rw [← ha5, ← hb5, e]
      · rw [← hnew, freqAt_append hna.1, freqAt_append hnb.1, hfa, hfb]
  · intro i h1 h2
    show MergedAt (m.node ++ [new]) i
    have h2' : i < (m.node ++ [new]).length := h2
    simp only [List.length_append, List.length_singleton] at h2'
    by_cases hi : i < m.node.length
    · exact mergedAt_append hi (h.merged i h1 hi)
    · obtain rfl : i = m.node.length := by omega
      have live : ∀ j, LiveAt (m.node ++ [new]) m.node.length j ↔
          j < m.node.length ∧ j ∉ childIdxs m.node := by
        intro j; rw [liveAt_append le_rfl, LiveAt, List.take_length]
      refine ⟨_, _, _, hget, ?_, ?_, ?_, ?_, ?_⟩
      · rw [ha5, hb5, hadd, freqAt_append hna.1, freqAt_append hnb.1, hfa, hfb]
      · rw [ha5]; exact (live _).mpr hna
      · rw [hb5]; exact (live _).mpr hnb
      · rw [ha5, hb5, NodeBefore, freqAt_append hna.1, freqAt_append hnb.1]; exact hb_before_a
      · rw [ha5, hb5]
        intro j hj hja hjb
        have hj' := (live j).mp hj
        rcases (memI j).mpr hj' with e | e | e
        · exact absurd e hja
        · exact absurd e hjb
        · obtain ⟨x, hx, rfl⟩ := List.mem_map.mp e
          rw [NodeBefore, freqAt_append hnb.1, freqAt_append hj'.1]
          exact hbefore b x (hleast' x hx) (hall.mem_iff.mpr (by simp)) (hall.mem_iff.mpr (by simp [hx]))
  · show leafSyms (m.node ++ [new]) = _
    rw [leafSyms_append, h.leaf_syms]; simp [leafSyms, hnew]

theorem mergeLoop_inv {ft : List FtEntry} (hroom : ft.length ≤ 16)
    (hsum : (ft.map fun e => e.count.toNat).sum ≤ 65535) (j k : Nat) {m : MergeState}
    (h : MergeInv ft k m) (hk : k + j < ft.length) : MergeInv ft (k + j) (mergeLoop j m) := by
  induction j generalizing k m with
  | zero => exact h
  | succ j ih =>
    have := ih (k + 1) (mergeOnce_inv h (by omega) hroom hsum) (by omega)
    rw [show k + (j + 1) = k + 1 + j by omega]
    exact this

/-- BUILD of a table with n entries leaves the loop after n - 1 passes with one live node, the root. -/
theorem buildTree_spec {ft : List FtEntry} (hne : ft ≠ []) (hroom : ft.length ≤ 16)
    (hsum : (ft.map fun e => e.count.toNat).sum ≤ 65535) :
    ∃ m : MergeState, MergeInv ft (ft.length - 1) m ∧ (buildTree ft).1 = m.node ∧
      ∃ r, m.live = [r] ∧ (buildTree ft).2 = BitVec.ofNat 5 r.idx := by
  have hpos : 0 < ft.length := List.length_pos_iff.mpr hne
  have h := mergeLoop_inv hroom hsum (ft.length - 1) 0 (seedMerge_inv ft) (by omega)
  rw [Nat.zero_add] at h
  refine ⟨_, h, rfl, ?_⟩
  have hl := h.live_size
  obtain ⟨r, hr⟩ := List.length_eq_one_iff.mp
    (show (mergeLoop (ft.length - 1) (seedMerge ft)).live.length = 1 by omega)
  exact ⟨r, hr, by simp [buildTree, hr]⟩

/-! ### What the loop leaves -/

theorem mem_childIdxs_iff {node : List Node} {i : Nat} :
    i ∈ childIdxs node ↔
      ∃ (p : Nat) (c0 c1 : NodeIdx) (f : Count),
        node[p]? = some (.internal c0 c1 f) ∧ (i = c0.toNat ∨ i = c1.toNat) := by
  induction node with
  | nil => simp [childIdxs]
  | cons x xs ih =>
    have shift : (∃ (p : Nat) (c0 c1 : NodeIdx) (f : Count),
        xs[p]? = some (.internal c0 c1 f) ∧ (i = c0.toNat ∨ i = c1.toNat)) →
        ∃ (p : Nat) (c0 c1 : NodeIdx) (f : Count),
          (x :: xs)[p]? = some (.internal c0 c1 f) ∧ (i = c0.toNat ∨ i = c1.toNat) :=
      fun ⟨p, c0, c1, f, h⟩ => ⟨p + 1, c0, c1, f, by simpa using h⟩
    cases x with
    | leaf s f =>
      rw [childIdxs, ih]
      refine ⟨shift, ?_⟩
      rintro ⟨p, c0, c1, g, h1, h2⟩
      cases p with
      | zero => simp at h1
      | succ p => exact ⟨p, c0, c1, g, by simpa using h1, h2⟩
    | internal a b f =>
      rw [childIdxs, List.mem_cons, List.mem_cons, ih]
      constructor
      · rintro (h | h | h)
        · exact ⟨0, a, b, f, by simp, .inl h⟩
        · exact ⟨0, a, b, f, by simp, .inr h⟩
        · exact shift h
      · rintro ⟨p, c0, c1, g, h1, h2⟩
        cases p with
        | zero =>
          simp only [List.getElem?_cons_zero, Option.some.injEq, Node.internal.injEq] at h1
          obtain ⟨rfl, rfl, rfl⟩ := h1
          rcases h2 with h2 | h2
          · exact .inl h2
          · exact .inr (.inl h2)
        | succ p => exact .inr (.inr ⟨p, c0, c1, g, by simpa using h1, h2⟩)

/-- The first n nodes are the Leaves of the table. -/
theorem MergeInv.getElem_leaf {ft : List FtEntry} {k : Nat} {m : MergeState} (h : MergeInv ft k m) {i : Nat}
    (hi : i < ft.length) : m.node[i]? = some (.leaf ft[i].sym ft[i].count) := by
  have := congrArg (fun l : List Node => l[i]?) h.seed
  simpa [List.getElem?_take, hi] using this

/-- Every child lies below the node that owns it, so the last node is nobody's child (R26 (a)). -/
theorem MergeInv.child_lt_last {ft : List FtEntry} {k : Nat} {m : MergeState} (h : MergeInv ft k m) {i : Nat}
    (hi : i ∈ childIdxs m.node) : i + 1 < m.node.length := by
  obtain ⟨p, c0, c1, f, h1, h2⟩ := mem_childIdxs_iff.mp hi
  have hp : p < m.node.length := (List.getElem?_eq_some_iff.mp h1).1
  have hn : ft.length ≤ p := by
    by_contra hlt
    rw [h.getElem_leaf (by omega)] at h1
    simp at h1
  have := h.internals p hn hp
  simp only [internalOkAt, h1, ne_eq, decide_not, Bool.and_eq_true, decide_eq_true_eq] at this
  omega

/-- The one live node left after n - 1 passes is the last node (R25). -/
theorem MergeInv.root_is_last {ft : List FtEntry} {m : MergeState} (h : MergeInv ft (ft.length - 1) m)
    (hne : ft ≠ []) {r : LiveNode} (hr : m.live = [r]) : r.idx = 2 * ft.length - 2 := by
  have hpos : 0 < ft.length := List.length_pos_iff.mpr hne
  have hsz := h.size
  have hl := (h.live_iff (m.node.length - 1)).mpr
    ⟨by omega, fun hc => by have := h.child_lt_last hc; omega⟩
  rw [hr] at hl
  simp only [List.map_cons, List.map_nil, List.mem_singleton] at hl
  omega

/-- The Leaves' frequencies sum to the counts of the table (R26 (c)). -/
theorem MergeInv.leaf_sum {ft : List FtEntry} {k : Nat} {m : MergeState} (h : MergeInv ft k m) :
    ((List.range ft.length).map (freqAt m.node)).sum = (ft.map fun e => e.count.toNat).sum := by
  congr 1
  apply List.ext_getElem
  · simp
  · intro i h1 h2
    have hi : i < ft.length := by simpa using h2
    simp [freqAt, h.getElem_leaf hi]

end Sys2Proof.Machine
end

