-- ==== Sys2Proof/Laws/Decode.lean ====
section
/-! SUPPORT. The fields and words of the encodings as numbers, and each format's decoder on its own
words. Decoding lemmas are arithmetic on `toNat` from here on. -/

namespace Sys2Proof

theorem toNat_append_eq {v w : Nat} (x : BitVec v) (y : BitVec w) :
    (x ++ y).toNat = x.toNat * 2 ^ w + y.toNat := by
  rw [BitVec.toNat_append, ← Nat.shiftLeft_add_eq_or_of_lt y.isLt, Nat.shiftLeft_eq]

/-! ### Words -/

theorem wordZ_toNat (op : BitVec 5) : (wordZ op).toNat = op.toNat * 2 ^ 27 := by
  show (op ++ 0#27 : BitVec (5 + 27)).toNat = _
  simp only [toNat_append_eq, BitVec.toNat_ofNat]; omega

theorem wordS_toNat (op : BitVec 5) (x : Symbol) :
    (wordS op x).toNat = op.toNat * 2 ^ 27 + x.toNat := by
  show (op ++ 0#19 ++ x : BitVec (5 + 19 + 8)).toNat = _
  simp only [toNat_append_eq, BitVec.toNat_ofNat]; omega

theorem wordB_toNat (op : BitVec 5) (d : Digit) :
    (wordB op d).toNat = op.toNat * 2 ^ 27 + d.toNat := by
  show (op ++ 0#26 ++ BitVec.ofBool d : BitVec (5 + 26 + 1)).toNat = _
  simp only [toNat_append_eq, BitVec.toNat_ofNat, BitVec.toNat_ofBool]; omega

theorem wordN_toNat (op : BitVec 5) (i : NodeIdx) :
    (wordN op i).toNat = op.toNat * 2 ^ 27 + i.toNat := by
  show (op ++ 0#22 ++ i : BitVec (5 + 22 + 5)).toNat = _
  simp only [toNat_append_eq, BitVec.toNat_ofNat]; omega

theorem wordC_toNat (op : BitVec 5) (x : Symbol) (len : CodeLen) (c : CodeBits) :
    (wordC op x len c).toNat = op.toNat * 2 ^ 27 + c.toNat * 2 ^ 12 + len.toNat * 2 ^ 8 + x.toNat := by
  show (op ++ c ++ len ++ x : BitVec (5 + 15 + 4 + 8)).toNat = _
  simp only [toNat_append_eq]; omega

/-! ### Fields -/

theorem extractLsb'_toNat_eq (w : Word) (lo n : Nat) :
    (w.extractLsb' lo n).toNat = w.toNat / 2 ^ lo % 2 ^ n := by
  rw [BitVec.extractLsb'_toNat, Nat.shiftRight_eq_div_pow]

theorem opField_toNat (w : Word) : (opField w).toNat = w.toNat / 2 ^ 27 := by
  rw [opField, extractLsb'_toNat_eq]; have := w.isLt; omega

theorem symField_toNat (w : Word) : (symField w).toNat = w.toNat % 2 ^ 8 := by
  rw [symField, extractLsb'_toNat_eq]; omega

theorem idxField_toNat (w : Word) : (idxField w).toNat = w.toNat % 2 ^ 5 := by
  rw [idxField, extractLsb'_toNat_eq]; omega

theorem clenField_toNat (w : Word) : (clenField w).toNat = w.toNat / 2 ^ 8 % 2 ^ 4 := by
  rw [clenField, extractLsb'_toNat_eq]

theorem cbitsField_toNat (w : Word) : (cbitsField w).toNat = w.toNat / 2 ^ 12 % 2 ^ 15 := by
  rw [cbitsField, extractLsb'_toNat_eq]

theorem digField_toNat (w : Word) : (digField w).toNat = w.toNat % 2 := by
  rw [digField, BitVec.getLsbD, Nat.testBit_zero]
  rcases Nat.mod_two_eq_zero_or_one w.toNat with h | h <;> simp [h]

theorem extractLsb'_eq_zero_iff (w : Word) (lo n : Nat) :
    w.extractLsb' lo n = 0#n ↔ w.toNat / 2 ^ lo % 2 ^ n = 0 := by
  rw [← BitVec.toNat_inj, extractLsb'_toNat_eq]; simp

/-- A reserved-zero field decides between the command and the rejection (R85). -/
theorem requireZero_eq_ok_iff {lo n : Nat} {w : Word} {i j : Instr} :
    requireZero lo n w i = .ok j ↔ w.toNat / 2 ^ lo % 2 ^ n = 0 ∧ i = j := by
  unfold requireZero
  rw [← extractLsb'_eq_zero_iff w lo n]
  split <;> simp_all

theorem requireZero_of_zero {lo n : Nat} {w : Word} (i : Instr) (h : w.toNat / 2 ^ lo % 2 ^ n = 0) :
    requireZero lo n w i = .ok i := requireZero_eq_ok_iff.mpr ⟨h, rfl⟩

theorem requireZero_of_ne {lo n : Nat} {w : Word} (i : Instr) (h : w.toNat / 2 ^ lo % 2 ^ n ≠ 0) :
    requireZero lo n w i = .error .reservedBits :=
  if_neg fun h' => h ((extractLsb'_eq_zero_iff w lo n).mp h')

/-! ### Each format on its own words -/

theorem opField_wordZ (op : BitVec 5) : opField (wordZ op) = op := by
  apply BitVec.eq_of_toNat_eq; rw [opField_toNat, wordZ_toNat]; omega

theorem opField_wordS (op : BitVec 5) (x : Symbol) : opField (wordS op x) = op := by
  apply BitVec.eq_of_toNat_eq; rw [opField_toNat, wordS_toNat]; omega

theorem opField_wordB (op : BitVec 5) (d : Digit) : opField (wordB op d) = op := by
  apply BitVec.eq_of_toNat_eq; rw [opField_toNat, wordB_toNat]; have := d.toNat_lt; omega

theorem opField_wordN (op : BitVec 5) (i : NodeIdx) : opField (wordN op i) = op := by
  apply BitVec.eq_of_toNat_eq; rw [opField_toNat, wordN_toNat]; omega

theorem opField_wordC (op : BitVec 5) (x : Symbol) (len : CodeLen) (c : CodeBits) :
    opField (wordC op x len c) = op := by
  apply BitVec.eq_of_toNat_eq; rw [opField_toNat, wordC_toNat]; omega

theorem formatZ_wordZ (op : BitVec 5) (i : Instr) : formatZ (wordZ op) i = .ok i :=
  requireZero_of_zero _ (by rw [wordZ_toNat]; omega)

theorem formatS_wordS (op : BitVec 5) (x : Symbol) (f : Symbol → Instr) :
    formatS (wordS op x) f = .ok (f x) := by
  have h : symField (wordS op x) = x := by
    apply BitVec.eq_of_toNat_eq; rw [symField_toNat, wordS_toNat]; omega
  rw [formatS, h]
  exact requireZero_of_zero _ (by rw [wordS_toNat]; omega)

theorem formatB_wordB (op : BitVec 5) (d : Digit) (f : Digit → Instr) :
    formatB (wordB op d) f = .ok (f d) := by
  have h : digField (wordB op d) = d := by
    have hd := d.toNat_lt
    have e : (digField (wordB op d)).toNat = d.toNat := by rw [digField_toNat, wordB_toNat]; omega
    cases hb : digField (wordB op d) <;> cases d <;> simp_all
  rw [formatB, h]
  exact requireZero_of_zero _ (by rw [wordB_toNat]; have := d.toNat_lt; omega)

theorem formatN_wordN (op : BitVec 5) (i : NodeIdx) (f : NodeIdx → Instr) :
    formatN (wordN op i) f = .ok (f i) := by
  have h : idxField (wordN op i) = i := by
    apply BitVec.eq_of_toNat_eq; rw [idxField_toNat, wordN_toNat]; omega
  rw [formatN, h]
  exact requireZero_of_zero _ (by rw [wordN_toNat]; omega)

theorem formatC_wordC (op : BitVec 5) (x : Symbol) (len : CodeLen) (c : CodeBits)
    (f : Symbol → CodeLen → CodeBits → Instr) : formatC (wordC op x len c) f = .ok (f x len c) := by
  have h1 : symField (wordC op x len c) = x := by
    apply BitVec.eq_of_toNat_eq; rw [symField_toNat, wordC_toNat]; omega
  have h2 : clenField (wordC op x len c) = len := by
    apply BitVec.eq_of_toNat_eq; rw [clenField_toNat, wordC_toNat]; omega
  have h3 : cbitsField (wordC op x len c) = c := by
    apply BitVec.eq_of_toNat_eq; rw [cbitsField_toNat, wordC_toNat]; omega
  rw [formatC, h1, h2, h3]

/-! ### Masks of the opcode table (R83) -/

/-- Keeping the bits at and above `n` is dropping the remainder mod `2 ^ n`. -/
theorem and_high_mask (w m : Word) (n : Nat) (hm : m.toNat = 2 ^ 32 - 2 ^ n) (hn : n ≤ 32) :
    (w &&& m).toNat = w.toNat / 2 ^ n * 2 ^ n := by
  have hw := w.isLt
  rw [BitVec.toNat_and, hm]
  apply Nat.eq_of_testBit_eq
  intro i
  have e : 2 ^ 32 - 2 ^ n = (2 ^ (32 - n) - 1) * 2 ^ n := by
    rw [Nat.sub_mul, one_mul, ← pow_add, Nat.sub_add_cancel hn]
  rw [Nat.testBit_and, e, ← Nat.shiftRight_eq_div_pow, ← Nat.shiftLeft_eq, ← Nat.shiftLeft_eq,
    Nat.testBit_shiftLeft, Nat.testBit_shiftLeft, Nat.testBit_two_pow_sub_one, Nat.testBit_shiftRight]
  by_cases h : n ≤ i
  · rw [Nat.add_sub_cancel' h]
    by_cases h2 : i < 32
    · simp [h]; omega
    · simp [h, Nat.testBit_lt_two_pow (lt_of_lt_of_le hw (Nat.pow_le_pow_right (by decide) (not_lt.mp h2)))]
  · simp [h]

/-- A row of the table fixes the bits from `n` up. -/
theorem and_high_mask_eq_iff (w m p : Word) (n : Nat) (hm : m.toNat = 2 ^ 32 - 2 ^ n) (hn : n ≤ 32)
    (hp : p.toNat / 2 ^ n * 2 ^ n = p.toNat) :
    w &&& m = p ↔ w.toNat / 2 ^ n = p.toNat / 2 ^ n := by
  rw [← BitVec.toNat_inj, and_high_mask w m n hm hn]
  conv_lhs => rw [← hp]
  exact Nat.mul_left_inj (by positivity)

end Sys2Proof
end

