-- ==== Sys2Proof/Laws/Digits.lean ====
section
/-! SUPPORT. Digit sequences and their packed form (20_memory.md R63): one law for each operation on
packed codes, and the look-ups in terms of digit sequences. -/

namespace Sys2Proof.Machine

open Sys2Proof

/-! ### Packed fields bit by bit -/

theorem shiftRight_eq_zero_iff (b : CodeBits) (n : Nat) :
    b >>> n = 0 ↔ ∀ j, n ≤ j → b.getLsbD j = false := by
  constructor
  · intro h j hj
    have := congrArg (fun v : CodeBits => v.getLsbD (j - n)) h
    simpa [Nat.add_sub_cancel' hj] using this
  · intro h
    apply BitVec.eq_of_getLsbD_eq
    intro i _
    simp [h (n + i) (Nat.le_add_right n i)]

theorem getLsbD_ofBool_setWidth (d : Digit) (j : Nat) :
    ((BitVec.ofBool d).setWidth 15).getLsbD j = (decide (j = 0) && d) := by
  cases d <;> cases j <;> simp

theorem getLsbD_setDigit (b : CodeBits) (i : CodeLen) (d : Digit) (j : Nat) (hj : j < 15) :
    (setDigit b i d).getLsbD j = if j = i.toNat then d else b.getLsbD j := by
  have hw : j < 15 := hj
  by_cases h : j = i.toNat
  · subst h
    simp [setDigit, hj]
  · by_cases h2 : j < i.toNat
    · simp [setDigit, hj, h, h2]
    · have : j - i.toNat ≠ 0 := by omega
      simp [setDigit, hj, h, h2, this]

theorem getLsbD_pack (ds : List Digit) (j : Nat) (hj : j < 15) :
    (pack ds).getLsbD j = (ds[j]?).getD false := by
  induction ds generalizing j with
  | nil => simp [pack]
  | cons d ds ih =>
    cases j with
    | zero => simp [pack]
    | succ j =>
      simp only [pack, BitVec.getLsbD_or, getLsbD_ofBool_setWidth, BitVec.getLsbD_shiftLeft]
      simp [hj, ih j (by omega)]

/-! ### `digitsOf` -/

theorem codeOperandOk_iff (len : CodeLen) (b : CodeBits) :
    codeOperandOk len b = true ↔ len ≠ 0 ∧ b >>> len.toNat = 0 := by
  simp [codeOperandOk]

@[simp] theorem length_digitsOf (len : CodeLen) (b : CodeBits) : (digitsOf len b).length = len.toNat := by
  simp [digitsOf]

theorem getElem_digitsOf (len : CodeLen) (b : CodeBits) (j : Nat) (h : j < (digitsOf len b).length) :
    (digitsOf len b)[j] = b.getLsbD j := by simp [digitsOf]

theorem digitsOf_zero (b : CodeBits) : digitsOf 0 b = [] := by simp [digitsOf]

theorem digitsOf_eq_nil_iff (len : CodeLen) (b : CodeBits) : digitsOf len b = [] ↔ len = 0 := by
  rw [← List.length_eq_zero_iff, length_digitsOf]
  exact ⟨fun h => BitVec.eq_of_toNat_eq (by simpa using h), fun h => by simp [h]⟩

/-- A packed code with no stray bit is determined by its digits (R127 (b)). -/
theorem digitsOf_inj {len len' : CodeLen} {b b' : CodeBits} (h : b >>> len.toNat = 0)
    (h' : b' >>> len'.toNat = 0) (e : digitsOf len b = digitsOf len' b') : len = len' ∧ b = b' := by
  have hl : len.toNat = len'.toNat := by simpa using congrArg List.length e
  refine ⟨BitVec.eq_of_toNat_eq hl, ?_⟩
  rw [shiftRight_eq_zero_iff] at h h'
  apply BitVec.eq_of_getLsbD_eq
  intro j _
  by_cases hj : j < len.toNat
  · rw [← getElem_digitsOf len b j (by simpa using hj), ← getElem_digitsOf len' b' j (by simpa [← hl] using hj)]
    simp only [e]
  · rw [h j (by omega), h' j (by omega)]

/-- Writing a digit at position ACCLEN appends it (R151). -/
theorem digitsOf_setDigit (len : CodeLen) (b : CodeBits) (d : Digit) (h : len.toNat ≠ 15) :
    digitsOf (len + 1) (setDigit b len d) = digitsOf len b ++ [d] := by
  have hl : (len + 1).toNat = len.toNat + 1 := by
    have := len.isLt; rw [BitVec.toNat_add]; simp; omega
  apply List.ext_getElem
  · rw [length_digitsOf, hl, List.length_append, length_digitsOf]; rfl
  · intro j h1 h2
    have hj : j < len.toNat + 1 := by rw [length_digitsOf, hl] at h1; exact h1
    have := len.isLt
    rw [getElem_digitsOf, getLsbD_setDigit _ _ _ _ (by omega)]
    by_cases hj' : j = len.toNat
    · subst hj'; simp
    · rw [if_neg hj', List.getElem_append_left (by simp; omega), getElem_digitsOf]

theorem setDigit_high_zero (len : CodeLen) (b : CodeBits) (d : Digit) (hl : len.toNat ≠ 15)
    (h : b >>> len.toNat = 0) : setDigit b len d >>> (len + 1).toNat = 0 := by
  have e : (len + 1).toNat = len.toNat + 1 := by
    have := len.isLt; rw [BitVec.toNat_add]; simp; omega
  rw [shiftRight_eq_zero_iff] at h ⊢
  intro j hj
  by_cases hj' : j < 15
  · rw [getLsbD_setDigit _ _ _ _ hj', if_neg (by omega), h j (by omega)]
  · exact BitVec.getLsbD_of_ge _ _ (by omega)

/-- The digits of a packed sequence of at most 15 digits are the sequence (R63). -/
theorem digitsOf_pack (ds : List Digit) (h : ds.length ≤ 15) :
    digitsOf (BitVec.ofNat 4 ds.length) (pack ds) = ds := by
  have e : (BitVec.ofNat 4 ds.length).toNat = ds.length := by simp; omega
  apply List.ext_getElem
  · simp [e]
  · intro j h1 h2
    rw [getElem_digitsOf, getLsbD_pack _ _ (by omega)]
    simp [h2]

theorem pack_high_zero (ds : List Digit) : pack ds >>> ds.length = 0 := by
  rw [shiftRight_eq_zero_iff]
  intro j hj
  by_cases h : j < 15
  · rw [getLsbD_pack _ _ h]; simp [hj]
  · exact BitVec.getLsbD_of_ge _ _ (by omega)

/-- The entry made for a code holds that code (R120). -/
theorem code_ofCode (sym : Symbol) (c : List Digit) (h : c.length ≤ 15) :
    (CtEntry.ofCode sym c).code = c := digitsOf_pack c h

theorem ofCode_ok (sym : Symbol) (c : List Digit) (h1 : c ≠ []) (h : c.length ≤ 15) :
    codeOperandOk (CtEntry.ofCode sym c).len (CtEntry.ofCode sym c).bits = true := by
  have e : (BitVec.ofNat 4 c.length).toNat = c.length := by simp; omega
  have hz : BitVec.ofNat 4 c.length ≠ 0#4 := by
    intro h0
    have := congrArg BitVec.toNat h0
    rw [e] at this
    exact h1 (List.length_eq_zero_iff.mp (by simpa using this))
  rw [codeOperandOk_iff]
  exact ⟨hz, by show pack c >>> (BitVec.ofNat 4 c.length).toNat = 0; rw [e]; exact pack_high_zero c⟩

/-! ### Codes of a table -/

theorem CtInv.code_ne_nil {ct : List CtEntry} (h : CtInv ct) {e : CtEntry} (he : e ∈ ct) : e.code ≠ [] := by
  rw [CtEntry.code, ne_eq, digitsOf_eq_nil_iff]
  exact ((codeOperandOk_iff _ _).mp (h.well_formed e he)).1

theorem length_code_le (e : CtEntry) : e.code.length ≤ 15 := by
  rw [CtEntry.code, length_digitsOf]; have := e.len.isLt; omega

/-- Two entries of a table with comparable codes are the same entry (R29 (c)). -/
theorem CtInv.eq_of_prefix {ct : List CtEntry} (h : CtInv ct) {a b : CtEntry} (ha : a ∈ ct) (hb : b ∈ ct)
    (hp : a.code <+: b.code) : a = b := by
  have hpf := List.pairwise_iff_getElem.mp h.prefix_free
  obtain ⟨i, hi, rfl⟩ := List.getElem_of_mem ha
  obtain ⟨j, hj, rfl⟩ := List.getElem_of_mem hb
  rcases lt_trichotomy i j with hij | hij | hij
  · exact absurd hp (hpf i j hi hj hij).1
  · subst hij; rfl
  · exact absurd hp (hpf j i hj hi hij).2

/-- With no stray bits, equality of (length, bits) pairs is equality of codes (R72). -/
theorem CtInv.dtFind_eq {ct : List CtEntry} (h : CtInv ct) (len : CodeLen) (b : CodeBits)
    (hb : b >>> len.toNat = 0) : dtFind ct len b = ct.find? fun e => e.code == digitsOf len b := by
  unfold dtFind
  apply List.find?_congr
  intro e he
  rw [Bool.eq_iff_iff]
  simp only [Bool.and_eq_true, beq_iff_eq]
  constructor
  · rintro ⟨rfl, rfl⟩; rfl
  · exact digitsOf_inj ((codeOperandOk_iff _ _).mp (h.well_formed e he)).2 hb

end Sys2Proof.Machine
end

