-- ==== Sys2Proof/Laws/Lookup.lean ====
section
/-! SUPPORT. The associative look-ups (20_memory.md R72) and the tally of COUNT: one law for each way a
look-up can end. -/

namespace Sys2Proof.Machine

open Sys2Proof

/-! ### FT -/

theorem ftFind_eq_none_iff {ft : List FtEntry} {x : Symbol} :
    ftFind ft x = none ↔ x ∉ ft.map FtEntry.sym := by
  simp [ftFind, List.find?_eq_none]

theorem ftFind_eq_some {ft : List FtEntry} {x : Symbol} {e : FtEntry} (h : ftFind ft x = some e) :
    e ∈ ft ∧ e.sym = x := by
  refine ⟨List.mem_of_find?_eq_some h, ?_⟩
  simpa using List.find?_some h

/-- A symbol of the table splits it at its first entry. -/
theorem ft_split {ft : List FtEntry} {x : Symbol} (h : x ∈ ft.map FtEntry.sym) :
    ∃ pre c post, ft = pre ++ ⟨x, c⟩ :: post ∧ x ∉ pre.map FtEntry.sym := by
  induction ft with
  | nil => simp at h
  | cons e es ih =>
    by_cases he : e.sym = x
    · exact ⟨[], e.count, es, by rw [← he]; rfl, by simp⟩
    · obtain ⟨pre, c, post, h1, h2⟩ := ih (by
        rcases List.mem_cons.mp h with h | h
        · exact absurd h.symm he
        · exact h)
      exact ⟨e :: pre, c, post, by rw [h1]; rfl, by
        simp only [List.map_cons, List.mem_cons, not_or]; exact ⟨fun h' => he h'.symm, h2⟩⟩

theorem ftFind_split {pre post : List FtEntry} {x : Symbol} {c : Count} (h : x ∉ pre.map FtEntry.sym) :
    ftFind (pre ++ ⟨x, c⟩ :: post) x = some ⟨x, c⟩ := by
  have h' : pre.find? (fun e => e.sym == x) = none := ftFind_eq_none_iff.mpr h
  simp [ftFind, h']

theorem freqOf_split {pre post : List FtEntry} {x : Symbol} {c : Count} (h : x ∉ pre.map FtEntry.sym) :
    freqOf (pre ++ ⟨x, c⟩ :: post) x = c := by
  rw [freqOf, ftFind_split h]

theorem freqOf_absent {ft : List FtEntry} {x : Symbol} (h : x ∉ ft.map FtEntry.sym) : freqOf ft x = 0 := by
  rw [freqOf, ftFind_eq_none_iff.mpr h]

theorem freqOf_of_mem {ft : List FtEntry} (hd : (ft.map FtEntry.sym).Nodup) {e : FtEntry} (h : e ∈ ft) :
    freqOf ft e.sym = e.count := by
  obtain ⟨pre, post, rfl⟩ := List.append_of_mem h
  refine freqOf_split fun h' => ?_
  rw [List.map_append, List.map_cons, List.nodup_append] at hd
  exact hd.2.2 _ h' _ (by simp) rfl

theorem bump_split {pre post : List FtEntry} {x : Symbol} {c : Count} (h : x ∉ pre.map FtEntry.sym) :
    bump x (pre ++ ⟨x, c⟩ :: post) = pre ++ ⟨x, c + 1⟩ :: post := by
  induction pre with
  | nil => simp [bump]
  | cons e es ih =>
    simp only [List.map_cons, List.mem_cons, not_or] at h
    simp [bump, Ne.symm h.1, ih h.2]

@[simp] theorem map_sym_bump (x : Symbol) (ft : List FtEntry) :
    (bump x ft).map FtEntry.sym = ft.map FtEntry.sym := by
  induction ft with
  | nil => rfl
  | cons e es ih => rw [bump]; split <;> simp [ih]

@[simp] theorem length_bump (x : Symbol) (ft : List FtEntry) : (bump x ft).length = ft.length := by
  rw [← List.length_map (f := FtEntry.sym), map_sym_bump, List.length_map]

/-- A bump of one entry leaves the counts of all other symbols (R101). -/
theorem freqOf_bump_ne {x y : Symbol} (ft : List FtEntry) (h : y ≠ x) : freqOf (bump x ft) y = freqOf ft y := by
  induction ft with
  | nil => rfl
  | cons e es ih =>
    rw [bump]
    split
    · rename_i he
      simp [freqOf, ftFind, he, Ne.symm h]
    · by_cases hy : e.sym = y
      · simp [freqOf, ftFind, hy]
      · simpa [freqOf, ftFind, hy] using ih

theorem freqOf_append_ne {x y : Symbol} (ft : List FtEntry) (c : Count) (h : y ≠ x) :
    freqOf (ft ++ [⟨x, c⟩]) y = freqOf ft y := by
  simp only [freqOf, ftFind, List.find?_append]
  cases hf : ft.find? fun e => e.sym == y <;> simp [Ne.symm h]

/-! ### CT -/

theorem ctFind_eq_none_iff {ct : List CtEntry} {x : Symbol} :
    ctFind ct x = none ↔ x ∉ ct.map CtEntry.sym := by
  simp [ctFind, List.find?_eq_none]

theorem ctFind_eq_some {ct : List CtEntry} {x : Symbol} {e : CtEntry} (h : ctFind ct x = some e) :
    e ∈ ct ∧ e.sym = x := by
  refine ⟨List.mem_of_find?_eq_some h, ?_⟩
  simpa using List.find?_some h

theorem ctFind_split {pre post : List CtEntry} {x : Symbol} {len : CodeLen} {b : CodeBits}
    (h : x ∉ pre.map CtEntry.sym) : ctFind (pre ++ ⟨x, len, b⟩ :: post) x = some ⟨x, len, b⟩ := by
  have h' : pre.find? (fun e => e.sym == x) = none := ctFind_eq_none_iff.mpr h
  simp [ctFind, h']

/-- In a mapping an entry is found under its symbol (R29 (b)). -/
theorem ctFind_of_mem {ct : List CtEntry} (hd : (ct.map CtEntry.sym).Nodup) {e : CtEntry} (h : e ∈ ct) :
    ctFind ct e.sym = some e := by
  obtain ⟨pre, post, rfl⟩ := List.append_of_mem h
  refine ctFind_split (pre := pre) (post := post) (len := e.len) (b := e.bits) fun h' => ?_
  rw [List.map_append, List.map_cons, List.nodup_append] at hd
  exact hd.2.2 _ h' _ (by simp) rfl

theorem codeFor_of_mem {ct : List CtEntry} (hd : (ct.map CtEntry.sym).Nodup) {e : CtEntry} (h : e ∈ ct) :
    codeFor ct e.sym = e.code := by rw [codeFor, ctFind_of_mem hd h]

/-! ### DecodeTable -/

/-- The inverse mapping finds exactly the entry with that code (R30). -/
theorem CtInv.decodeTable_eq_some_iff {ct : List CtEntry} (h : CtInv ct) {c : List Digit} {x : Symbol} :
    decodeTable ct c = some x ↔ ∃ e ∈ ct, e.code = c ∧ e.sym = x := by
  constructor
  · intro hx
    obtain ⟨e, he, rfl⟩ := Option.map_eq_some_iff.mp hx
    exact ⟨e, List.mem_of_find?_eq_some he, by simpa using List.find?_some he, rfl⟩
  · rintro ⟨e, he, rfl, rfl⟩
    have hs : (ct.find? fun e' => e'.code == e.code).isSome := by
      rw [List.find?_isSome]; exact ⟨e, he, by simp⟩
    obtain ⟨e', he'⟩ := Option.isSome_iff_exists.mp hs
    have h1 := List.mem_of_find?_eq_some he'
    have h2 : e'.code = e.code := by simpa using List.find?_some he'
    rw [decodeTable, he', h.eq_of_prefix h1 he (by rw [h2])]
    rfl

theorem decodeTable_eq_none_iff {ct : List CtEntry} {c : List Digit} :
    decodeTable ct c = none ↔ ∀ e ∈ ct, e.code ≠ c := by
  simp [decodeTable, List.find?_eq_none]

end Sys2Proof.Machine
end

