-- ==== Sys2Proof/Laws/State.lean ====
section
/-! SUPPORT. The state's update laws: for each operation that updates the state, each field after it. Then
the fields after `raise`, the shape of every answer, and what each meaning's two endings look like. -/

namespace Sys2Proof.Machine

open Sys2Proof

/-! ### `respond` -/

@[simp] theorem respond_ft (c : RspCode) (d : RspData) (s : State) : (respond c d s).ft = s.ft := rfl
@[simp] theorem respond_total (c : RspCode) (d : RspData) (s : State) : (respond c d s).total = s.total := rfl
@[simp] theorem respond_node (c : RspCode) (d : RspData) (s : State) : (respond c d s).node = s.node := rfl
@[simp] theorem respond_root (c : RspCode) (d : RspData) (s : State) : (respond c d s).root = s.root := rfl
@[simp] theorem respond_treeValid (c : RspCode) (d : RspData) (s : State) : (respond c d s).treeValid = s.treeValid := rfl
@[simp] theorem respond_ct (c : RspCode) (d : RspData) (s : State) : (respond c d s).ct = s.ct := rfl
@[simp] theorem respond_degen (c : RspCode) (d : RspData) (s : State) : (respond c d s).degen = s.degen := rfl
@[simp] theorem respond_encOpen (c : RspCode) (d : RspData) (s : State) : (respond c d s).encOpen = s.encOpen := rfl
@[simp] theorem respond_decOpen (c : RspCode) (d : RspData) (s : State) : (respond c d s).decOpen = s.decOpen := rfl
@[simp] theorem respond_acc (c : RspCode) (d : RspData) (s : State) : (respond c d s).acc = s.acc := rfl
@[simp] theorem respond_acclen (c : RspCode) (d : RspData) (s : State) : (respond c d s).acclen = s.acclen := rfl
@[simp] theorem respond_ovr (c : RspCode) (d : RspData) (s : State) : (respond c d s).ovr = s.ovr := rfl
@[simp] theorem respond_errlog (c : RspCode) (d : RspData) (s : State) : (respond c d s).errlog = s.errlog := rfl
@[simp] theorem respond_cmd (c : RspCode) (d : RspData) (s : State) : (respond c d s).cmd = s.cmd := rfl
@[simp] theorem respond_rsp (c : RspCode) (d : RspData) (s : State) : (respond c d s).rsp = s.rsp ++ [responseWord c d] := rfl
@[simp] theorem respond_bitout (c : RspCode) (d : RspData) (s : State) : (respond c d s).bitout = s.bitout := rfl
@[simp] theorem respond_symout (c : RspCode) (d : RspData) (s : State) : (respond c d s).symout = s.symout := rfl

/-! ### `emitBits` -/

@[simp] theorem emitBits_ft (ds : List Digit) (s : State) : (emitBits ds s).ft = s.ft := rfl
@[simp] theorem emitBits_total (ds : List Digit) (s : State) : (emitBits ds s).total = s.total := rfl
@[simp] theorem emitBits_node (ds : List Digit) (s : State) : (emitBits ds s).node = s.node := rfl
@[simp] theorem emitBits_root (ds : List Digit) (s : State) : (emitBits ds s).root = s.root := rfl
@[simp] theorem emitBits_treeValid (ds : List Digit) (s : State) : (emitBits ds s).treeValid = s.treeValid := rfl
@[simp] theorem emitBits_ct (ds : List Digit) (s : State) : (emitBits ds s).ct = s.ct := rfl
@[simp] theorem emitBits_degen (ds : List Digit) (s : State) : (emitBits ds s).degen = s.degen := rfl
@[simp] theorem emitBits_encOpen (ds : List Digit) (s : State) : (emitBits ds s).encOpen = s.encOpen := rfl
@[simp] theorem emitBits_decOpen (ds : List Digit) (s : State) : (emitBits ds s).decOpen = s.decOpen := rfl
@[simp] theorem emitBits_acc (ds : List Digit) (s : State) : (emitBits ds s).acc = s.acc := rfl
@[simp] theorem emitBits_acclen (ds : List Digit) (s : State) : (emitBits ds s).acclen = s.acclen := rfl
@[simp] theorem emitBits_ovr (ds : List Digit) (s : State) : (emitBits ds s).ovr = s.ovr := rfl
@[simp] theorem emitBits_errlog (ds : List Digit) (s : State) : (emitBits ds s).errlog = s.errlog := rfl
@[simp] theorem emitBits_cmd (ds : List Digit) (s : State) : (emitBits ds s).cmd = s.cmd := rfl
@[simp] theorem emitBits_rsp (ds : List Digit) (s : State) : (emitBits ds s).rsp = s.rsp := rfl
@[simp] theorem emitBits_bitout (ds : List Digit) (s : State) : (emitBits ds s).bitout = s.bitout ++ ds.map Token.data := rfl
@[simp] theorem emitBits_symout (ds : List Digit) (s : State) : (emitBits ds s).symout = s.symout := rfl

/-! ### `emitBitout` -/

@[simp] theorem emitBitout_ft (t : Token Digit) (s : State) : (emitBitout t s).ft = s.ft := rfl
@[simp] theorem emitBitout_total (t : Token Digit) (s : State) : (emitBitout t s).total = s.total := rfl
@[simp] theorem emitBitout_node (t : Token Digit) (s : State) : (emitBitout t s).node = s.node := rfl
@[simp] theorem emitBitout_root (t : Token Digit) (s : State) : (emitBitout t s).root = s.root := rfl
@[simp] theorem emitBitout_treeValid (t : Token Digit) (s : State) : (emitBitout t s).treeValid = s.treeValid := rfl
@[simp] theorem emitBitout_ct (t : Token Digit) (s : State) : (emitBitout t s).ct = s.ct := rfl
@[simp] theorem emitBitout_degen (t : Token Digit) (s : State) : (emitBitout t s).degen = s.degen := rfl
@[simp] theorem emitBitout_encOpen (t : Token Digit) (s : State) : (emitBitout t s).encOpen = s.encOpen := rfl
@[simp] theorem emitBitout_decOpen (t : Token Digit) (s : State) : (emitBitout t s).decOpen = s.decOpen := rfl
@[simp] theorem emitBitout_acc (t : Token Digit) (s : State) : (emitBitout t s).acc = s.acc := rfl
@[simp] theorem emitBitout_acclen (t : Token Digit) (s : State) : (emitBitout t s).acclen = s.acclen := rfl
@[simp] theorem emitBitout_ovr (t : Token Digit) (s : State) : (emitBitout t s).ovr = s.ovr := rfl
@[simp] theorem emitBitout_errlog (t : Token Digit) (s : State) : (emitBitout t s).errlog = s.errlog := rfl
@[simp] theorem emitBitout_cmd (t : Token Digit) (s : State) : (emitBitout t s).cmd = s.cmd := rfl
@[simp] theorem emitBitout_rsp (t : Token Digit) (s : State) : (emitBitout t s).rsp = s.rsp := rfl
@[simp] theorem emitBitout_bitout (t : Token Digit) (s : State) : (emitBitout t s).bitout = s.bitout ++ [t] := rfl
@[simp] theorem emitBitout_symout (t : Token Digit) (s : State) : (emitBitout t s).symout = s.symout := rfl

/-! ### `emitSymout` -/

@[simp] theorem emitSymout_ft (t : Token Symbol) (s : State) : (emitSymout t s).ft = s.ft := rfl
@[simp] theorem emitSymout_total (t : Token Symbol) (s : State) : (emitSymout t s).total = s.total := rfl
@[simp] theorem emitSymout_node (t : Token Symbol) (s : State) : (emitSymout t s).node = s.node := rfl
@[simp] theorem emitSymout_root (t : Token Symbol) (s : State) : (emitSymout t s).root = s.root := rfl
@[simp] theorem emitSymout_treeValid (t : Token Symbol) (s : State) : (emitSymout t s).treeValid = s.treeValid := rfl
@[simp] theorem emitSymout_ct (t : Token Symbol) (s : State) : (emitSymout t s).ct = s.ct := rfl
@[simp] theorem emitSymout_degen (t : Token Symbol) (s : State) : (emitSymout t s).degen = s.degen := rfl
@[simp] theorem emitSymout_encOpen (t : Token Symbol) (s : State) : (emitSymout t s).encOpen = s.encOpen := rfl
@[simp] theorem emitSymout_decOpen (t : Token Symbol) (s : State) : (emitSymout t s).decOpen = s.decOpen := rfl
@[simp] theorem emitSymout_acc (t : Token Symbol) (s : State) : (emitSymout t s).acc = s.acc := rfl
@[simp] theorem emitSymout_acclen (t : Token Symbol) (s : State) : (emitSymout t s).acclen = s.acclen := rfl
@[simp] theorem emitSymout_ovr (t : Token Symbol) (s : State) : (emitSymout t s).ovr = s.ovr := rfl
@[simp] theorem emitSymout_errlog (t : Token Symbol) (s : State) : (emitSymout t s).errlog = s.errlog := rfl
@[simp] theorem emitSymout_cmd (t : Token Symbol) (s : State) : (emitSymout t s).cmd = s.cmd := rfl
@[simp] theorem emitSymout_rsp (t : Token Symbol) (s : State) : (emitSymout t s).rsp = s.rsp := rfl
@[simp] theorem emitSymout_bitout (t : Token Symbol) (s : State) : (emitSymout t s).bitout = s.bitout := rfl
@[simp] theorem emitSymout_symout (t : Token Symbol) (s : State) : (emitSymout t s).symout = s.symout ++ [t] := rfl

/-! ### `clearAcc` -/

@[simp] theorem clearAcc_ft (s : State) : (clearAcc s).ft = s.ft := rfl
@[simp] theorem clearAcc_total (s : State) : (clearAcc s).total = s.total := rfl
@[simp] theorem clearAcc_node (s : State) : (clearAcc s).node = s.node := rfl
@[simp] theorem clearAcc_root (s : State) : (clearAcc s).root = s.root := rfl
@[simp] theorem clearAcc_treeValid (s : State) : (clearAcc s).treeValid = s.treeValid := rfl
@[simp] theorem clearAcc_ct (s : State) : (clearAcc s).ct = s.ct := rfl
@[simp] theorem clearAcc_degen (s : State) : (clearAcc s).degen = s.degen := rfl
@[simp] theorem clearAcc_encOpen (s : State) : (clearAcc s).encOpen = s.encOpen := rfl
@[simp] theorem clearAcc_decOpen (s : State) : (clearAcc s).decOpen = s.decOpen := rfl
@[simp] theorem clearAcc_acc (s : State) : (clearAcc s).acc = 0 := rfl
@[simp] theorem clearAcc_acclen (s : State) : (clearAcc s).acclen = 0 := rfl
@[simp] theorem clearAcc_ovr (s : State) : (clearAcc s).ovr = s.ovr := rfl
@[simp] theorem clearAcc_errlog (s : State) : (clearAcc s).errlog = s.errlog := rfl
@[simp] theorem clearAcc_cmd (s : State) : (clearAcc s).cmd = s.cmd := rfl
@[simp] theorem clearAcc_rsp (s : State) : (clearAcc s).rsp = s.rsp := rfl
@[simp] theorem clearAcc_bitout (s : State) : (clearAcc s).bitout = s.bitout := rfl
@[simp] theorem clearAcc_symout (s : State) : (clearAcc s).symout = s.symout := rfl

/-! ### `setDecFrame` -/

@[simp] theorem setDecFrame_ft (v : Bool) (s : State) : (setDecFrame v s).ft = s.ft := rfl
@[simp] theorem setDecFrame_total (v : Bool) (s : State) : (setDecFrame v s).total = s.total := rfl
@[simp] theorem setDecFrame_node (v : Bool) (s : State) : (setDecFrame v s).node = s.node := rfl
@[simp] theorem setDecFrame_root (v : Bool) (s : State) : (setDecFrame v s).root = s.root := rfl
@[simp] theorem setDecFrame_treeValid (v : Bool) (s : State) : (setDecFrame v s).treeValid = s.treeValid := rfl
@[simp] theorem setDecFrame_ct (v : Bool) (s : State) : (setDecFrame v s).ct = s.ct := rfl
@[simp] theorem setDecFrame_degen (v : Bool) (s : State) : (setDecFrame v s).degen = s.degen := rfl
@[simp] theorem setDecFrame_encOpen (v : Bool) (s : State) : (setDecFrame v s).encOpen = s.encOpen := rfl
@[simp] theorem setDecFrame_decOpen (v : Bool) (s : State) : (setDecFrame v s).decOpen = v := rfl
@[simp] theorem setDecFrame_acc (v : Bool) (s : State) : (setDecFrame v s).acc = 0 := rfl
@[simp] theorem setDecFrame_acclen (v : Bool) (s : State) : (setDecFrame v s).acclen = 0 := rfl
@[simp] theorem setDecFrame_ovr (v : Bool) (s : State) : (setDecFrame v s).ovr = false := rfl
@[simp] theorem setDecFrame_errlog (v : Bool) (s : State) : (setDecFrame v s).errlog = s.errlog := rfl
@[simp] theorem setDecFrame_cmd (v : Bool) (s : State) : (setDecFrame v s).cmd = s.cmd := rfl
@[simp] theorem setDecFrame_rsp (v : Bool) (s : State) : (setDecFrame v s).rsp = s.rsp := rfl
@[simp] theorem setDecFrame_bitout (v : Bool) (s : State) : (setDecFrame v s).bitout = s.bitout := rfl
@[simp] theorem setDecFrame_symout (v : Bool) (s : State) : (setDecFrame v s).symout = s.symout := rfl

/-! ### `logError` -/

@[simp] theorem logError_ft (e : Err) (s : State) : (logError e s).ft = s.ft := rfl
@[simp] theorem logError_total (e : Err) (s : State) : (logError e s).total = s.total := rfl
@[simp] theorem logError_node (e : Err) (s : State) : (logError e s).node = s.node := rfl
@[simp] theorem logError_root (e : Err) (s : State) : (logError e s).root = s.root := rfl
@[simp] theorem logError_treeValid (e : Err) (s : State) : (logError e s).treeValid = s.treeValid := rfl
@[simp] theorem logError_ct (e : Err) (s : State) : (logError e s).ct = s.ct := rfl
@[simp] theorem logError_degen (e : Err) (s : State) : (logError e s).degen = s.degen := rfl
@[simp] theorem logError_encOpen (e : Err) (s : State) : (logError e s).encOpen = s.encOpen := rfl
@[simp] theorem logError_decOpen (e : Err) (s : State) : (logError e s).decOpen = s.decOpen := rfl
@[simp] theorem logError_acc (e : Err) (s : State) : (logError e s).acc = s.acc := rfl
@[simp] theorem logError_acclen (e : Err) (s : State) : (logError e s).acclen = s.acclen := rfl
@[simp] theorem logError_ovr (e : Err) (s : State) : (logError e s).ovr = s.ovr := rfl
@[simp] theorem logError_errlog (e : Err) (s : State) : (logError e s).errlog = s.errlog ||| logBit e.code := rfl
@[simp] theorem logError_cmd (e : Err) (s : State) : (logError e s).cmd = s.cmd := rfl
@[simp] theorem logError_rsp (e : Err) (s : State) : (logError e s).rsp = s.rsp := rfl
@[simp] theorem logError_bitout (e : Err) (s : State) : (logError e s).bitout = s.bitout := rfl
@[simp] theorem logError_symout (e : Err) (s : State) : (logError e s).symout = s.symout := rfl

/-! ### `appendDigit` -/

@[simp] theorem appendDigit_ft (d : Digit) (s : State) : (appendDigit d s).ft = s.ft := rfl
@[simp] theorem appendDigit_total (d : Digit) (s : State) : (appendDigit d s).total = s.total := rfl
@[simp] theorem appendDigit_node (d : Digit) (s : State) : (appendDigit d s).node = s.node := rfl
@[simp] theorem appendDigit_root (d : Digit) (s : State) : (appendDigit d s).root = s.root := rfl
@[simp] theorem appendDigit_treeValid (d : Digit) (s : State) : (appendDigit d s).treeValid = s.treeValid := rfl
@[simp] theorem appendDigit_ct (d : Digit) (s : State) : (appendDigit d s).ct = s.ct := rfl
@[simp] theorem appendDigit_degen (d : Digit) (s : State) : (appendDigit d s).degen = s.degen := rfl
@[simp] theorem appendDigit_encOpen (d : Digit) (s : State) : (appendDigit d s).encOpen = s.encOpen := rfl
@[simp] theorem appendDigit_decOpen (d : Digit) (s : State) : (appendDigit d s).decOpen = s.decOpen := rfl
@[simp] theorem appendDigit_acc (d : Digit) (s : State) : (appendDigit d s).acc = setDigit s.acc s.acclen d := rfl
@[simp] theorem appendDigit_acclen (d : Digit) (s : State) : (appendDigit d s).acclen = s.acclen + 1 := rfl
@[simp] theorem appendDigit_ovr (d : Digit) (s : State) : (appendDigit d s).ovr = s.ovr := rfl
@[simp] theorem appendDigit_errlog (d : Digit) (s : State) : (appendDigit d s).errlog = s.errlog := rfl
@[simp] theorem appendDigit_cmd (d : Digit) (s : State) : (appendDigit d s).cmd = s.cmd := rfl
@[simp] theorem appendDigit_rsp (d : Digit) (s : State) : (appendDigit d s).rsp = s.rsp := rfl
@[simp] theorem appendDigit_bitout (d : Digit) (s : State) : (appendDigit d s).bitout = s.bitout := rfl
@[simp] theorem appendDigit_symout (d : Digit) (s : State) : (appendDigit d s).symout = s.symout := rfl

/-! ### `raise` -/

@[simp] theorem raise_ft (e : Err) (s : State) : (raise e s).ft = s.ft := by cases e <;> rfl
@[simp] theorem raise_total (e : Err) (s : State) : (raise e s).total = s.total := by cases e <;> rfl
@[simp] theorem raise_node (e : Err) (s : State) : (raise e s).node = s.node := by cases e <;> rfl
@[simp] theorem raise_root (e : Err) (s : State) : (raise e s).root = s.root := by cases e <;> rfl
@[simp] theorem raise_treeValid (e : Err) (s : State) : (raise e s).treeValid = s.treeValid := by cases e <;> rfl
@[simp] theorem raise_ct (e : Err) (s : State) : (raise e s).ct = s.ct := by cases e <;> rfl
@[simp] theorem raise_degen (e : Err) (s : State) : (raise e s).degen = s.degen := by cases e <;> rfl
@[simp] theorem raise_cmd (e : Err) (s : State) : (raise e s).cmd = s.cmd := by cases e <;> rfl
@[simp] theorem raise_errlog (e : Err) (s : State) :
    (raise e s).errlog = s.errlog ||| logBit e.code := by cases e <;> rfl
@[simp] theorem raise_rsp (e : Err) (s : State) :
    (raise e s).rsp = s.rsp ++ [responseWord e.code 0] := by cases e <;> rfl

/-- Seven causes leave all but ERRLOG and RSP unchanged (60_exceptions.md R204). -/
theorem raise_eq_errored {e : Err} (s : State) (h1 : e ≠ .unknownSymbol) (h2 : e ≠ .truncatedStream) :
    raise e s = errored e.code.toNat s := by
  cases e <;> first | contradiction | rfl

/-- `UnknownSymbol` also aborts the encode frame (R203). -/
theorem raise_unknownSymbol (s : State) :
    raise .unknownSymbol s =
      { errored 2 s with encOpen := false, bitout := s.bitout ++ [.abort] } := rfl

/-- `TruncatedStream` also aborts the decode frame (R203). -/
theorem raise_truncatedStream (s : State) :
    raise .truncatedStream s =
      { errored 3 s with
        decOpen := false, acc := 0, acclen := 0, ovr := false, symout := s.symout ++ [.abort] } := rfl

/-! ### Response words -/

theorem responseWord_toNat (c : RspCode) (d : RspData) :
    (responseWord c d).toNat = c.toNat * 2 ^ 27 + d.toNat := by
  show (c ++ d : BitVec (5 + 27)).toNat = _
  rw [BitVec.toNat_append, ← Nat.shiftLeft_add_eq_or_of_lt d.isLt, Nat.shiftLeft_eq]

@[simp] theorem codeOf_responseWord (c : RspCode) (d : RspData) : codeOf (responseWord c d) = c.toNat := by
  rw [codeOf, BitVec.extractLsb'_toNat, responseWord_toNat, Nat.shiftRight_eq_div_pow]; omega

@[simp] theorem okCode_toNat : okCode.toNat = 0 := rfl

theorem responseWord_ok_zero : responseWord okCode 0 = 0x00000000#32 := rfl

/-- An OK response is its data, as a number. -/
theorem responseWord_ok (d : RspData) : responseWord okCode d = BitVec.ofNat 32 d.toNat := by
  apply BitVec.eq_of_toNat_eq
  rw [responseWord_toNat, BitVec.toNat_ofNat]; simp; omega

/-! ### The two endings of a command -/

@[simp] theorem finish_eq_next {d : RspData} {s t : State} :
    finish d s = .next t ↔ respond okCode d s = t := by simp [finish]

@[simp] theorem failWith_eq_next {e : Err} {s t : State} : failWith e s = .next t ↔ raise e s = t := by
  simp [failWith]

/-- `OK` with no data, in the words of the claims. -/
theorem finish_zero (s : State) : finish 0 s = .next (answered 0x00000000#32 s) := rfl

/-- `OK` with data, in the words of the claims. -/
theorem finish_data (d : RspData) (s : State) :
    finish d s = .next (answered (BitVec.ofNat 32 d.toNat) s) := by
  simp only [finish, respond, answered, responseWord_ok]

/-- The seven refusals that change nothing else, in the words of the claims. -/
theorem failWith_eq_errored {e : Err} (s : State) (h1 : e ≠ .unknownSymbol) (h2 : e ≠ .truncatedStream) :
    failWith e s = .next (errored e.code.toNat s) := by
  rw [failWith, raise_eq_errored s h1 h2]

/-! ### `matchAcc` -/

/-- What the look-up of DECBIT does (44_decoder.md R151): a symbol out and an empty accumulator, or
nothing. -/
theorem matchAcc_cases (s : State) :
    (∃ e ∈ s.ct, e.len = s.acclen ∧ e.bits = s.acc ∧
      matchAcc s = { s with acc := 0, acclen := 0, symout := s.symout ++ [.data e.sym] }) ∨
    ((∀ e ∈ s.ct, ¬ (e.len = s.acclen ∧ e.bits = s.acc)) ∧ matchAcc s = s) := by
  unfold matchAcc dtFind
  split
  · rename_i e he
    left
    have h1 := List.mem_of_find?_eq_some he
    have h2 := List.find?_some he
    simp only [Bool.and_eq_true, beq_iff_eq] at h2
    exact ⟨e, h1, h2.1, h2.2, rfl⟩
  · rename_i he
    right
    refine ⟨fun e h => ?_, rfl⟩
    have := List.find?_eq_none.mp he e h
    simpa using this

end Sys2Proof.Machine
end

