-- ==== Sys2Proof/Laws/Exec.lean ====
section
/-! SUPPORT. Everything one command can do, said once: a command that completes either raised one error, or
completed with `OK` and one effect. Later proofs take a step apart with `exec_cases` and never unfold a
meaning. -/

namespace Sys2Proof.Machine

open Sys2Proof

/-- The guard of `OK` for each command, its state before the response, and its response data. -/
def Completes (s : State) (i : Instr) (s' : State) (d : RspData) : Prop :=
  match i with
  | .nop => s' = s ∧ d = 0
  | .ftclr => s' = { s with ft := [], total := 0 } ∧ d = 0
  | .count sym => s.total.toNat ≠ 65535 ∧ d = 0 ∧
      ((sym ∈ s.ft.map FtEntry.sym ∧ s' = { s with ft := bump sym s.ft, total := s.total + 1 }) ∨
       (sym ∉ s.ft.map FtEntry.sym ∧ s.ft.length ≠ 16 ∧
         s' = { s with ft := s.ft ++ [⟨sym, 1⟩], total := s.total + 1 }))
  | .build => s.ft ≠ [] ∧ s.ft.length ≤ 16 ∧ d = 0 ∧
      s' = { s with node := (buildTree s.ft).1, root := (buildTree s.ft).2, treeValid := true }
  | .gen => s.locked = false ∧ s.treeValid = true ∧ d = 0 ∧ ∃ new single,
      genCodes s.node s.root = some (new, single) ∧ new.length ≤ 16 ∧
      s' = { s with ct := new.map fun (sym, c) => CtEntry.ofCode sym c, degen := single }
  | .ctclr => s.locked = false ∧ d = 0 ∧ s' = { s with ct := [], degen := false }
  | .ldcode sym len cbits => s.locked = false ∧ codeOperandOk len cbits = true ∧
      sym ∉ s.ct.map CtEntry.sym ∧ (∀ e ∈ s.ct, Apart e.code (digitsOf len cbits)) ∧
      s.ct.length ≠ 16 ∧ d = 0 ∧ s' = { s with ct := s.ct ++ [⟨sym, len, cbits⟩], degen := false }
  | .encbeg => s.encOpen = false ∧ d = 0 ∧ s' = { s with encOpen := true }
  | .enc sym => s.encOpen = true ∧ d = 0 ∧ ∃ e ∈ s.ct, ctFind s.ct sym = some e ∧ e.sym = sym ∧
      s' = emitBits e.code s
  | .encend => s.encOpen = true ∧ d = 0 ∧ s' = emitBitout .close { s with encOpen := false }
  | .decbeg => s.decOpen = false ∧ d = 0 ∧ s' = setDecFrame true s
  | .decbit dig => s.decOpen = true ∧ d = 0 ∧
      ((s.ovr = true ∧ s' = s) ∨
       (s.ovr = false ∧ s.acclen.toNat = 15 ∧ s' = { s with ovr := true }) ∨
       (s.ovr = false ∧ s.acclen.toNat ≠ 15 ∧ s' = matchAcc (appendDigit dig s)))
  | .decend => s.decOpen = true ∧ s.dpend = false ∧ d = 0 ∧ s' = emitSymout .close (setDecFrame false s)
  | .rdstat => d = s.status ∧ s' = s
  | .rdtot => d = countData s.total ∧ s' = s
  | .rdfreq sym => d = countData (freqOf s.ft sym) ∧ s' = s
  | .rdtree => d = treeData s.nnodes s.root ∧ s' = s
  | .rdnode idx => s' = s ∧ ∃ n, s.node[idx.toNat]? = some n ∧ d = nodeData n
  | .rdcode sym => d = codeData sym (ctFind s.ct sym) ∧ s' = s

/-- When each command raises which error (60_exceptions.md R191 to R202). -/
def Raises (s : State) (i : Instr) (e : Err) : Prop :=
  match i with
  | .nop | .ftclr | .rdstat | .rdtot | .rdfreq _ | .rdtree | .rdcode _ => False
  | .count sym =>
      (e = .countOverflow ∧ s.total.toNat = 65535) ∨
      (e = .tableFull ∧ s.total.toNat ≠ 65535 ∧ sym ∉ s.ft.map FtEntry.sym ∧ s.ft.length = 16)
  | .build => e = .emptyCorpus ∧ s.ft = []
  | .gen => e = .badSequence ∧ (s.locked = true ∨ s.treeValid = false)
  | .ctclr => e = .badSequence ∧ s.locked = true
  | .ldcode sym len cbits =>
      (e = .badSequence ∧ s.locked = true) ∨
      (e = .badOperand ∧ s.locked = false ∧ codeOperandOk len cbits = false) ∨
      (e = .codeConflict ∧ s.locked = false ∧ codeOperandOk len cbits = true ∧
        (sym ∈ s.ct.map CtEntry.sym ∨ ∃ e' ∈ s.ct, ¬ Apart e'.code (digitsOf len cbits))) ∨
      (e = .tableFull ∧ s.locked = false ∧ codeOperandOk len cbits = true ∧
        sym ∉ s.ct.map CtEntry.sym ∧ (∀ e' ∈ s.ct, Apart e'.code (digitsOf len cbits)) ∧ s.ct.length = 16)
  | .encbeg => e = .badSequence ∧ s.encOpen = true
  | .enc sym =>
      (e = .badSequence ∧ s.encOpen = false) ∨
      (e = .unknownSymbol ∧ s.encOpen = true ∧ sym ∉ s.ct.map CtEntry.sym)
  | .encend => e = .badSequence ∧ s.encOpen = false
  | .decbeg => e = .badSequence ∧ s.decOpen = true
  | .decbit _ => e = .badSequence ∧ s.decOpen = false
  | .decend =>
      (e = .badSequence ∧ s.decOpen = false) ∨
      (e = .truncatedStream ∧ s.decOpen = true ∧ s.dpend = true)
  | .rdnode idx => e = .badOperand ∧ s.node[idx.toNat]? = none

theorem comparable_eq_false_iff (p q : List Digit) : comparable p q = false ↔ Apart p q := by
  rw [Bool.eq_false_iff, ne_eq, comparable, Bool.or_eq_true, List.isPrefixOf_iff_prefix,
    List.isPrefixOf_iff_prefix, Apart, not_or]

theorem any_comparable_eq_false_iff (ct : List CtEntry) (c : List Digit) :
    (ct.any fun e => comparable e.code c) = false ↔ ∀ e ∈ ct, Apart e.code c := by
  rw [Bool.eq_false_iff, ne_eq, List.any_eq_true]
  constructor
  · intro h e he
    rw [← comparable_eq_false_iff, Bool.eq_false_iff]
    exact fun h' => h ⟨e, he, h'⟩
  · rintro h ⟨e, he, h'⟩
    rw [(comparable_eq_false_iff _ _).mpr (h e he)] at h'
    exact absurd h' (by decide)

/-- A command that answers a next state completed with `OK` or raised one error, and which of the two is
decided by the guards. -/
theorem exec_cases {i : Instr} {s t : State} (h : exec i s = .next t) :
    (∃ s' d, t = respond okCode d s' ∧ Completes s i s' d) ∨ (∃ e, t = raise e s ∧ Raises s i e) := by
  cases i with
  | nop => exact .inl ⟨s, 0, (finish_eq_next.mp h).symm, rfl, rfl⟩
  | ftclr => exact .inl ⟨_, _, (finish_eq_next.mp h).symm, rfl, rfl⟩
  | count sym =>
    simp only [exec, execCount] at h
    split at h
    · rename_i hc; exact .inr ⟨_, (failWith_eq_next.mp h).symm, .inl ⟨rfl, hc⟩⟩
    · rename_i hc
      split at h
      · rename_i e he
        refine .inl ⟨_, _, (finish_eq_next.mp h).symm, hc, rfl, .inl ⟨?_, rfl⟩⟩
        by_contra hn
        rw [ftFind_eq_none_iff.mpr hn] at he; exact absurd he (by simp)
      · rename_i he
        have hn := ftFind_eq_none_iff.mp he
        split at h
        · rename_i hl; exact .inr ⟨_, (failWith_eq_next.mp h).symm, .inr ⟨rfl, hc, hn, hl⟩⟩
        · rename_i hl
          exact .inl ⟨_, _, (finish_eq_next.mp h).symm, hc, rfl, .inr ⟨hn, hl, rfl⟩⟩
  | build =>
    simp only [exec, execBuild] at h
    split at h
    · rename_i hc
      exact .inr ⟨_, (failWith_eq_next.mp h).symm, rfl, List.length_eq_zero_iff.mp hc⟩
    · rename_i hc
      split at h
      · exact absurd h (by simp)
      · rename_i hl
        exact .inl ⟨_, _, (finish_eq_next.mp h).symm, fun e => hc (by simp [e]), Nat.not_lt.mp hl, rfl, rfl⟩
  | gen =>
    simp only [exec, execGen] at h
    split at h
    · rename_i hc; exact .inr ⟨_, (failWith_eq_next.mp h).symm, rfl, .inl hc⟩
    · rename_i hc
      split at h
      · rename_i ht; exact .inr ⟨_, (failWith_eq_next.mp h).symm, rfl, .inr (by simpa using ht)⟩
      · rename_i ht
        split at h
        · exact absurd h (by simp)
        · rename_i new single hg
          split at h
          · exact absurd h (by simp)
          · rename_i hl
            exact .inl ⟨_, _, (finish_eq_next.mp h).symm, by simpa using hc, by simpa using ht, rfl, new, single,
              hg, Nat.not_lt.mp hl, rfl⟩
  | ctclr =>
    simp only [exec, execCtclr] at h
    split at h
    · rename_i hc; exact .inr ⟨_, (failWith_eq_next.mp h).symm, rfl, hc⟩
    · rename_i hc; exact .inl ⟨_, _, (finish_eq_next.mp h).symm, by simpa using hc, rfl, rfl⟩
  | ldcode sym len cbits =>
    simp only [exec, execLdcode] at h
    split at h
    · rename_i hc; exact .inr ⟨_, (failWith_eq_next.mp h).symm, .inl ⟨rfl, hc⟩⟩
    · rename_i hc
      have hc : s.locked = false := by simpa using hc
      split at h
      · rename_i h0
        exact .inr ⟨_, (failWith_eq_next.mp h).symm, .inr (.inl ⟨rfl, hc, by simp [codeOperandOk, h0]⟩)⟩
      · rename_i h0
        split at h
        · rename_i h1
          refine .inr ⟨_, (failWith_eq_next.mp h).symm, .inr (.inl ⟨rfl, hc, ?_⟩)⟩
          rw [Bool.eq_false_iff, ne_eq, codeOperandOk_iff]
          exact fun h' => h1 h'.2
        · rename_i h1
          have hok : codeOperandOk len cbits = true := (codeOperandOk_iff _ _).mpr ⟨h0, by simpa using h1⟩
          split at h
          · rename_i h2
            refine .inr ⟨_, (failWith_eq_next.mp h).symm, .inr (.inr (.inl ⟨rfl, hc, hok, .inl ?_⟩))⟩
            by_contra hn
            rw [ctFind_eq_none_iff.mpr hn] at h2; exact absurd h2 (by simp)
          · rename_i h2
            have h2 : sym ∉ s.ct.map CtEntry.sym := ctFind_eq_none_iff.mp (by simpa using h2)
            split at h
            · rename_i h3
              refine .inr ⟨_, (failWith_eq_next.mp h).symm, .inr (.inr (.inl ⟨rfl, hc, hok, .inr ?_⟩))⟩
              obtain ⟨e, he, h4⟩ := List.any_eq_true.mp h3
              refine ⟨e, he, fun h5 => ?_⟩
              rw [(comparable_eq_false_iff _ _).mpr h5] at h4
              exact absurd h4 (by decide)
            · rename_i h3
              have h3 := (any_comparable_eq_false_iff s.ct (digitsOf len cbits)).mp (by simpa using h3)
              split at h
              · rename_i hl
                exact .inr ⟨_, (failWith_eq_next.mp h).symm, .inr (.inr (.inr ⟨rfl, hc, hok, h2, h3, hl⟩))⟩
              · rename_i hl
                exact .inl ⟨_, _, (finish_eq_next.mp h).symm, hc, hok, h2, h3, hl, rfl, rfl⟩
  | encbeg =>
    simp only [exec, execEncbeg] at h
    split at h
    · rename_i hc; exact .inr ⟨_, (failWith_eq_next.mp h).symm, rfl, hc⟩
    · rename_i hc; exact .inl ⟨_, _, (finish_eq_next.mp h).symm, by simpa using hc, rfl, rfl⟩
  | enc sym =>
    simp only [exec, execEnc] at h
    split at h
    · rename_i hc; exact .inr ⟨_, (failWith_eq_next.mp h).symm, .inl ⟨rfl, by simpa using hc⟩⟩
    · rename_i hc
      have hc : s.encOpen = true := by simpa using hc
      split at h
      · rename_i he
        exact .inr ⟨_, (failWith_eq_next.mp h).symm, .inr ⟨rfl, hc, ctFind_eq_none_iff.mp he⟩⟩
      · rename_i e he
        obtain ⟨h1, h2⟩ := ctFind_eq_some he
        exact .inl ⟨_, _, (finish_eq_next.mp h).symm, hc, rfl, e, h1, he, h2, rfl⟩
  | encend =>
    simp only [exec, execEncend] at h
    split at h
    · rename_i hc; exact .inr ⟨_, (failWith_eq_next.mp h).symm, rfl, by simpa using hc⟩
    · rename_i hc; exact .inl ⟨_, _, (finish_eq_next.mp h).symm, by simpa using hc, rfl, rfl⟩
  | decbeg =>
    simp only [exec, execDecbeg] at h
    split at h
    · rename_i hc; exact .inr ⟨_, (failWith_eq_next.mp h).symm, rfl, hc⟩
    · rename_i hc; exact .inl ⟨_, _, (finish_eq_next.mp h).symm, by simpa using hc, rfl, rfl⟩
  | decbit dig =>
    simp only [exec, execDecbit] at h
    split at h
    · rename_i hc; exact .inr ⟨_, (failWith_eq_next.mp h).symm, rfl, by simpa using hc⟩
    · rename_i hc
      have hc : s.decOpen = true := by simpa using hc
      split at h
      · rename_i ho; exact .inl ⟨_, _, (finish_eq_next.mp h).symm, hc, rfl, .inl ⟨ho, rfl⟩⟩
      · rename_i ho
        have ho : s.ovr = false := by simpa using ho
        split at h
        · rename_i hl; exact .inl ⟨_, _, (finish_eq_next.mp h).symm, hc, rfl, .inr (.inl ⟨ho, hl, rfl⟩)⟩
        · rename_i hl; exact .inl ⟨_, _, (finish_eq_next.mp h).symm, hc, rfl, .inr (.inr ⟨ho, hl, rfl⟩)⟩
  | decend =>
    simp only [exec, execDecend] at h
    split at h
    · rename_i hc; exact .inr ⟨_, (failWith_eq_next.mp h).symm, .inl ⟨rfl, by simpa using hc⟩⟩
    · rename_i hc
      have hc : s.decOpen = true := by simpa using hc
      split at h
      · rename_i hp; exact .inr ⟨_, (failWith_eq_next.mp h).symm, .inr ⟨rfl, hc, hp⟩⟩
      · rename_i hp; exact .inl ⟨_, _, (finish_eq_next.mp h).symm, hc, by simpa using hp, rfl, rfl⟩
  | rdstat => exact .inl ⟨s, _, (finish_eq_next.mp h).symm, rfl, rfl⟩
  | rdtot => exact .inl ⟨s, _, (finish_eq_next.mp h).symm, rfl, rfl⟩
  | rdfreq sym => exact .inl ⟨s, _, (finish_eq_next.mp h).symm, rfl, rfl⟩
  | rdtree => exact .inl ⟨s, _, (finish_eq_next.mp h).symm, rfl, rfl⟩
  | rdnode idx =>
    simp only [exec, execRdnode] at h
    split at h
    · rename_i hn; exact .inr ⟨_, (failWith_eq_next.mp h).symm, rfl, hn⟩
    · rename_i n hn; exact .inl ⟨s, _, (finish_eq_next.mp h).symm, rfl, n, hn, rfl⟩
  | rdcode sym => exact .inl ⟨s, _, (finish_eq_next.mp h).symm, rfl, rfl⟩

/-- No command writes CMD, and before its response a command that completes has written neither RSP nor
ERRLOG. -/
theorem Completes.kept {i : Instr} {s s' : State} {d : RspData} (hc : Completes s i s' d) :
    s'.rsp = s.rsp ∧ s'.cmd = s.cmd ∧ s'.errlog = s.errlog := by
  cases i <;> simp only [Completes] at hc
  case decbit =>
    obtain ⟨-, -, ⟨-, rfl⟩ | ⟨-, -, rfl⟩ | ⟨-, -, rfl⟩⟩ := hc
    · exact ⟨rfl, rfl, rfl⟩
    · exact ⟨rfl, rfl, rfl⟩
    · rcases matchAcc_cases (appendDigit ‹_› s) with ⟨_, _, _, _, h⟩ | ⟨_, h⟩ <;> rw [h] <;> exact ⟨rfl, rfl, rfl⟩
  case count => obtain ⟨-, -, ⟨-, rfl⟩ | ⟨-, -, rfl⟩⟩ := hc <;> exact ⟨rfl, rfl, rfl⟩
  case build => obtain ⟨-, -, -, rfl⟩ := hc; exact ⟨rfl, rfl, rfl⟩
  case gen => obtain ⟨-, -, -, _, _, -, -, rfl⟩ := hc; exact ⟨rfl, rfl, rfl⟩
  case ldcode => obtain ⟨-, -, -, -, -, -, rfl⟩ := hc; exact ⟨rfl, rfl, rfl⟩
  case enc => obtain ⟨-, -, _, -, -, -, rfl⟩ := hc; exact ⟨rfl, rfl, rfl⟩
  case decend => obtain ⟨-, -, -, rfl⟩ := hc; exact ⟨rfl, rfl, rfl⟩
  case ctclr => obtain ⟨-, -, rfl⟩ := hc; exact ⟨rfl, rfl, rfl⟩
  case encbeg => obtain ⟨-, -, rfl⟩ := hc; exact ⟨rfl, rfl, rfl⟩
  case encend => obtain ⟨-, -, rfl⟩ := hc; exact ⟨rfl, rfl, rfl⟩
  case decbeg => obtain ⟨-, -, rfl⟩ := hc; exact ⟨rfl, rfl, rfl⟩
  case nop => obtain ⟨rfl, -⟩ := hc; exact ⟨rfl, rfl, rfl⟩
  case ftclr => obtain ⟨rfl, -⟩ := hc; exact ⟨rfl, rfl, rfl⟩
  case rdnode => obtain ⟨rfl, -⟩ := hc; exact ⟨rfl, rfl, rfl⟩
  all_goals (obtain ⟨-, rfl⟩ := hc; exact ⟨rfl, rfl, rfl⟩)

/-- The one response of a command that completes (00_scope.md R12). -/
theorem exec_rsp {i : Instr} {s t : State} (h : exec i s = .next t) : ∃ r, t.rsp = s.rsp ++ [r] := by
  rcases exec_cases h with ⟨s', d, rfl, hc⟩ | ⟨e, rfl, _⟩
  · exact ⟨responseWord okCode d, by rw [respond_rsp, hc.kept.1]⟩
  · exact ⟨_, raise_rsp e s⟩

/-- The response decides which way the command ended: code 0 for `OK`, else the code of the error. -/
theorem exec_codeOf {i : Instr} {s t : State} {r : Word} (h : exec i s = .next t) (hr : t.rsp = s.rsp ++ [r]) :
    (codeOf r = 0 ∧ t.errlog = s.errlog ∧ ∃ s' d, t = respond okCode d s' ∧ Completes s i s' d) ∨
    (∃ e, codeOf r = e.code.toNat ∧ t = raise e s ∧ Raises s i e) := by
  rcases exec_cases h with ⟨s', d, rfl, hc⟩ | ⟨e, rfl, he⟩
  · rw [respond_rsp, hc.kept.1] at hr
    have e := List.append_cancel_left hr
    simp only [List.cons.injEq, and_true] at e
    exact .inl ⟨by rw [← e, codeOf_responseWord, okCode_toNat], hc.kept.2.2, s', d, rfl, hc⟩
  · rw [raise_rsp] at hr
    have e' := List.append_cancel_left hr
    simp only [List.cons.injEq, and_true] at e'
    exact .inr ⟨e, by rw [← e', codeOf_responseWord], rfl, he⟩

theorem Err.code_ne_zero (e : Err) : e.code.toNat ≠ 0 := by cases e <;> decide

theorem Err.code_injective {e e' : Err} (h : e.code.toNat = e'.code.toNat) : e = e' := by
  revert h; cases e <;> cases e' <;> decide

end Sys2Proof.Machine
end

