-- ==== Sys2Proof/Laws/Gen.lean ====
section
/-! SUPPORT. The walk of GEN (42_code_table.md R121, R122): the codes it gives are the root-to-leaf paths,
no two of them comparable, and on a valid tree it ends, with one code for each Leaf. -/

namespace Sys2Proof.Machine

open Sys2Proof

/-! ### One unfolding of the walk -/

theorem walk_leaf {node : List Node} {d i : Nat} {p : List Digit} {sym : Symbol} {f : Count}
    (h : node[i]? = some (.leaf sym f)) : walk node d i p = some [(sym, p)] := by
  unfold walk; simp [h]

/-- A walk from an Internal node that ends is the two walks below it, one after the other. -/
theorem walk_internal_iff {node : List Node} {d i : Nat} {p : List Digit} {c0 c1 : NodeIdx} {f : Count}
    (h : node[i]? = some (.internal c0 c1 f)) {l : List (Symbol × List Digit)} :
    walk node d i p = some l ↔ ∃ d' zeros ones, d = d' + 1 ∧
      walk node d' c0.toNat (p ++ [false]) = some zeros ∧
      walk node d' c1.toNat (p ++ [true]) = some ones ∧ l = zeros ++ ones := by
  rw [walk.eq_def]
  simp only [h]
  cases d with
  | zero => simp
  | succ d =>
    constructor
    · intro hw
      cases h0 : walk node d c0.toNat (p ++ [false]) with
      | none => simp [h0] at hw
      | some zs =>
        cases h1 : walk node d c1.toNat (p ++ [true]) with
        | none => simp [h0, h1] at hw
        | some os => exact ⟨d, zs, os, rfl, h0, h1, by simpa [h0, h1] using hw.symm⟩
    · rintro ⟨d', zs, os, hd, h0, h1, rfl⟩
      obtain rfl : d' = d := by omega
      simp [h0, h1]

/-- A walk that ends starts at a Leaf or at an Internal node. -/
theorem walk_cases {node : List Node} {d i : Nat} {p : List Digit} {l : List (Symbol × List Digit)}
    (h : walk node d i p = some l) :
    (∃ sym f, node[i]? = some (.leaf sym f) ∧ l = [(sym, p)]) ∨
    ∃ c0 c1 f d' zeros ones, node[i]? = some (.internal c0 c1 f) ∧ d = d' + 1 ∧
      walk node d' c0.toNat (p ++ [false]) = some zeros ∧
      walk node d' c1.toNat (p ++ [true]) = some ones ∧ l = zeros ++ ones := by
  cases hn : node[i]? with
  | none => rw [walk.eq_def] at h; simp [hn] at h
  | some x =>
    cases x with
    | leaf sym f => rw [walk_leaf hn] at h; exact .inl ⟨sym, f, rfl, by simpa using h.symm⟩
    | internal c0 c1 f =>
      obtain ⟨d', zs, os, h1, h2, h3, h4⟩ := (walk_internal_iff hn).mp h
      exact .inr ⟨c0, c1, f, d', zs, os, rfl, h1, h2, h3, h4⟩

/-! ### The codes of a walk -/

/-- The codes of a walk are the paths to the Leaves, after the prefix (R121). -/
theorem mem_walk_iff {node : List Node} {d i : Nat} {p : List Digit} {l : List (Symbol × List Digit)}
    (h : walk node d i p = some l) (x : Symbol) (c : List Digit) :
    (x, c) ∈ l ↔ ∃ q, c = p ++ q ∧ PathTo node i q x := by
  induction d generalizing i p l c with
  | zero =>
    rcases walk_cases h with ⟨sym, f, hn, rfl⟩ | ⟨_, _, _, d', _, _, _, hd, _⟩
    · constructor
      · intro hx
        simp only [List.mem_singleton, Prod.mk.injEq] at hx
        exact ⟨[], by simp [hx.2], hx.1 ▸ .leaf hn⟩
      · rintro ⟨q, rfl, hq⟩
        cases hq with
        | leaf h' => rw [hn] at h'; simp at h'; simp [h'.1]
        | zero h' => rw [hn] at h'; simp at h'
        | one h' => rw [hn] at h'; simp at h'
    · omega
  | succ d ih =>
    rcases walk_cases h with ⟨sym, f, hn, rfl⟩ | ⟨c0, c1, f, d', zs, os, hn, hd, h0, h1, rfl⟩
    · constructor
      · intro hx
        simp only [List.mem_singleton, Prod.mk.injEq] at hx
        exact ⟨[], by simp [hx.2], hx.1 ▸ .leaf hn⟩
      · rintro ⟨q, rfl, hq⟩
        cases hq with
        | leaf h' => rw [hn] at h'; simp at h'; simp [h'.1]
        | zero h' => rw [hn] at h'; simp at h'
        | one h' => rw [hn] at h'; simp at h'
    · obtain rfl : d' = d := by omega
      rw [List.mem_append, ih h0, ih h1]
      constructor
      · rintro (⟨q, rfl, hq⟩ | ⟨q, rfl, hq⟩)
        · exact ⟨false :: q, by simp, .zero hn hq⟩
        · exact ⟨true :: q, by simp, .one hn hq⟩
      · rintro ⟨q, rfl, hq⟩
        cases hq with
        | leaf h' => rw [hn] at h'; simp at h'
        | zero h' hq' =>
          rw [hn] at h'; simp only [Option.some.injEq, Node.internal.injEq] at h'
          obtain ⟨rfl, rfl, rfl⟩ := h'
          exact .inl ⟨_, by simp, hq'⟩
        | one h' hq' =>
          rw [hn] at h'; simp only [Option.some.injEq, Node.internal.injEq] at h'
          obtain ⟨rfl, rfl, rfl⟩ := h'
          exact .inr ⟨_, by simp, hq'⟩

theorem walk_prefix {node : List Node} {d i : Nat} {p : List Digit} {l : List (Symbol × List Digit)}
    (h : walk node d i p = some l) {x : Symbol × List Digit} (hx : x ∈ l) : p <+: x.2 := by
  obtain ⟨q, hq, _⟩ := (mem_walk_iff h x.1 x.2).mp hx
  exact ⟨q, hq.symm⟩

/-- A code of a walk has at most `d` digits after the prefix. -/
theorem walk_length_le {node : List Node} {d i : Nat} {p : List Digit} {l : List (Symbol × List Digit)}
    (h : walk node d i p = some l) {x : Symbol × List Digit} (hx : x ∈ l) : x.2.length ≤ p.length + d := by
  induction d generalizing i p l with
  | zero =>
    rcases walk_cases h with ⟨sym, f, hn, rfl⟩ | ⟨_, _, _, d', _, _, _, hd, _⟩
    · obtain rfl := List.mem_singleton.mp hx; simp
    · omega
  | succ d ih =>
    rcases walk_cases h with ⟨sym, f, hn, rfl⟩ | ⟨c0, c1, f, d', zs, os, hn, hd, h0, h1, rfl⟩
    · obtain rfl := List.mem_singleton.mp hx; simp
    · obtain rfl : d' = d := by omega
      rcases List.mem_append.mp hx with hx | hx
      · have := ih h0 hx; simp at this; omega
      · have := ih h1 hx; simp at this; omega

/-- Two paths that part at a position are not comparable. -/
theorem apart_of_branch {p c0 c1 : List Digit} (h0 : p ++ [false] <+: c0) (h1 : p ++ [true] <+: c1) :
    Apart c0 c1 := by
  obtain ⟨q0, rfl⟩ := h0
  obtain ⟨q1, rfl⟩ := h1
  constructor <;> rintro ⟨r, hr⟩ <;> simp [List.append_assoc] at hr

/-- Prefix-freedom follows from the walk alone (R122 (c)). -/
theorem walk_apart {node : List Node} {d i : Nat} {p : List Digit} {l : List (Symbol × List Digit)}
    (h : walk node d i p = some l) : l.Pairwise fun a b => Apart a.2 b.2 := by
  induction d generalizing i p l with
  | zero =>
    rcases walk_cases h with ⟨sym, f, hn, rfl⟩ | ⟨_, _, _, d', _, _, _, hd, _⟩
    · simp
    · omega
  | succ d ih =>
    rcases walk_cases h with ⟨sym, f, hn, rfl⟩ | ⟨c0, c1, f, d', zs, os, hn, hd, h0, h1, rfl⟩
    · simp
    · obtain rfl : d' = d := by omega
      rw [List.pairwise_append]
      exact ⟨ih h0, ih h1, fun a ha b hb => apart_of_branch (walk_prefix h0 ha) (walk_prefix h1 hb)⟩

/-- Completeness: `d` further digits always pass the end of some code (R122 (d)). -/
theorem walk_complete {node : List Node} {d i : Nat} {p : List Digit} {l : List (Symbol × List Digit)}
    (h : walk node d i p = some l) (ds : List Digit) (hd : d ≤ ds.length) :
    ∃ x ∈ l, x.2 <+: p ++ ds := by
  induction d generalizing i p l ds with
  | zero =>
    rcases walk_cases h with ⟨sym, f, hn, rfl⟩ | ⟨_, _, _, d', _, _, _, hd, _⟩
    · exact ⟨(sym, p), by simp, List.prefix_append _ _⟩
    · omega
  | succ d ih =>
    rcases walk_cases h with ⟨sym, f, hn, rfl⟩ | ⟨c0, c1, f, d', zs, os, hn, hd', h0, h1, rfl⟩
    · exact ⟨(sym, p), by simp, List.prefix_append _ _⟩
    · obtain rfl : d' = d := by omega
      cases ds with
      | nil => simp at hd
      | cons b ds =>
        have hd2 : d' ≤ ds.length := by simpa using hd
        cases b with
        | false =>
          obtain ⟨x, hx, hp⟩ := ih h0 ds hd2
          exact ⟨x, List.mem_append_left _ hx, by simpa using hp⟩
        | true =>
          obtain ⟨x, hx, hp⟩ := ih h1 ds hd2
          exact ⟨x, List.mem_append_right _ hx, by simpa using hp⟩

/-! ### The walk on a valid tree -/

theorem internalOkAt_iff {node : List Node} {i : Nat} :
    internalOkAt node i = true ↔ ∃ c0 c1 f, node[i]? = some (.internal c0 c1 f) ∧ c0 ≠ c1 ∧
      c0.toNat < i ∧ c1.toNat < i ∧ f.toNat = freqAt node c0.toNat + freqAt node c1.toNat := by
  unfold internalOkAt
  cases h : node[i]? with
  | none => simp
  | some x => cases x <;> simp [and_assoc]

theorem isLeafAt_iff {node : List Node} {i : Nat} :
    isLeafAt node i = true ↔ ∃ sym f, node[i]? = some (.leaf sym f) := by
  unfold isLeafAt
  cases h : node[i]? with
  | none => simp
  | some x => cases x <;> simp

/-- From node `i` of a valid tree the walk ends within `i - n + 1` digits: a path passes ever smaller
Internal nodes (R26 (e)). -/
theorem ValidTree.walk_isSome {n : Nat} {node : List Node} {root : NodeIdx} (h : ValidTree n node root)
    (d i : Nat) (p : List Digit) (hi : i < 2 * n - 1) (hd : i < n + d) : ∃ l, walk node d i p = some l := by
  induction d generalizing i p with
  | zero =>
    obtain ⟨sym, f, hn⟩ := isLeafAt_iff.mp (h.leaves i hd)
    exact ⟨_, walk_leaf hn⟩
  | succ d ih =>
    by_cases hin : i < n
    · obtain ⟨sym, f, hn⟩ := isLeafAt_iff.mp (h.leaves i hin)
      exact ⟨_, walk_leaf hn⟩
    · obtain ⟨c0, c1, f, hn, _, h0, h1, _⟩ := internalOkAt_iff.mp (h.internals i hi (by omega))
      obtain ⟨l0, hl0⟩ := ih c0.toNat (p ++ [false]) (by omega) (by omega)
      obtain ⟨l1, hl1⟩ := ih c1.toNat (p ++ [true]) (by omega) (by omega)
      exact ⟨l0 ++ l1, (walk_internal_iff hn).mpr ⟨d, l0, l1, rfl, hl0, hl1, rfl⟩⟩

/-- The symbols of the Leaves under node `i`, left to right, looking at most `d` nodes deep. -/
def symsUnder (node : List Node) : Nat → Nat → List Symbol
  | 0, _ => []
  | d + 1, i =>
    match node[i]? with
    | none => []
    | some (.leaf sym _) => [sym]
    | some (.internal c0 c1 _) => symsUnder node d c0.toNat ++ symsUnder node d c1.toNat

theorem walk_syms {node : List Node} {d i : Nat} {p : List Digit} {l : List (Symbol × List Digit)}
    (h : walk node d i p = some l) : l.map Prod.fst = symsUnder node (d + 1) i := by
  induction d generalizing i p l with
  | zero =>
    rcases walk_cases h with ⟨sym, f, hn, rfl⟩ | ⟨_, _, _, d', _, _, _, hd, _⟩
    · simp [symsUnder, hn]
    · omega
  | succ d ih =>
    rcases walk_cases h with ⟨sym, f, hn, rfl⟩ | ⟨c0, c1, f, d', zs, os, hn, hd, h0, h1, rfl⟩
    · simp [symsUnder, hn]
    · obtain rfl : d' = d := by omega
      rw [symsUnder, hn, List.map_append, ih h0, ih h1]

/-- How deep one looks does not matter, once it is deep enough. -/
theorem ValidTree.symsUnder_eq {n : Nat} {node : List Node} {root : NodeIdx} (h : ValidTree n node root)
    (d e i : Nat) (hi : i < 2 * n - 1) (hd : i < n + d) (he : i < n + e) :
    symsUnder node (d + 1) i = symsUnder node (e + 1) i := by
  obtain ⟨l, hl⟩ := h.walk_isSome d i [] hi hd
  obtain ⟨l', hl'⟩ := h.walk_isSome e i [] hi he
  clear hd he
  rw [← walk_syms hl, ← walk_syms hl']
  congr 1
  clear hi
  generalize ([] : List Digit) = p at hl hl'
  induction d generalizing e i p l l' with
  | zero =>
    rcases walk_cases hl with ⟨sym, f, hn, rfl⟩ | ⟨_, _, _, d', _, _, _, hd, _⟩
    · rw [walk_leaf hn] at hl'; simpa using hl'
    · omega
  | succ d ih =>
    rcases walk_cases hl with ⟨sym, f, hn, rfl⟩ | ⟨c0, c1, f, d', zs, os, hn, hd, h0, h1, rfl⟩
    · rw [walk_leaf hn] at hl'; simpa using hl'
    · obtain rfl : d' = d := by omega
      obtain ⟨e', zs', os', he', h0', h1', rfl⟩ := (walk_internal_iff hn).mp hl'
      rw [ih _ _ _ _ _ h0 h0', ih _ _ _ _ _ h1 h1']

/-- The nodes below `k` that are no child of a node below `k`: what `live` was when node `k` was made. -/
def liveList (node : List Node) (k : Nat) : List Nat :=
  (List.range k).filter fun i => i ∉ childIdxs (node.take k)

/-- The children of the nodes below `k` grow by the two of node `k`. -/
theorem childIdxs_take_succ {node : List Node} {k : Nat} {c0 c1 : NodeIdx} {f : Count}
    (h : node[k]? = some (.internal c0 c1 f)) :
    childIdxs (node.take (k + 1)) = childIdxs (node.take k) ++ [c0.toNat, c1.toNat] := by
  rw [List.take_add_one, h]
  simp [childIdxs]

theorem childIdxs_take_eq_nil {node : List Node} {n : Nat} (h : ∀ i < n, isLeafAt node i = true) (k : Nat)
    (hk : k ≤ n) : childIdxs (node.take k) = [] := by
  induction k with
  | zero => simp [childIdxs]
  | succ k ih =>
    obtain ⟨sym, f, hn⟩ := isLeafAt_iff.mp (h k (by omega))
    rw [List.take_add_one, hn, childIdxs_append, ih (by omega)]
    simp [childIdxs]

theorem leafSyms_take_eq {node : List Node} {n : Nat} (h : ∀ i < n, isLeafAt node i = true) (k : Nat)
    (hk : k ≤ n) :
    leafSyms (node.take k) = (List.range k).flatMap fun i => symsUnder node 1 i := by
  induction k with
  | zero => simp [leafSyms]
  | succ k ih =>
    obtain ⟨sym, f, hn⟩ := isLeafAt_iff.mp (h k (by omega))
    rw [List.take_add_one, hn, leafSyms_append, ih (by omega), List.range_succ, List.flatMap_append]
    simp [leafSyms, symsUnder, hn]

/-- The children of the whole table have no repetition. -/
theorem ValidTree.child_nodup {n : Nat} {node : List Node} {root : NodeIdx} (h : ValidTree n node root) :
    (childIdxs node).Nodup := by
  rw [List.nodup_iff_count_le_one]
  intro i
  by_cases hi : i < 2 * n - 2
  · rw [h.one_parent i hi]
  · by_cases hc : i ∈ childIdxs node
    · obtain ⟨p, c0, c1, f, h1, h2⟩ := mem_childIdxs_iff.mp hc
      have hp : p < node.length := (List.getElem?_eq_some_iff.mp h1).1
      have hsz := h.size
      have hn : n ≤ p := by
        by_contra hlt
        obtain ⟨sym, g, hl⟩ := isLeafAt_iff.mp (h.leaves p (by omega))
        rw [hl] at h1; simp at h1
      obtain ⟨a, b, g, h3, _, h4, h5, _⟩ := internalOkAt_iff.mp (h.internals p (by omega) hn)
      rw [h3] at h1
      simp only [Option.some.injEq, Node.internal.injEq] at h1
      obtain ⟨rfl, rfl, rfl⟩ := h1
      omega
    · simp [List.count_eq_zero_of_not_mem hc]

/-- The Leaves under the live nodes are all the Leaves, at every stage of the merge. -/
theorem ValidTree.live_syms {n : Nat} {node : List Node} {root : NodeIdx} (h : ValidTree n node root)
    (j : Nat) (hj : n + j ≤ 2 * n - 1) :
    ((liveList node (n + j)).flatMap fun i => symsUnder node (j + 1) i).Perm (leafSyms node) := by
  have hsz := h.size
  induction j with
  | zero =>
    have hnil := childIdxs_take_eq_nil h.leaves n le_rfl
    have hrest : ∀ k, n + k ≤ 2 * n - 1 → leafSyms (node.take (n + k)) = leafSyms (node.take n) := by
      intro k hk
      induction k with
      | zero => rfl
      | succ k ih =>
        obtain ⟨c0, c1, f, hn, _⟩ := internalOkAt_iff.mp (h.internals (n + k) (by omega) (by omega))
        rw [← add_assoc, List.take_add_one, hn, leafSyms_append, ih (by omega)]
        simp [leafSyms]
    have hall : leafSyms node = leafSyms (node.take n) := by
      have h1 := h.some_leaf
      rw [← hrest (n - 1) (by omega), show n + (n - 1) = node.length by omega, List.take_length]
    simp only [Nat.add_zero]
    rw [hall, leafSyms_take_eq h.leaves n le_rfl, liveList, hnil]
    simp
  | succ j ih =>
    have ih := ih (by omega)
    obtain ⟨c0, c1, f, hn, hne, h0, h1, _⟩ := internalOkAt_iff.mp (h.internals (n + j) (by omega) (by omega))
    have hct := childIdxs_take_succ hn
    have hsub : (childIdxs (node.take (n + j + 1))).Nodup := by
      have := h.child_nodup
      rw [← List.take_append_drop (n + j + 1) node, childIdxs_append] at this
      exact (List.nodup_append.mp this).1
    rw [hct] at hsub
    have hdis := (List.nodup_append.mp hsub).2.2
    have hc0 : c0.toNat ∉ childIdxs (node.take (n + j)) := fun hc => hdis _ hc _ (by simp) rfl
    have hc1 : c1.toNat ∉ childIdxs (node.take (n + j)) := fun hc => hdis _ hc _ (by simp) rfl
    have hne' : c0.toNat ≠ c1.toNat := fun e => hne (BitVec.eq_of_toNat_eq e)
    have hk : n + j ∉ childIdxs (node.take (n + j + 1)) := by
      rw [hct]
      intro hc
      simp only [List.mem_append, List.mem_cons, List.not_mem_nil, or_false] at hc
      rcases hc with hc | hc | hc
      · obtain ⟨p, a, b, g, h2, h3⟩ := mem_childIdxs_iff.mp hc
        have hp := (List.getElem?_eq_some_iff.mp h2).1
        simp only [List.length_take] at hp
        rw [List.getElem?_take, if_pos (by omega)] at h2
        by_cases hpn : p < n
        · obtain ⟨sym, g', hl⟩ := isLeafAt_iff.mp (h.leaves p hpn)
          rw [hl] at h2; simp at h2
        · obtain ⟨a', b', g', h4, _, h5, h6, _⟩ := internalOkAt_iff.mp (h.internals p (by omega) (by omega))
          rw [h4] at h2
          simp only [Option.some.injEq, Node.internal.injEq] at h2
          obtain ⟨rfl, rfl, rfl⟩ := h2
          omega
      · omega
      · omega
    have hperm : (liveList node (n + j)).Perm (c0.toNat :: c1.toNat ::
        (List.range (n + j)).filter fun i => i ∉ childIdxs (node.take (n + j + 1))) := by
      rw [List.perm_ext_iff_of_nodup]
      · intro i
        simp only [liveList, hct, List.mem_filter, List.mem_range, List.mem_cons, List.mem_append,
          List.not_mem_nil, or_false, decide_eq_true_eq, not_or]
        constructor
        · rintro ⟨a, b⟩; by_cases e0 : i = c0.toNat
          · exact .inl e0
          · by_cases e1 : i = c1.toNat
            · exact .inr (.inl e1)
            · exact .inr (.inr ⟨a, b, e0, e1⟩)
        · rintro (rfl | rfl | ⟨a, b, _⟩)
          · exact ⟨h0, hc0⟩
          · exact ⟨h1, hc1⟩
          · exact ⟨a, b⟩
      · exact List.nodup_range.filter _
      · simp only [List.nodup_cons, List.mem_cons, List.mem_filter, hct, List.mem_append, not_or]
        refine ⟨⟨hne', fun hc => ?_⟩, fun hc => ?_, List.nodup_range.filter _⟩
        · simp at hc
        · simp at hc
    have hlive : liveList node (n + (j + 1)) =
        ((List.range (n + j)).filter fun i => i ∉ childIdxs (node.take (n + j + 1))) ++ [n + j] := by
      rw [liveList, ← add_assoc, List.range_succ, List.filter_append]
      congr 1
      simp [hk]
    have hdeep : ∀ i, i < n + j → symsUnder node (j + 1 + 1) i = symsUnder node (j + 1) i :=
      fun i hi => h.symsUnder_eq (j + 1) j i (by omega) (by omega) hi
    have hlast : symsUnder node (j + 1 + 1) (n + j) =
        symsUnder node (j + 1) c0.toNat ++ symsUnder node (j + 1) c1.toNat := by
      rw [symsUnder, hn]
    rw [hlive, List.flatMap_append]
    have hold : ((List.range (n + j)).filter fun i => i ∉ childIdxs (node.take (n + j + 1))).flatMap
        (fun i => symsUnder node (j + 1 + 1) i) =
        ((List.range (n + j)).filter fun i => i ∉ childIdxs (node.take (n + j + 1))).flatMap
        (fun i => symsUnder node (j + 1) i) := by
      apply List.flatMap_congr
      intro i hi
      exact hdeep i (List.mem_range.mp (List.mem_filter.mp hi).1)
    rw [hold]
    simp only [List.flatMap_cons, List.flatMap_nil, List.append_nil, hlast]
    refine List.Perm.trans ?_ ((hperm.flatMap_right _).symm.trans ih)
    simp only [List.flatMap_cons]
    rw [← List.append_assoc (symsUnder _ _ _)]
    exact List.perm_append_comm

/-- The walk from ROOT of a valid tree visits every Leaf exactly once (R122 (a)). -/
theorem ValidTree.root_syms {n : Nat} {node : List Node} {root : NodeIdx} (h : ValidTree n node root)
    {d : Nat} (hd : root.toNat < n + d) {l : List (Symbol × List Digit)}
    (hl : walk node d root.toNat [] = some l) : (l.map Prod.fst).Perm (leafSyms node) := by
  have h1 := h.some_leaf
  have hr := h.root_last
  have hsz := h.size
  have hlive : liveList node (n + (n - 1)) = [2 * n - 2] := by
    rw [liveList, show n + (n - 1) = 2 * n - 2 + 1 by omega, List.range_succ, List.filter_append]
    have e : node.take (2 * n - 2 + 1) = node := by rw [show 2 * n - 2 + 1 = node.length by omega, List.take_length]
    have hlast : 2 * n - 2 ∉ childIdxs node := by
      intro hc
      obtain ⟨p, a, b, g, h2, h3⟩ := mem_childIdxs_iff.mp hc
      have hp := (List.getElem?_eq_some_iff.mp h2).1
      by_cases hpn : p < n
      · obtain ⟨sym, g', hl⟩ := isLeafAt_iff.mp (h.leaves p hpn)
        rw [hl] at h2; simp at h2
      · obtain ⟨a', b', g', h4, _, h5, h6, _⟩ := internalOkAt_iff.mp (h.internals p (by omega) (by omega))
        rw [h4] at h2
        simp only [Option.some.injEq, Node.internal.injEq] at h2
        obtain ⟨rfl, rfl, rfl⟩ := h2
        omega
    have hnil : (List.range (2 * n - 2)).filter (fun i => decide (i ∉ childIdxs (node.take (2 * n - 2 + 1)))) = [] := by
      rw [List.filter_eq_nil_iff, e]
      intro i hi
      have := h.one_parent i (List.mem_range.mp hi)
      have hm : i ∈ childIdxs node := List.count_pos_iff.mp (by omega)
      simpa using hm
    rw [hnil, e]
    simp [hlast]
  have key := h.live_syms (n - 1) (by omega)
  rw [hlive] at key
  simp only [List.flatMap_cons, List.flatMap_nil, List.append_nil] at key
  rw [walk_syms hl, hr, h.symsUnder_eq d (n - 1) (2 * n - 2) (by omega) (by omega) (by omega)]
  exact key

/-- GEN's list on a valid tree of two or more Leaves: the walk from ROOT, which ends (R120). -/
theorem ValidTree.genCodes_eq {n : Nat} {node : List Node} {root : NodeIdx} (h : ValidTree n node root)
    (h2 : 2 ≤ n) : ∃ l, walk node (n - 1) root.toNat [] = some l ∧ walk node 15 root.toNat [] = some l ∧
      genCodes node root = some (l, false) := by
  have hr := h.root_last
  have hroom : n ≤ 16 := h.room
  obtain ⟨l, hl⟩ := h.walk_isSome (n - 1) root.toNat [] (by omega) (by omega)
  obtain ⟨l', hl'⟩ := h.walk_isSome 15 root.toNat [] (by omega) (by omega)
  have hll : l = l' := by
    have h1 := h.symsUnder_eq (n - 1) 15 root.toNat (by omega) (by omega) (by omega)
    clear hr
    generalize ([] : List Digit) = p at hl hl'
    clear h1
    revert hl hl'
    generalize root.toNat = i
    generalize n - 1 = d
    generalize 15 = e
    intro hl hl'
    induction d generalizing e i p l l' with
    | zero =>
      rcases walk_cases hl with ⟨sym, f, hn, rfl⟩ | ⟨_, _, _, d', _, _, _, hd, _⟩
      · rw [walk_leaf hn] at hl'; simpa using hl'
      · omega
    | succ d ih =>
      rcases walk_cases hl with ⟨sym, f, hn, rfl⟩ | ⟨c0, c1, f, d', zs, os, hn, hd, h0, h1, rfl⟩
      · rw [walk_leaf hn] at hl'; simpa using hl'
      · obtain rfl : d' = d := by omega
        obtain ⟨e', zs', os', he', h0', h1', rfl⟩ := (walk_internal_iff hn).mp hl'
        rw [ih _ _ _ _ _ h0 h0', ih _ _ _ _ _ h1 h1']
  subst hll
  refine ⟨l, hl, hl', ?_⟩
  obtain ⟨c0, c1, f, hn, _⟩ := internalOkAt_iff.mp (h.internals root.toNat (by omega) (by omega))
  have : walk node Config.lmax root.toNat [] = some l := hl'
  simp [genCodes, hn, this]

end Sys2Proof.Machine
end

