-- ==== Sys2Proof/Laws/Huffman.lean ====
section
/-! SUPPORT. Why greedy merging is optimal (41_tree_builder.md R114 (d)): first over lists of (weight,
depth) pairs whose depths satisfy Kraft's inequality, then for the tree of BUILD. -/

namespace Sys2Proof.Machine

open Sys2Proof

/-! ### Weights and depths -/

/-- The sum of weight times depth. -/
def cost : List (Nat × Nat) → Nat
  | [] => 0
  | x :: p => x.1 * x.2 + cost p

/-- The Kraft sum, scaled by `2 ^ n`. -/
def kraft (n : Nat) : List (Nat × Nat) → Nat
  | [] => 0
  | x :: p => 2 ^ (n - x.2) + kraft n p

theorem cost_perm {p q : List (Nat × Nat)} (h : p.Perm q) : cost p = cost q := by
  induction h with
  | nil => rfl
  | cons x _ ih => simp [cost, ih]
  | swap x y l => simp [cost]; omega
  | trans _ _ h1 h2 => exact h1.trans h2

theorem kraft_perm {n} {p q : List (Nat × Nat)} (h : p.Perm q) : kraft n p = kraft n q := by
  induction h with
  | nil => rfl
  | cons x _ ih => simp [kraft, ih]
  | swap x y l => simp [kraft]; omega
  | trans _ _ h1 h2 => exact h1.trans h2

theorem cost_append (p q) : cost (p ++ q) = cost p + cost q := by
  induction p with
  | nil => simp [cost]
  | cons x p ih => simp [cost, ih]; omega

theorem kraft_append {n} (p q) : kraft n (p ++ q) = kraft n p + kraft n q := by
  induction p with
  | nil => simp [kraft]
  | cons x p ih => simp [kraft, ih]; omega

theorem kraft_succ {n} {p : List (Nat × Nat)} (h : ∀ x ∈ p, x.2 ≤ n) : kraft (n + 1) p = 2 * kraft n p := by
  induction p with
  | nil => rfl
  | cons x p ih =>
    have hx := h x (by simp)
    rw [kraft, kraft, ih (fun y hy => h y (by simp [hy])), show n + 1 - x.2 = (n - x.2) + 1 by omega, pow_succ]
    omega

theorem kraft_pos {n} {p : List (Nat × Nat)} : p.length ≤ kraft n p := by
  induction p with
  | nil => simp
  | cons x p ih => have := Nat.one_le_two_pow (n := n - x.2); simp [kraft]; omega

/-- No depth exceeds `n`, and the Kraft sum is at most 1. -/
def Fits (n : Nat) (p : List (Nat × Nat)) : Prop := (∀ x ∈ p, x.2 ≤ n) ∧ kraft n p ≤ 2 ^ n

theorem Fits.perm {n p q} (h : Fits n p) (hp : p.Perm q) : Fits n q :=
  ⟨fun x hx => h.1 x (hp.mem_iff.mpr hx), by rw [← kraft_perm hp]; exact h.2⟩

/-- Any bound on the depths will do. -/
theorem Fits.lower {n m} {p} (h : Fits n p) (hm : m ≤ n) (hd : ∀ x ∈ p, x.2 ≤ m) : Fits m p := by
  induction n with
  | zero => obtain rfl : m = 0 := by omega
            exact h
  | succ n ih =>
    by_cases e : m = n + 1
    · subst e; exact h
    · have hd' : ∀ x ∈ p, x.2 ≤ n := fun x hx => by have := hd x hx; omega
      have := h.2
      rw [kraft_succ hd', pow_succ] at this
      exact ih ⟨hd', by omega⟩ (by omega)

/-- A lighter weight may take the place of a heavier one on the deepest level. -/
theorem Fits.swap {n x dx w} {p1 p2 p3 : List (Nat × Nat)} (h : Fits n (p1 ++ (x, dx) :: (p2 ++ (w, n) :: p3)))
    (hxw : x ≤ w) : Fits n (p1 ++ (x, n) :: (p2 ++ (w, dx) :: p3)) ∧
      cost (p1 ++ (x, n) :: (p2 ++ (w, dx) :: p3)) ≤ cost (p1 ++ (x, dx) :: (p2 ++ (w, n) :: p3)) := by
  have hdx : dx ≤ n := h.1 (x, dx) (by simp)
  refine ⟨⟨?_, ?_⟩, ?_⟩
  · intro y hy
    simp only [List.mem_append, List.mem_cons] at hy
    rcases hy with hy | rfl | hy | rfl | hy
    · exact h.1 y (by simp [hy])
    · exact le_rfl
    · exact h.1 y (by simp [hy])
    · exact hdx
    · exact h.1 y (by simp [hy])
  · have := h.2
    simp only [kraft_append, kraft] at this ⊢; omega
  · simp only [cost_append, cost]
    obtain ⟨d, rfl⟩ := Nat.exists_eq_add_of_le hdx
    obtain ⟨e, rfl⟩ := Nat.exists_eq_add_of_le hxw
    nlinarith

/-- A weight that stands alone on the deepest level may rise: the Kraft sum is even without it. -/
theorem Fits.lift {n w} {p1 p2 : List (Nat × Nat)} (h : Fits (n + 1) (p1 ++ (w, n + 1) :: p2))
    (h1 : ∀ x ∈ p1, x.2 ≤ n) (h2 : ∀ x ∈ p2, x.2 ≤ n) : Fits n (p1 ++ (w, n) :: p2) ∧
      cost (p1 ++ (w, n) :: p2) ≤ cost (p1 ++ (w, n + 1) :: p2) := by
  refine ⟨⟨?_, ?_⟩, ?_⟩
  · intro y hy
    simp only [List.mem_append, List.mem_cons] at hy
    rcases hy with hy | rfl | hy
    · exact h1 y hy
    · exact le_rfl
    · exact h2 y hy
  · have := h.2
    simp only [kraft_append, kraft, kraft_succ h1, kraft_succ h2, pow_succ, Nat.sub_self, pow_zero] at this ⊢
    omega
  · simp only [cost_append, cost]; nlinarith

/-- The two least weights may stand together on the deepest level. -/
theorem exists_deepest {n a b da db} {q : List (Nat × Nat)} (h : Fits n ((a, da) :: (b, db) :: q)) (hab : a ≤ b)
    (hb : ∀ y ∈ q, b ≤ y.1) : ∃ d q', q'.map Prod.fst = q.map Prod.fst ∧
      Fits (d + 1) ((a, d + 1) :: (b, d + 1) :: q') ∧
      cost ((a, d + 1) :: (b, d + 1) :: q') ≤ cost ((a, da) :: (b, db) :: q) := by
  induction n generalizing da db q with
  | zero =>
    have h1 := h.2
    have := kraft_pos (n := 0) (p := (a, da) :: (b, db) :: q)
    simp at this h1; omega
  | succ n ih =>
    have up : ∀ {da' db' q'}, q'.map Prod.fst = q.map Prod.fst → Fits n ((a, da') :: (b, db') :: q') →
        cost ((a, da') :: (b, db') :: q') ≤ cost ((a, da) :: (b, db) :: q) → ∃ d q', q'.map Prod.fst = q.map Prod.fst ∧
      Fits (d + 1) ((a, d + 1) :: (b, d + 1) :: q') ∧
      cost ((a, d + 1) :: (b, d + 1) :: q') ≤ cost ((a, da) :: (b, db) :: q) := by
      intro da' db' q' hq hf hc
      obtain ⟨d, q'', h1, h2, h3⟩ := ih hf (fun y hy => by
        have : y.1 ∈ q.map Prod.fst := hq ▸ List.mem_map_of_mem hy
        obtain ⟨z, hz, e⟩ := List.mem_map.mp this
        rw [← e]; exact hb z hz)
      exact ⟨d, q'', h1.trans hq, h2, h3.trans hc⟩
    have hda : da ≤ n + 1 := h.1 (a, da) (by simp)
    have hdb : db ≤ n + 1 := h.1 (b, db) (by simp)
    have hq : ∀ x ∈ q, x.2 ≤ n + 1 := fun x hx => h.1 x (by simp [hx])
    by_cases e : da = n + 1 ∧ db = n + 1
    · obtain ⟨rfl, rfl⟩ := e
      exact ⟨n, q, rfl, h, le_rfl⟩
    have raiseB : ∀ q : List (Nat × Nat), ∀ db w, Fits (n + 1) ((a, n + 1) :: (b, db) :: q) → (w, n + 1) ∈ q → b ≤ w →
        ∃ q', q'.map Prod.fst = q.map Prod.fst ∧ Fits (n + 1) ((a, n + 1) :: (b, n + 1) :: q') ∧
          cost ((a, n + 1) :: (b, n + 1) :: q') ≤ cost ((a, n + 1) :: (b, db) :: q) := by
      intro q db w hf hw hbw
      obtain ⟨q1, q2, rfl⟩ := List.append_of_mem hw
      obtain ⟨s1, s2⟩ := Fits.swap (p1 := [(a, n + 1)]) hf hbw
      exact ⟨q1 ++ (w, db) :: q2, by simp, s1, s2⟩
    by_cases hex : ∃ w, (w, n + 1) ∈ q
    · obtain ⟨w, hw⟩ := hex
      have hbw := hb _ hw
      by_cases e1 : da = n + 1
      · subst e1
        obtain ⟨q', h1, h2, h3⟩ := raiseB q db w h hw hbw
        exact ⟨n, q', h1, h2, h3⟩
      · obtain ⟨q1, q2, rfl⟩ := List.append_of_mem hw
        by_cases e2 : db = n + 1
        · subst e2
          obtain ⟨s1, s2⟩ := Fits.swap (p1 := []) (p2 := (b, n + 1) :: q1) h (hab.trans hbw)
          exact ⟨n, q1 ++ (w, da) :: q2, by simp, s1, s2⟩
        · by_cases hex2 : ∃ w', (w', n + 1) ∈ q1 ++ q2
          · obtain ⟨w', hw'⟩ := hex2
            obtain ⟨s1, s2⟩ := Fits.swap (p1 := []) (p2 := (b, db) :: q1) h (hab.trans hbw)
            have hin : (w', n + 1) ∈ q1 ++ (w, da) :: q2 := by
              rcases List.mem_append.mp hw' with h | h <;> simp [h]
            have hbw' : b ≤ w' := hb (w', n + 1) (by rcases List.mem_append.mp hw' with h | h <;> simp [h])
            obtain ⟨q', h1, h2, h3⟩ := raiseB (q1 ++ (w, da) :: q2) db w' s1 hin hbw'
            exact ⟨n, q', by rw [h1]; simp, h2, h3.trans s2⟩
          · have hlt : ∀ x ∈ q1 ++ q2, x.2 ≤ n := by
              intro x hx
              have h1 : x.2 ≤ n + 1 := hq x (by rcases List.mem_append.mp hx with h | h <;> simp [h])
              have h2 : x.2 ≠ n + 1 := fun e => hex2 ⟨x.1, by rw [← e]; exact hx⟩
              omega
            obtain ⟨s1, s2⟩ := Fits.lift (p1 := (a, da) :: (b, db) :: q1) h (by
              intro x hx
              simp only [List.mem_cons] at hx
              rcases hx with rfl | rfl | hx
              · show da ≤ n; omega
              · show db ≤ n; omega
              · exact hlt x (by simp [hx])) (fun x hx => hlt x (by simp [hx]))
            exact up (by simp) s1 s2
    · have hlt : ∀ x ∈ q, x.2 ≤ n := by
        intro x hx
        have h1 := hq x hx
        have h2 : x.2 ≠ n + 1 := fun e => hex ⟨x.1, by rw [← e]; exact hx⟩
        omega
      by_cases e1 : da = n + 1
      · subst e1
        obtain ⟨s1, s2⟩ := Fits.lift (p1 := []) h (by simp) (by
          intro x hx
          rcases List.mem_cons.mp hx with rfl | hx
          · show db ≤ n; omega
          · exact hlt x hx)
        exact up rfl s1 s2
      · by_cases e2 : db = n + 1
        · subst e2
          obtain ⟨s1, s2⟩ := Fits.lift (p1 := [(a, da)]) h (by
            intro x hx; obtain rfl := List.mem_singleton.mp hx; show da ≤ n; omega) hlt
          exact up rfl s1 s2
        · refine up rfl (h.lower (Nat.le_succ n) ?_) le_rfl
          intro x hx
          simp only [List.mem_cons] at hx
          rcases hx with rfl | rfl | hx
          · show da ≤ n; omega
          · show db ≤ n; omega
          · exact hlt x hx

/-- A list whose images are a permutation of `l` can be put in the order of `l`. -/
theorem perm_of_map {α β : Type} {f : α → β} {p : List α} {l : List β} (h : (p.map f).Perm l) :
    ∃ p', p.Perm p' ∧ p'.map f = l := by
  induction l generalizing p with
  | nil => exact ⟨[], by simpa using h, rfl⟩
  | cons b l ih =>
    obtain ⟨x, hx, rfl⟩ := List.mem_map.mp (h.mem_iff.mpr (List.mem_cons_self))
    obtain ⟨p1, p2, rfl⟩ := List.append_of_mem hx
    have hp : (p1 ++ x :: p2).Perm (x :: (p1 ++ p2)) := List.perm_middle
    obtain ⟨p', h1, h2⟩ := ih (p := p1 ++ p2) ((((hp.map f).symm.trans h)).cons_inv)
    exact ⟨x :: p', hp.trans (h1.cons x), by simp [h2]⟩

/-- `Greedy ws c`: merging the two least weights until one is left costs `c` in all. -/
inductive Greedy : List Nat → Nat → Prop where
  | one (w : Nat) : Greedy [w] 0
  | merge {ws r : List Nat} {a b c : Nat} (hp : ws.Perm (a :: b :: r)) (hab : a ≤ b) (hb : ∀ y ∈ r, b ≤ y)
      (h : Greedy ((a + b) :: r) c) : Greedy ws (a + b + c)

theorem Greedy.perm {ws ws' : List Nat} {c : Nat} (h : Greedy ws c) (hp : ws.Perm ws') : Greedy ws' c := by
  cases h with
  | one w => rw [List.perm_singleton.mp hp.symm]; exact .one w
  | merge h1 h2 h3 h4 => exact .merge (hp.symm.trans h1) h2 h3 h4

/-- Whatever the depths, they cost at least what greedy merging costs. -/
theorem Greedy.le_cost {ws : List Nat} {c : Nat} (h : Greedy ws c) {n} {p : List (Nat × Nat)}
    (hp : (p.map Prod.fst).Perm ws) (hf : Fits n p) : c ≤ cost p := by
  induction h generalizing n p with
  | one w => exact Nat.zero_le _
  | @merge ws r a b c hw hab hb _ ih =>
    have hp2 := hp.trans hw
    obtain ⟨p', hpp, hmap⟩ : ∃ p', p.Perm p' ∧ p'.map Prod.fst = a :: b :: r := by
      exact perm_of_map hp2
    match p', hmap with
    | (x, da) :: (y, db) :: q, hmap =>
      simp only [List.map_cons, List.cons.injEq] at hmap
      obtain ⟨rfl, rfl, rfl⟩ := hmap
      obtain ⟨d, q', h1, h2, h3⟩ := exists_deepest (hf.perm hpp) hab (fun z hz => hb _ (List.mem_map_of_mem hz))
      have hf' : Fits (d + 1) ((x + y, d) :: q') := by
        refine ⟨?_, ?_⟩
        · intro z hz
          rcases List.mem_cons.mp hz with rfl | hz
          · exact Nat.le_succ d
          · exact h2.1 z (by simp [hz])
        · have := h2.2
          simp only [kraft, Nat.sub_self, pow_zero, Nat.add_sub_cancel_left] at this ⊢
          omega
      have := ih (p := (x + y, d) :: q') (by simp [h1]) hf'
      rw [cost_perm hpp]
      refine le_trans ?_ h3
      simp only [cost] at this ⊢
      nlinarith

/-! ### Trees as weights and depths -/

/-- The Leaves of a tree whose root stands at depth `d`, as (weight, depth) pairs, left to right. -/
def CodeTree.depths (w : Symbol → Nat) (d : Nat) : CodeTree → List (Nat × Nat)
  | .leaf sym => [(w sym, d)]
  | .fork a b => a.depths w (d + 1) ++ b.depths w (d + 1)

theorem CodeTree.cost_depths (w : Symbol → Nat) (d : Nat) (T : CodeTree) :
    cost (T.depths w d) = T.costFrom w d := by
  induction T generalizing d with
  | leaf sym => simp [depths, costFrom, cost]
  | fork a b iha ihb => simp [depths, costFrom, cost_append, iha, ihb]

theorem CodeTree.map_fst_depths (w : Symbol → Nat) (d : Nat) (T : CodeTree) :
    (T.depths w d).map Prod.fst = T.syms.map w := by
  induction T generalizing d with
  | leaf sym => rfl
  | fork a b iha ihb => simp [depths, syms, iha, ihb]

/-- The depths of a full binary tree meet Kraft's inequality with equality. -/
theorem CodeTree.fits_depths (w : Symbol → Nat) (T : CodeTree) :
    ∃ h, ∀ d n, d + h ≤ n → (∀ x ∈ T.depths w d, x.2 ≤ n) ∧ kraft n (T.depths w d) = 2 ^ (n - d) := by
  induction T with
  | leaf sym => exact ⟨0, fun d n hn => ⟨by simp [depths]; omega, by simp [depths, kraft]⟩⟩
  | fork a b iha ihb =>
    obtain ⟨ha, iha⟩ := iha
    obtain ⟨hb, ihb⟩ := ihb
    refine ⟨max ha hb + 1, fun d n hn => ?_⟩
    obtain ⟨a1, a2⟩ := iha (d + 1) n (by omega)
    obtain ⟨b1, b2⟩ := ihb (d + 1) n (by omega)
    refine ⟨fun x hx => ?_, ?_⟩
    · rcases List.mem_append.mp hx with hx | hx
      · exact a1 x hx
      · exact b1 x hx
    · rw [depths, kraft_append, a2, b2, show n - d = (n - (d + 1)) + 1 by omega, pow_succ]; omega

/-- The weight of a tree: the sum of the weights of its Leaves. -/
def CodeTree.weight (w : Symbol → Nat) (T : CodeTree) : Nat := (T.syms.map w).sum

theorem CodeTree.costFrom_eq (w : Symbol → Nat) (d : Nat) (T : CodeTree) :
    T.costFrom w d = T.costFrom w 0 + d * T.weight w := by
  induction T generalizing d with
  | leaf sym => simp [costFrom, weight, syms, Nat.mul_comm]
  | fork a b iha ihb =>
    have e : (fork a b).weight w = a.weight w + b.weight w := by simp [weight, syms]
    simp only [costFrom, e]
    rw [iha (d + 1), ihb (d + 1), iha (0 + 1), ihb (0 + 1)]
    ring

/-- No full binary tree costs less than greedy merging of its Leaves' weights does. -/
theorem Greedy.le_costFrom {ws : List Nat} {c : Nat} (h : Greedy ws c) (w : Symbol → Nat) (T : CodeTree)
    (hT : (T.syms.map w).Perm ws) : c ≤ T.costFrom w 0 := by
  obtain ⟨n, hn⟩ := T.fits_depths w
  obtain ⟨h1, h2⟩ := hn 0 n (by omega)
  rw [← T.cost_depths w 0]
  exact h.le_cost (by rw [T.map_fst_depths]; exact hT) ⟨h1, by rw [h2]; simp⟩

/-! ### The tree under a node -/

/-- The subtree under node `i` of a node table. -/
inductive TreeAt (node : List Node) : Nat → CodeTree → Prop where
  | leaf {i : Nat} {sym : Symbol} {f : Count} : node[i]? = some (.leaf sym f) → TreeAt node i (.leaf sym)
  | fork {i : Nat} {c0 c1 : NodeIdx} {f : Count} {a b : CodeTree} :
      node[i]? = some (.internal c0 c1 f) → TreeAt node c0.toNat a → TreeAt node c1.toNat b →
      TreeAt node i (.fork a b)

theorem TreeAt.append {node x : List Node} {i : Nat} {T : CodeTree} (h : TreeAt node i T) :
    TreeAt (node ++ x) i T := by
  have up : ∀ {i : Nat} {n : Node}, node[i]? = some n → (node ++ x)[i]? = some n := fun {i n} hn => by
    rw [List.getElem?_append_left (List.getElem?_eq_some_iff.mp hn).1]; exact hn
  induction h with
  | leaf h => exact .leaf (up h)
  | fork h _ _ iha ihb => exact .fork (up h) iha ihb

/-- A path leads to a Leaf of the tree. -/
theorem TreeAt.mem_syms {node : List Node} {i : Nat} {T : CodeTree} (h : TreeAt node i T) {p : List Digit}
    {x : Symbol} (hp : PathTo node i p x) : x ∈ T.syms := by
  induction hp generalizing T with
  | leaf hn =>
    cases h with
    | leaf h' => rw [hn] at h'; cases h'; simp [CodeTree.syms]
    | fork h' _ _ => rw [hn] at h'; cases h'
  | zero hn _ ih =>
    cases h with
    | leaf h' => rw [hn] at h'; cases h'
    | fork h' ha _ => rw [hn] at h'; cases h'; simp [CodeTree.syms, ih ha]
  | one hn _ ih =>
    cases h with
    | leaf h' => rw [hn] at h'; cases h'
    | fork h' _ hb => rw [hn] at h'; cases h'; simp [CodeTree.syms, ih hb]

/-- Where every Leaf has a symbol of its own, the digits on the paths cost what the tree costs. -/
theorem TreeAt.sum_paths {node : List Node} {i : Nat} {T : CodeTree} (h : TreeAt node i T)
    (hd : T.syms.Nodup) (w : Symbol → Nat) {path : Symbol → List Digit}
    (hp : ∀ x ∈ T.syms, PathTo node i (path x) x) :
    (T.syms.map fun x => w x * (path x).length).sum = T.costFrom w 0 := by
  induction h generalizing path with
  | @leaf i sym f hn =>
    have := hp sym (by simp [CodeTree.syms])
    cases hq : path sym with
    | nil => simp [CodeTree.syms, CodeTree.costFrom, hq]
    | cons d p =>
      rw [hq] at this
      cases this with
      | zero h' _ => rw [hn] at h'; cases h'
      | one h' _ => rw [hn] at h'; cases h'
  | @fork i c0 c1 f a b hn ha hb iha ihb =>
    simp only [CodeTree.syms] at hd hp ⊢
    obtain ⟨hda, hdb, hab⟩ := List.nodup_append.mp hd
    have zero : ∀ x ∈ a.syms, path x = false :: (path x).tail ∧ PathTo node c0.toNat (path x).tail x := by
      intro x hx
      have := hp x (by simp [hx])
      generalize path x = q at this
      cases this with
      | leaf h' => rw [hn] at h'; cases h'
      | zero h' h2 => rw [hn] at h'; cases h'; exact ⟨rfl, h2⟩
      | one h' h2 => rw [hn] at h'; cases h'; exact absurd rfl (hab x hx x (hb.mem_syms h2))
    have one : ∀ x ∈ b.syms, path x = true :: (path x).tail ∧ PathTo node c1.toNat (path x).tail x := by
      intro x hx
      have := hp x (by simp [hx])
      generalize path x = q at this
      cases this with
      | leaf h' => rw [hn] at h'; cases h'
      | zero h' h2 => rw [hn] at h'; cases h'; exact absurd rfl (hab x (ha.mem_syms h2) x hx)
      | one h' h2 => rw [hn] at h'; cases h'; exact ⟨rfl, h2⟩
    have step : ∀ (l : List Symbol) (dg : Digit), (∀ x ∈ l, path x = dg :: (path x).tail) →
        (l.map fun x => w x * (path x).length).sum =
          (l.map fun x => w x * (path x).tail.length).sum + (l.map w).sum := by
      intro l dg hl
      induction l with
      | nil => rfl
      | cons x l ih =>
        have e : (path x).length = (path x).tail.length + 1 := by
          conv_lhs => rw [hl x (by simp)]
          simp
        simp only [List.map_cons, List.sum_cons, e, ih fun y hy => hl y (by simp [hy])]
        ring
    rw [List.map_append, List.sum_append, step _ false fun x hx => (zero x hx).1,
      step _ true fun x hx => (one x hx).1, iha hda fun x hx => (zero x hx).2, ihb hdb fun x hx => (one x hx).2,
      CodeTree.costFrom, CodeTree.costFrom_eq w (0 + 1) a, CodeTree.costFrom_eq w (0 + 1) b]
    simp only [CodeTree.weight]
    ring

/-! ### The loop of BUILD merges greedily -/

/-- The live nodes as a forest: each with the tree under it, whose weight is its frequency. -/
def Forest (w : Symbol → Nat) (m : MergeState) (ts : List (LiveNode × CodeTree)) : Prop :=
  ts.map Prod.fst = m.live ∧ ∀ t ∈ ts, TreeAt m.node t.1.idx t.2 ∧ t.1.freq.toNat = t.2.weight w

/-- The passes that are left cost what greedy merging of the live frequencies costs, and that is by how
much the cost of the forest grows. -/
theorem mergeLoop_greedy {ft : List FtEntry} (w : Symbol → Nat) (hroom : ft.length ≤ 16)
    (hsum : (ft.map fun e => e.count.toNat).sum ≤ 65535) (j k : Nat) {m : MergeState}
    {ts : List (LiveNode × CodeTree)} (h : MergeInv ft k m) (hk : k + j + 1 = ft.length)
    (hf : Forest w m ts) :
    ∃ r T c, (mergeLoop j m).live = [r] ∧ TreeAt (mergeLoop j m).node r.idx T ∧
      T.syms.Perm (ts.flatMap fun t => t.2.syms) ∧ Greedy (m.live.map fun x => x.freq.toNat) c ∧
      T.costFrom w 0 = (ts.map fun t => t.2.costFrom w 0).sum + c := by
  induction j generalizing k m ts with
  | zero =>
    have hl := h.live_size
    obtain ⟨r, hr⟩ := List.length_eq_one_iff.mp (show m.live.length = 1 by omega)
    obtain ⟨h1, h2⟩ := hf
    rw [hr] at h1
    obtain ⟨⟨x, T⟩, rfl⟩ := List.length_eq_one_iff.mp (show ts.length = 1 by
      simpa using congrArg List.length h1)
    simp only [List.map_cons, List.map_nil, List.cons.injEq, and_true] at h1
    subst h1
    exact ⟨x, T, 0, hr, (h2 (x, T) (List.mem_singleton.mpr rfl)).1, by simp, by rw [hr]; exact .one _, by simp⟩
  | succ j ih =>
    have hls := h.live_size
    have hsz := h.size
    have hinv := mergeOnce_inv h (by omega) hroom hsum
    cases hp : popMin m.live with
    | none => rw [popMin_eq_none_iff.mp hp] at hls; simp at hls; omega
    | some ar =>
    obtain ⟨a, rest⟩ := ar
    have hperm := popMin_perm hp
    cases hq : popMin rest with
    | none => rw [popMin_eq_none_iff.mp hq] at hperm; have := hperm.length_eq; simp at this; omega
    | some br =>
    obtain ⟨b, rest'⟩ := br
    have hperm' := popMin_perm hq
    have hall : m.live.Perm (a :: b :: rest') := hperm.trans (hperm'.cons a)
    have hleast := popMin_least hp h.live_nodup
    have hleast' := popMin_least hq
      (List.nodup_cons.mp ((hperm.map LiveNode.idx).nodup_iff.mp h.live_nodup)).2
    have hle : ∀ {x y : LiveNode}, x.before y = true → x.freq.toNat ≤ y.freq.toNat := by
      intro x y hxy
      simp only [LiveNode.before, Bool.or_eq_true, Bool.and_eq_true, decide_eq_true_eq, beq_iff_eq] at hxy
      rcases hxy with hxy | ⟨e, _⟩
      · omega
      · rw [e]
    obtain ⟨ts', hts, hmap⟩ := perm_of_map ((List.Perm.of_eq hf.1).trans hall)
    obtain ⟨⟨a', A⟩, ts1, rfl, h1, hmap⟩ := List.map_eq_cons_iff.mp hmap
    obtain ⟨⟨b', B⟩, rs, rfl, h2, rfl⟩ := List.map_eq_cons_iff.mp hmap
    obtain rfl : a' = a := h1
    obtain rfl : b' = b := h2
    have hA := hf.2 (a', A) (hts.mem_iff.mpr (by simp))
    have hB := hf.2 (b', B) (hts.mem_iff.mpr (by simp))
    have hadd : (a'.freq + b'.freq).toNat = a'.freq.toNat + b'.freq.toNat := by
      have hs := h.live_sum
      rw [(hall.map _).sum_eq] at hs
      simp only [List.map_cons, List.sum_cons] at hs
      rw [BitVec.toNat_add]; exact Nat.mod_eq_of_lt (by omega)
    have hlt : ∀ x ∈ m.live, x.idx < 32 := by
      intro x hx
      have := ((h.live_iff x.idx).mp (List.mem_map_of_mem hx)).1
      omega
    have ha5 : (BitVec.ofNat 5 a'.idx).toNat = a'.idx := by
      rw [BitVec.toNat_ofNat]; exact Nat.mod_eq_of_lt (hlt a' (hall.mem_iff.mpr (by simp)))
    have hb5 : (BitVec.ofNat 5 b'.idx).toNat = b'.idx := by
      rw [BitVec.toNat_ofNat]; exact Nat.mod_eq_of_lt (hlt b' (hall.mem_iff.mpr (by simp)))
    set new : Node := .internal (BitVec.ofNat 5 a'.idx) (BitVec.ofNat 5 b'.idx) (a'.freq + b'.freq) with hnew
    have hm : mergeOnce m =
        ⟨m.node ++ [new], rs.map Prod.fst ++ [⟨a'.freq + b'.freq, m.node.length⟩]⟩ := by
      simp [mergeOnce, hp, hq, hnew]
    have hforest : Forest w (mergeOnce m) (rs ++ [(⟨a'.freq + b'.freq, m.node.length⟩, .fork A B)]) := by
      rw [hm]
      refine ⟨by simp, fun t ht => ?_⟩
      rcases List.mem_append.mp ht with ht | ht
      · obtain ⟨h1, h2⟩ := hf.2 t (hts.mem_iff.mpr (by simp [ht]))
        exact ⟨h1.append, h2⟩
      · obtain rfl := List.mem_singleton.mp ht
        refine ⟨.fork (by simp [hnew]; exact ⟨rfl, rfl, rfl⟩) ?_ ?_, ?_⟩
        · rw [ha5]; exact hA.1.append
        · rw [hb5]; exact hB.1.append
        · show (a'.freq + b'.freq).toNat = _
          rw [hadd, hA.2, hB.2]; simp [CodeTree.weight, CodeTree.syms]
    obtain ⟨r, T, c, h1, h2, h3, h4, h5⟩ := ih (k + 1) hinv (by omega) hforest
    refine ⟨r, T, a'.freq.toNat + b'.freq.toNat + c, h1, h2, ?_, ?_, ?_⟩
    · refine h3.trans ?_
      refine .trans ?_ (hts.flatMap_right _).symm
      simp only [List.flatMap_append, List.flatMap_cons, List.flatMap_nil, CodeTree.syms, List.append_nil]
      simp only [← List.append_assoc (as := A.syms)]
      exact List.perm_append_comm
    · refine .merge (r := (rs.map Prod.fst).map fun x => x.freq.toNat) (by simpa using hall.map _)
        (hle (hleast b' (hperm'.mem_iff.mpr (by simp)))) ?_ ?_
      · intro y hy
        obtain ⟨x, hx, rfl⟩ := List.mem_map.mp hy
        exact hle (hleast' x hx)
      · rw [hm] at h4
        simp only [List.map_append, List.map_cons, List.map_nil, hadd] at h4
        exact h4.perm List.perm_append_comm
    · rw [h5, (hts.map _).sum_eq]
      simp only [List.map_append, List.map_cons, List.map_nil, List.sum_append, List.sum_cons, List.sum_nil]
      rw [CodeTree.costFrom, CodeTree.costFrom_eq w (0 + 1) A, CodeTree.costFrom_eq w (0 + 1) B, hA.2, hB.2]
      ring

/-- The tree of BUILD has the symbols of FT at its Leaves, and costs what greedy merging of their counts
costs. -/
theorem buildTree_greedy {ft : List FtEntry} (hne : ft ≠ []) (hroom : ft.length ≤ 16)
    (hsum : (ft.map fun e => e.count.toNat).sum ≤ 65535) (hd : (ft.map FtEntry.sym).Nodup) :
    ∃ T, TreeAt (buildTree ft).1 (buildTree ft).2.toNat T ∧ T.syms.Perm (ft.map FtEntry.sym) ∧
      Greedy (ft.map fun e => e.count.toNat) (T.costFrom (fun x => (freqOf ft x).toNat) 0) := by
  have hpos : 0 < ft.length := List.length_pos_iff.mpr hne
  have h0 := seedMerge_inv ft
  have hforest : Forest (fun x => (freqOf ft x).toNat) (seedMerge ft)
      (ft.zipIdx.map fun (e, i) => (⟨e.count, i⟩, .leaf e.sym)) := by
    refine ⟨by simp [seedMerge], fun t ht => ?_⟩
    simp only [List.mem_map, Prod.exists] at ht
    obtain ⟨e, i, hei, rfl⟩ := ht
    obtain ⟨h1, h2, h3⟩ := List.mem_zipIdx hei
    simp only [Nat.sub_zero, Nat.zero_add] at h2 h3
    have he : e ∈ ft := h3 ▸ List.getElem_mem h2
    refine ⟨.leaf (f := e.count) (by rw [h0.getElem_leaf h2, ← h3]), ?_⟩
    simp [CodeTree.weight, CodeTree.syms, freqOf_of_mem hd he]
  obtain ⟨r, T, c, h1, h2, h3, h4, h5⟩ := mergeLoop_greedy _ hroom hsum (ft.length - 1) 0 h0 (by omega) hforest
  have hroot : (buildTree ft).2.toNat = r.idx := by
    have hinv := mergeLoop_inv hroom hsum (ft.length - 1) 0 h0 (by omega)
    rw [Nat.zero_add] at hinv
    have := hinv.root_is_last hne h1
    simp only [buildTree, h1, BitVec.toNat_ofNat]; omega
  have hzero : ((ft.zipIdx.map fun (e, i) => ((⟨e.count, i⟩ : LiveNode), CodeTree.leaf e.sym)).map
      fun t => t.2.costFrom (fun x => (freqOf ft x).toNat) 0).sum = 0 := by
    apply List.sum_eq_zero
    simp only [List.mem_map]
    rintro _ ⟨_, ⟨x, -, rfl⟩, rfl⟩
    simp [CodeTree.costFrom]
  rw [hzero, Nat.zero_add] at h5
  have hsyms : ((ft.zipIdx.map fun (e, i) => ((⟨e.count, i⟩ : LiveNode), CodeTree.leaf e.sym)).flatMap
      fun t => t.2.syms) = ft.map FtEntry.sym := by
    have hone : ∀ l : List (FtEntry × Nat), ((l.map fun (e, i) =>
        ((⟨e.count, i⟩ : LiveNode), CodeTree.leaf e.sym)).flatMap fun t => t.2.syms) =
        (l.map Prod.fst).map FtEntry.sym := by
      intro l
      induction l with
      | nil => rfl
      | cons x xs ih => simpa [CodeTree.syms] using ih
    rw [hone, List.zipIdx_map_fst]
  have hw : ((seedMerge ft).live.map fun x => x.freq.toNat) = ft.map fun e => e.count.toNat := by
    simp only [seedMerge, List.map_map]
    have : ((fun x : LiveNode => x.freq.toNat) ∘ fun (x : FtEntry × Nat) => (⟨x.1.count, x.2⟩ : LiveNode)) =
      (fun e : FtEntry => e.count.toNat) ∘ Prod.fst := rfl
    rw [this, ← List.map_map, List.zipIdx_map_fst]
  rw [hsyms] at h3
  rw [hw] at h4
  exact ⟨T, by rw [hroot]; exact h2, h3, h5 ▸ h4⟩

end Sys2Proof.Machine
end

