-- ==== Sys2Proof/Laws/Invariant.lean ====
section
/-! SUPPORT. What each kind of update does to the parts of the invariant of 10_state.md R42. -/

namespace Sys2Proof.Machine

open Sys2Proof

/-! ### Updates that touch no table -/

theorem ErrlogInv.raise {e : Err} {s : State} (h : ErrlogInv s) : ErrlogInv (raise e s) := by
  obtain ⟨h0, h4⟩ := h
  constructor <;> rw [raise_errlog, BitVec.getLsbD_or]
  · rw [h0]; cases e <;> rfl
  · rw [h4]; cases e <;> rfl

/-- The invariant does not see the encode frame and the channels. -/
theorem Inv.congr {s t : State} (h : Inv s) (hft : t.ft = s.ft) (htotal : t.total = s.total)
    (hnode : t.node = s.node) (hroot : t.root = s.root) (hvalid : t.treeValid = s.treeValid)
    (hct : t.ct = s.ct) (hdec : t.decOpen = s.decOpen) (hacc : t.acc = s.acc) (hlen : t.acclen = s.acclen)
    (hovr : t.ovr = s.ovr) (hlog : t.errlog = s.errlog) : Inv t := by
  refine ⟨⟨?_, ?_, ?_, ?_⟩, ?_, ?_, ⟨?_, ?_, ?_, ?_⟩, ?_⟩
  · rw [hft]; exact h.ft.room
  · rw [hft]; exact h.ft.distinct
  · rw [hft]; exact h.ft.positive
  · rw [hft, htotal]; exact h.ft.total_eq
  · have := h.tree; rw [TreeInv] at *; rw [hnode, hroot, hvalid]; exact this
  · rw [hct]; exact h.ct
  · rw [hdec, hacc, hlen, hovr]; exact h.dec.closed_empty
  · rw [hacc, hlen]; exact h.dec.high_zero
  · rw [hct, hdec, State.accDigits, hacc, hlen]; exact h.dec.no_code_inside
  · rw [hlen, hovr]; exact h.dec.overrun_full
  · rw [ErrlogInv, hlog]; exact h.errlog

theorem Inv.respond {c : RspCode} {d : RspData} {s : State} (h : Inv s) : Inv (respond c d s) :=
  h.congr rfl rfl rfl rfl rfl rfl rfl rfl rfl rfl rfl

/-- A closed decode frame meets its part of the invariant. -/
theorem decInv_closed {s : State} (ho : s.decOpen = false) (ha : s.acc = 0) (hl : s.acclen = 0)
    (hov : s.ovr = false) : DecInv s :=
  ⟨fun _ => ⟨hl, ha, hov⟩, by rw [ha, hl]; rfl, fun _ _ hd => by simp [ho] at hd, fun hd => by simp [hov] at hd⟩

/-- An error keeps the invariant (60_exceptions.md R204). -/
theorem Inv.raise {e : Err} {s : State} (h : Inv s) : Inv (raise e s) := by
  refine ⟨⟨?_, ?_, ?_, ?_⟩, ?_, ?_, ?_, h.errlog.raise⟩
  · simpa using h.ft.room
  · simpa using h.ft.distinct
  · simpa using h.ft.positive
  · simpa using h.ft.total_eq
  · simpa [TreeInv] using h.tree
  · simpa using h.ct
  · cases e with
    | truncatedStream => exact decInv_closed rfl rfl rfl rfl
    | _ => exact ⟨h.dec.closed_empty, h.dec.high_zero, h.dec.no_code_inside, h.dec.overrun_full⟩

/-! ### FT -/

theorem count_le_sum {ft : List FtEntry} {e : FtEntry} (h : e ∈ ft) :
    e.count.toNat ≤ (ft.map fun e => e.count.toNat).sum :=
  List.single_le_sum (by simp) _ (List.mem_map_of_mem h)

theorem count_succ_toNat {c : Count} (h : c.toNat < 65535) : (c + 1).toNat = c.toNat + 1 := by
  rw [BitVec.toNat_add]; simp; omega

/-- COUNT of a known symbol adds one to the sum, while that sum stays in range (R101). -/
theorem bump_sum {x : Symbol} {ft : List FtEntry} (h : x ∈ ft.map FtEntry.sym)
    (hs : (ft.map fun e => e.count.toNat).sum < 65535) :
    ((bump x ft).map fun e => e.count.toNat).sum = (ft.map fun e => e.count.toNat).sum + 1 := by
  obtain ⟨pre, c, post, rfl, hn⟩ := ft_split h
  have hc : c.toNat ≤ _ := count_le_sum (ft := pre ++ ⟨x, c⟩ :: post) (e := ⟨x, c⟩) (by simp)
  rw [bump_split hn]
  have e := count_succ_toNat (lt_of_le_of_lt hc hs)
  simp only [List.map_append, List.map_cons, List.sum_append, List.sum_cons, e]; omega

theorem bump_positive {x : Symbol} {ft : List FtEntry} (h : ∀ e ∈ ft, 1 ≤ e.count.toNat)
    (hx : x ∈ ft.map FtEntry.sym) (hs : (ft.map fun e => e.count.toNat).sum < 65535) :
    ∀ e ∈ bump x ft, 1 ≤ e.count.toNat := by
  obtain ⟨pre, c, post, rfl, hn⟩ := ft_split hx
  have hc : c.toNat ≤ _ := count_le_sum (ft := pre ++ ⟨x, c⟩ :: post) (e := ⟨x, c⟩) (by simp)
  rw [bump_split hn]
  intro e he
  simp only [List.mem_append, List.mem_cons] at he
  rcases he with he | rfl | he
  · exact h e (by simp [he])
  · show 1 ≤ (c + 1).toNat; rw [count_succ_toNat (lt_of_le_of_lt hc hs)]; omega
  · exact h e (by simp [he])

theorem FtInv.sum_le {s : State} (h : FtInv s) : (s.ft.map fun e => e.count.toNat).sum ≤ 65535 := by
  rw [← h.total_eq]; have := s.total.isLt; omega

theorem map_sym_append_nodup {α : Type} {l : List α} {f : α → Symbol} (h : (l.map f).Nodup) {a : α}
    (ha : f a ∉ l.map f) : ((l ++ [a]).map f).Nodup := by
  rw [List.map_append, List.nodup_append]
  refine ⟨h, by simp, ?_⟩
  intro x hx y hy
  simp only [List.map_cons, List.map_nil, List.mem_singleton] at hy
  subst hy
  exact fun e => ha (e ▸ hx)

/-! ### The tree -/

/-- The frequency of the root is the sum of the counts (R114 (c)). -/
theorem buildTree_root_freq {ft : List FtEntry} (hne : ft ≠ []) (hroom : ft.length ≤ 16)
    (hsum : (ft.map fun e => e.count.toNat).sum ≤ 65535) :
    freqAt (buildTree ft).1 (buildTree ft).2.toNat = (ft.map fun e => e.count.toNat).sum := by
  obtain ⟨m, hm, hn, r, hr, hroot⟩ := buildTree_spec hne hroom hsum
  have hlast := hm.root_is_last hne hr
  have hr5 : (buildTree ft).2.toNat = r.idx := by rw [hroot, BitVec.toNat_ofNat, hlast]; omega
  have h2 := hm.live_sum
  rw [hr] at h2
  simp only [List.map_cons, List.map_nil, List.sum_cons, List.sum_nil, Nat.add_zero] at h2
  rw [hr5, hn, ← hm.live_freq r (by simp [hr]), h2]

theorem buildTree_valid {ft : List FtEntry} (hne : ft ≠ []) (hroom : ft.length ≤ 16)
    (hsum : (ft.map fun e => e.count.toNat).sum ≤ 65535) (hd : (ft.map FtEntry.sym).Nodup) :
    ValidTree ft.length (buildTree ft).1 (buildTree ft).2 := by
  have hpos : 0 < ft.length := List.length_pos_iff.mpr hne
  have hfr := buildTree_root_freq hne hroom hsum
  obtain ⟨m, hm, hn, r, hr, hroot⟩ := buildTree_spec hne hroom hsum
  have hsz := hm.size
  have hlast := hm.root_is_last hne hr
  have hr5 : (buildTree ft).2.toNat = 2 * ft.length - 2 := by
    rw [hroot, BitVec.toNat_ofNat, hlast]; omega
  rw [hn] at hfr ⊢
  refine ⟨hpos, hroom, by omega, hr5, ?_, ?_, ?_, ?_, ?_⟩
  · intro i hi; simp [isLeafAt, hm.getElem_leaf hi]
  · intro i hi h2; exact hm.internals i h2 (by omega)
  · intro i hi
    refine List.count_eq_one_of_mem hm.child_nodup ?_
    by_contra hc
    have := (hm.live_iff i).mpr ⟨by omega, hc⟩
    rw [hr] at this
    simp at this; omega
  · rw [hm.leaf_syms]; exact hd
  · rw [hm.leaf_sum, hfr]

/-! ### CT -/

theorem CtInv.nil : CtInv [] := ⟨by simp, by simp, by simp, by simp⟩

/-- The code table of a walk (42_code_table.md R120): prefix-free because the walk is. -/
theorem ctInv_of_walk {node : List Node} {d i : Nat} {l : List (Symbol × List Digit)}
    (h : walk node d i [] = some l) (hd : d ≤ 15) (hroom : l.length ≤ 16) (hsyms : (l.map Prod.fst).Nodup)
    (hne : ∀ x ∈ l, x.2 ≠ []) : CtInv (l.map fun (sym, c) => CtEntry.ofCode sym c) := by
  have hlen : ∀ x ∈ l, x.2.length ≤ 15 := fun x hx => by
    have := walk_length_le h hx; simp at this; omega
  refine ⟨by simpa using hroom, ?_, ?_, ?_⟩
  · intro e he
    simp only [List.mem_map, Prod.exists] at he
    obtain ⟨a, b, hab, rfl⟩ := he
    exact ofCode_ok _ _ (hne _ hab) (hlen _ hab)
  · rw [List.map_map]; exact hsyms
  · rw [List.pairwise_map]
    have := walk_apart h
    rw [List.pairwise_iff_forall_sublist] at this ⊢
    intro a b hab
    have hm := this hab
    rw [code_ofCode _ _ (hlen _ (hab.subset (by simp))), code_ofCode _ _ (hlen _ (hab.subset (by simp)))]
    exact hm

/-- A walk from an Internal node gives no empty code. -/
theorem walk_ne_nil {node : List Node} {d i : Nat} {l : List (Symbol × List Digit)} {c0 c1 : NodeIdx} {f : Count}
    (hn : node[i]? = some (.internal c0 c1 f)) (h : walk node d i [] = some l) : ∀ x ∈ l, x.2 ≠ [] := by
  obtain ⟨d', zs, os, rfl, h0, h1, rfl⟩ := (walk_internal_iff hn).mp h
  intro x hx hnil
  rcases List.mem_append.mp hx with hx | hx
  · have := walk_prefix h0 hx; rw [hnil] at this; simp at this
  · have := walk_prefix h1 hx; rw [hnil] at this; simp at this

/-- GEN from a valid tree gives a table that meets R27 and R29, with one entry for each Leaf. -/
theorem ValidTree.genCodes_inv {n : Nat} {node : List Node} {root : NodeIdx} (h : ValidTree n node root) :
    ∃ new single, genCodes node root = some (new, single) ∧ new.length = n ∧
      (new.map Prod.fst).Perm (leafSyms node) ∧ CtInv (new.map fun (sym, c) => CtEntry.ofCode sym c) := by
  have h1 := h.some_leaf
  have hroom : n ≤ 16 := h.room
  have hr := h.root_last
  have hleaf : ∀ i < n, isLeafAt node i = true := h.leaves
  by_cases h2 : 2 ≤ n
  · obtain ⟨l, hl, hl15, hg⟩ := h.genCodes_eq h2
    obtain ⟨c0, c1, f, hn, _⟩ := internalOkAt_iff.mp (h.internals root.toNat (by omega) (by omega))
    have hsyms := h.root_syms (by omega) hl15
    have hnum : (leafSyms node).length = n := by
      have hsz := h.size
      have hs := h.live_syms 0 (by omega)
      have hnil := childIdxs_take_eq_nil h.leaves n le_rfl
      have hlive : liveList node (n + 0) = List.range n := by simp [liveList, hnil]
      rw [← hs.length_eq, hlive]
      have : ∀ k ≤ n, ((List.range k).flatMap fun i => symsUnder node 1 i).length = k := by
        intro k hk
        induction k with
        | zero => rfl
        | succ k ih =>
          obtain ⟨sym, f, hl⟩ := isLeafAt_iff.mp (h.leaves k (by omega))
          rw [List.range_succ, List.flatMap_append, List.length_append, ih (by omega)]
          simp [symsUnder, hl]
      simpa using this n le_rfl
    have hlen : l.length = n := by rw [← hnum, ← hsyms.length_eq, List.length_map]
    exact ⟨l, false, hg, hlen, hsyms, ctInv_of_walk hl15 le_rfl (by omega) (hsyms.nodup_iff.mpr h.distinct)
      (walk_ne_nil hn hl15)⟩
  · obtain rfl : n = 1 := by omega
    have hsz := h.size
    obtain ⟨sym, f, hn⟩ := isLeafAt_iff.mp (h.leaves 0 (by omega))
    have h0 : root.toNat = 0 := by omega
    obtain ⟨x, rfl⟩ := List.length_eq_one_iff.mp hsz
    simp only [List.length_cons, List.length_nil, Nat.zero_add, zero_lt_one, List.getElem?_eq_getElem,
      List.getElem_cons_zero, Option.some.injEq] at hn
    subst hn
    refine ⟨[(sym, [false])], true, by simp [genCodes, h0], rfl, by simp [leafSyms], ⟨by simp, ?_, by simp, by simp⟩⟩
    intro e he
    simp only [List.map_cons, List.map_nil, List.mem_singleton] at he
    subst he
    exact ofCode_ok _ _ (by simp) (by simp)

end Sys2Proof.Machine
end

