-- ==== Sys2Proof/Laws/PerInstr.lean ====
section
/-! SUPPORT. The family EncodingRow, one lemma per constructor: a command's word matches its own row of the
opcode table, for every operand value (30_encoding.md R82, R83). -/

namespace Sys2Proof.Laws.EncodingRow

open Sys2Proof

/-- The command's row is in the table, and its word matches that row. -/
def Statement (i : Instr) : Prop := i.row ∈ tableRows ∧ encode i &&& i.row.1 = i.row.2

theorem nop : Statement .nop := by unfold Statement; decide
theorem ftclr : Statement .ftclr := by unfold Statement; decide
theorem count (sym : Symbol) : Statement (.count sym) := by unfold Statement; revert sym; decide
theorem build : Statement .build := by unfold Statement; decide
theorem gen : Statement .gen := by unfold Statement; decide
theorem ctclr : Statement .ctclr := by unfold Statement; decide
theorem ldcode (sym : Symbol) (len : CodeLen) (cbits : CodeBits) : Statement (.ldcode sym len cbits) := by
  refine ⟨by show ((0xF8000000#32, 0x30000000#32) : Word × Word) ∈ tableRows; decide, ?_⟩
  show wordC 0x06 sym len cbits &&& 0xF8000000#32 = 0x30000000#32
  rw [and_high_mask_eq_iff _ _ _ 27 (by decide) (by decide) (by decide), wordC_toNat]
  have h6 : (0x06 : BitVec 5).toNat = 6 := rfl
  have hp : (0x30000000#32).toNat = 6 * 2 ^ 27 := rfl
  rw [h6, hp]
  omega
theorem encbeg : Statement .encbeg := by unfold Statement; decide
theorem enc (sym : Symbol) : Statement (.enc sym) := by unfold Statement; revert sym; decide
theorem encend : Statement .encend := by unfold Statement; decide
theorem decbeg : Statement .decbeg := by unfold Statement; decide
theorem decbit (dig : Digit) : Statement (.decbit dig) := by unfold Statement; revert dig; decide
theorem decend : Statement .decend := by unfold Statement; decide
theorem rdstat : Statement .rdstat := by unfold Statement; decide
theorem rdtot : Statement .rdtot := by unfold Statement; decide
theorem rdfreq (sym : Symbol) : Statement (.rdfreq sym) := by unfold Statement; revert sym; decide
theorem rdtree : Statement .rdtree := by unfold Statement; decide
theorem rdnode (idx : NodeIdx) : Statement (.rdnode idx) := by unfold Statement; revert idx; decide
theorem rdcode (sym : Symbol) : Statement (.rdcode sym) := by unfold Statement; revert sym; decide

end Sys2Proof.Laws.EncodingRow
end

