-- ==== Sys2Proof/Laws/Run.lean ====
section
/-! SUPPORT. Runs of commands, the frames of a token history, and DECBIT in terms of digit sequences. -/

namespace Sys2Proof.Machine

open Sys2Proof

/-! ### Runs -/

@[simp] theorem execAll_nil (s : State) : execAll [] s = .next s := rfl

theorem execAll_cons_eq_next {i : Instr} {is : List Instr} {s u : State} :
    execAll (i :: is) s = .next u ↔ ∃ t, exec i s = .next t ∧ execAll is t = .next u := by
  rw [execAll]
  cases exec i s <;> simp

theorem execAll_append_eq_next {is js : List Instr} {s u : State} :
    execAll (is ++ js) s = .next u ↔ ∃ t, execAll is s = .next t ∧ execAll js t = .next u := by
  induction is generalizing s with
  | nil => simp
  | cons i is ih =>
    simp only [List.cons_append, execAll_cons_eq_next]
    constructor
    · rintro ⟨t, h1, h2⟩
      obtain ⟨t', h3, h4⟩ := ih.mp h2
      exact ⟨t', ⟨t, h1, h3⟩, h4⟩
    · rintro ⟨t', ⟨t, h1, h3⟩, h4⟩
      exact ⟨t, h1, ih.mpr ⟨t', h3, h4⟩⟩

/-- In a state that meets the invariant every command answers a next state (00_scope.md R18). -/
theorem exec_completes {s : State} (h : Inv s) (i : Instr) : ∃ t, exec i s = .next t := by
  cases i with
  | build =>
    simp only [exec, execBuild]
    have := h.ft.room
    split
    · exact ⟨_, rfl⟩
    · rw [if_neg (by omega)]; exact ⟨_, rfl⟩
  | gen =>
    simp only [exec, execGen]
    split
    · exact ⟨_, rfl⟩
    · split
      · exact ⟨_, rfl⟩
      · rename_i hv
        have ht := h.tree
        rw [TreeInv, if_pos (by simpa using hv)] at ht
        obtain ⟨n, ht⟩ := ht
        obtain ⟨new, single, hg, hlen, _, _⟩ := ht.genCodes_inv
        have hroom := ht.room
        rw [hg]
        simp only
        rw [if_neg (by omega)]
        exact ⟨_, rfl⟩
  | count sym =>
    simp only [exec, execCount]
    split
    · exact ⟨_, rfl⟩
    · split
      · exact ⟨_, rfl⟩
      · split <;> exact ⟨_, rfl⟩
  | ldcode sym len cbits => simp only [exec, execLdcode]; split_ifs <;> exact ⟨_, rfl⟩
  | ctclr => simp only [exec, execCtclr]; split <;> exact ⟨_, rfl⟩
  | encbeg => simp only [exec, execEncbeg]; split <;> exact ⟨_, rfl⟩
  | enc sym =>
    simp only [exec, execEnc]
    split
    · exact ⟨_, rfl⟩
    · split <;> exact ⟨_, rfl⟩
  | encend => simp only [exec, execEncend]; split <;> exact ⟨_, rfl⟩
  | decbeg => simp only [exec, execDecbeg]; split <;> exact ⟨_, rfl⟩
  | decbit dig =>
    simp only [exec, execDecbit]
    split_ifs <;> exact ⟨_, rfl⟩
  | decend => simp only [exec, execDecend]; split_ifs <;> exact ⟨_, rfl⟩
  | rdnode idx => simp only [exec, execRdnode]; split <;> exact ⟨_, rfl⟩
  | _ => exact ⟨_, rfl⟩

/-! ### Token histories (10_state.md R40) -/

theorem resultsFrom_append {α : Type} (p : List α) (a b : List (Token α)) :
    resultsFrom p (a ++ b) = resultsFrom p a ++ resultsFrom (unfinishedFrom p a) b := by
  induction a generalizing p with
  | nil => rfl
  | cons t ts ih => cases t <;> simp [resultsFrom, unfinishedFrom, ih]

theorem unfinishedFrom_append {α : Type} (p : List α) (a b : List (Token α)) :
    unfinishedFrom p (a ++ b) = unfinishedFrom (unfinishedFrom p a) b := by
  induction a generalizing p with
  | nil => rfl
  | cons t ts ih => cases t <;> simp [unfinishedFrom, ih]

theorem unfinishedFrom_data {α : Type} (p as : List α) :
    unfinishedFrom p (as.map Token.data) = p ++ as := by
  induction as generalizing p with
  | nil => simp [unfinishedFrom]
  | cons a as ih => simp [unfinishedFrom, ih]

theorem resultsFrom_data {α : Type} (p as : List α) : resultsFrom p (as.map Token.data) = [] := by
  induction as generalizing p with
  | nil => rfl
  | cons a as ih => simp [resultsFrom, ih]

/-- A whole frame closed with `End` after a history that ends closed. -/
theorem frameResults_close {α : Type} {ts : List (Token α)} (h : unfinished ts = []) (as : List α) :
    frameResults (ts ++ as.map Token.data ++ [.close]) = frameResults ts ++ [.success as] := by
  rw [unfinished] at h
  rw [frameResults, resultsFrom_append, resultsFrom_append, unfinishedFrom_append, h, unfinishedFrom_data,
    resultsFrom_data]
  simp [resultsFrom, frameResults]

/-- A whole frame closed with `Abort` after a history that ends closed. -/
theorem frameResults_abort {α : Type} {ts : List (Token α)} (h : unfinished ts = []) (as : List α) :
    frameResults (ts ++ as.map Token.data ++ [.abort]) = frameResults ts ++ [.failure] := by
  rw [unfinished] at h
  rw [frameResults, resultsFrom_append, resultsFrom_append, unfinishedFrom_append, h, unfinishedFrom_data,
    resultsFrom_data]
  simp [resultsFrom, frameResults]

/-! ### DECBIT on digit sequences -/

/-- With room in the accumulator DECBIT is one digit of doc00's machine (44_decoder.md R151, R156). -/
theorem exec_decbit_digits {s : State} (h : Inv s) (ho : s.decOpen = true) (hov : s.ovr = false)
    (hl : s.acclen.toNat ≠ 15) (d : Digit) :
    (∃ e ∈ s.ct, e.code = s.accDigits ++ [d] ∧ exec (.decbit d) s = .next
      (answered 0x00000000#32 { s with acc := 0, acclen := 0, symout := s.symout ++ [.data e.sym] })) ∨
    ((∀ e ∈ s.ct, e.code ≠ s.accDigits ++ [d]) ∧ exec (.decbit d) s = .next
      (answered 0x00000000#32 (appendDigit d s)) ∧ (appendDigit d s).accDigits = s.accDigits ++ [d]) := by
  have hexec : exec (.decbit d) s = finish 0 (matchAcc (appendDigit d s)) := by
    have hl' : ¬ s.acclen.toNat = Config.lmax := hl
    simp [exec, execDecbit, ho, hov, hl']
  have hz := setDigit_high_zero s.acclen s.acc d hl h.dec.high_zero
  have hdig : (appendDigit d s).accDigits = s.accDigits ++ [d] := digitsOf_setDigit _ _ _ hl
  rcases matchAcc_cases (appendDigit d s) with ⟨e, he, h1, h2, h3⟩ | ⟨hno, h3⟩
  · refine .inl ⟨e, he, ?_, ?_⟩
    · rw [← hdig, CtEntry.code, h1, h2]; rfl
    · rw [hexec, h3, finish_zero]; rfl
  · refine .inr ⟨fun e he hc => hno e he ?_, ?_, hdig⟩
    · rw [← hdig] at hc
      exact digitsOf_inj ((codeOperandOk_iff _ _).mp (h.ct.well_formed e he)).2 hz hc
    · rw [hexec, h3, finish_zero]

/-! ### Feeding digits -/

theorem feed_append {σ : Type} (bit : σ → Digit → σ × Option Symbol) (s : σ) (a b : List Digit) :
    feed bit s (a ++ b) =
      ((feed bit (feed bit s a).1 b).1, (feed bit s a).2 ++ (feed bit (feed bit s a).1 b).2) := by
  induction a generalizing s with
  | nil => simp [feed]
  | cons d a ih => simp [feed, ih, List.append_assoc]

/-! ### Commands and CMD -/

/-- One more step of the host's run. -/
theorem core_run_succ (n : Nat) (s : State) :
    Sys2Proof.core.run (n + 1) s = match step s with
      | .next t => Sys2Proof.core.run n t
      | .fault r => .fault r
      | .refused r => .refused r := by
  have h : Sys2Proof.core.step s = step s := rfl
  cases hs : step s <;> rw [hs] at h <;> simp [Host.Core.run, h]

/-- Change the next state of an answer. -/
def mapNext (f : State → State) : Result → Result
  | .next t => .next (f t)
  | .fault r => .fault r
  | .refused r => .refused r

@[simp] theorem mapNext_ite (f : State → State) (p : Prop) [Decidable p] (a b : Result) :
    mapNext f (if p then a else b) = if p then mapNext f a else mapNext f b := by split <;> rfl

/-- No meaning reads or writes CMD (10_state.md R37). -/
theorem exec_cmd (i : Instr) (s : State) (c : List Word) :
    exec i { s with cmd := c } = mapNext (fun t => { t with cmd := c }) (exec i s) := by
  cases i
  case gen =>
    simp only [exec, execGen, State.locked, mapNext_ite]
    split <;> [rfl; skip]
    split <;> [rfl; skip]
    cases h3 : genCodes s.node s.root with
    | none => rfl
    | some p => simp only [mapNext_ite]; split <;> rfl
  case decbit d =>
    simp only [exec, execDecbit, mapNext_ite]
    split <;> [rfl; skip]
    split <;> [rfl; skip]
    split <;> [rfl; skip]
    simp only [finish, matchAcc, appendDigit, mapNext]
    cases dtFind s.ct (s.acclen + 1) (setDigit s.acc s.acclen d) <;> rfl
  all_goals
    simp only [exec, execNop, execFtclr, execCount, execBuild, execCtclr, execLdcode, execEncbeg, execEnc,
      execEncend, execDecbeg, execDecend, execRdstat, execRdtot, execRdfreq, execRdtree, execRdnode, execRdcode,
      State.locked, State.dpend, mapNext_ite]
    (repeat' split) <;> first | rfl | (simp_all; done) | (simp_all; rfl)

end Sys2Proof.Machine
end

