-- ==== Sys2Proof/Tests/Slice0.lean ====
section
/-! SUPPORT. The model's own tests: ill-formed terms, words from 95_test_vectors.md (V10, V11), one step per
instruction with the answers of its vectors V20 to V90 and programs P1 to P5, and a witness for the
hypotheses of every statement that has some. No expected value was taken from the model. -/

namespace Sys2Proof.Tests

open Sys2Proof Sys2Proof.Machine

/-! ### WellFormed refuses (42_code_table.md R127; 45_control_readback.md R178) -/

theorem test_wf_ldcode_length_zero : (Instr.ldcode 0x61 0 0).wellFormed = false := by decide
theorem test_wf_ldcode_stray_bit : (Instr.ldcode 0x61 2 0b101).wellFormed = false := by decide
theorem test_wf_rdnode_31 : (Instr.rdnode 31).wellFormed = false := by decide
theorem test_wf_accepts : (Instr.ldcode 0x20 15 0x7FFF).wellFormed = true ∧ (Instr.rdnode 30).wellFormed = true := by
  decide

/-! ### Decoding: the words of V10, and words written out from the formats of R81 -/

theorem test_decode_format_z :
    decode 0x00000000#32 = .ok .nop ∧ decode 0x08000000#32 = .ok .ftclr ∧ decode 0x18000000#32 = .ok .build ∧
    decode 0x20000000#32 = .ok .gen ∧ decode 0x28000000#32 = .ok .ctclr ∧ decode 0x40000000#32 = .ok .encbeg ∧
    decode 0x50000000#32 = .ok .encend ∧ decode 0x60000000#32 = .ok .decbeg ∧
    decode 0x70000000#32 = .ok .decend ∧ decode 0x80000000#32 = .ok .rdstat ∧
    decode 0x88000000#32 = .ok .rdtot ∧ decode 0x98000000#32 = .ok .rdtree := by decide
theorem test_decode_format_s :
    decode 0x10000061#32 = .ok (.count 0x61) ∧ decode 0x100000FF#32 = .ok (.count 0xFF) ∧
    decode 0x48000062#32 = .ok (.enc 0x62) ∧ decode 0x90000061#32 = .ok (.rdfreq 0x61) ∧
    decode 0xA8000062#32 = .ok (.rdcode 0x62) := by decide
theorem test_decode_format_b :
    decode 0x68000000#32 = .ok (.decbit false) ∧ decode 0x68000001#32 = .ok (.decbit true) := by decide
theorem test_decode_format_n :
    decode 0xA0000005#32 = .ok (.rdnode 5) ∧ decode 0xA000001E#32 = .ok (.rdnode 30) := by decide
theorem test_decode_format_c :
    decode 0x30000161#32 = .ok (.ldcode 0x61 1 0) ∧ decode 0x30001262#32 = .ok (.ldcode 0x62 2 0b01) ∧
    decode 0x37FFFF20#32 = .ok (.ldcode 0x20 15 0x7FFF) := by decide
/-- One word of each unit, bit by bit: OP, then the fields of its format. -/
theorem test_decode_bits :
    decode 0b00010_0000000000000000000_01100001#32 = .ok (.count 0x61) ∧
    decode 0b00011_000000000000000000000000000#32 = .ok .build ∧
    decode 0b00110_000000000000011_0011_01100010#32 = .ok (.ldcode 0x62 3 0b011) ∧
    decode 0b01001_0000000000000000000_01100010#32 = .ok (.enc 0x62) ∧
    decode 0b01101_00000000000000000000000000_1#32 = .ok (.decbit true) ∧
    decode 0b10100_0000000000000000000000_00101#32 = .ok (.rdnode 5) := by decide
/-- V11. -/
theorem test_decode_rejects :
    decode 0x38000000#32 = .error .reservedOpcode ∧ decode 0x58000000#32 = .error .reservedOpcode ∧
    decode 0x78000000#32 = .error .reservedOpcode ∧ decode 0xB0000000#32 = .error .reservedOpcode ∧
    decode 0xFFFFFFFF#32 = .error .reservedOpcode ∧ decode 0x00000001#32 = .error .reservedBits ∧
    decode 0x10000100#32 = .error .reservedBits ∧ decode 0x68000002#32 = .error .reservedBits ∧
    decode 0xA0000020#32 = .error .reservedBits ∧ decode 0x18000001#32 = .error .reservedBits := by decide
theorem test_table_word : decodeTableWord 32 0xA0000005 = some (.rdnode 5) ∧ decodeTableWord 32 0x00000001 = none := by
  decide
/-- V10. -/
theorem test_encode :
    encode (.ldcode 0x62 2 0b01) = 0x30001262#32 ∧ encode (.ldcode 0x20 15 0x7FFF) = 0x37FFFF20#32 ∧
    encode (.decbit true) = 0x68000001#32 ∧ encode (.rdnode 30) = 0xA000001E#32 ∧
    encode (.rdcode 0x62) = 0xA8000062#32 ∧ encode .rdtree = 0x98000000#32 := by decide

/-! ### Small states -/

/-- The state of V30 and V40: corpus `a b r a c a d a b r a`, counted, built and generated. -/
def abra : State :=
  { State.reset with
    ft := [⟨0x61, 5⟩, ⟨0x62, 2⟩, ⟨0x72, 2⟩, ⟨0x63, 1⟩, ⟨0x64, 1⟩]
    total := 11
    node := [.leaf 0x61 5, .leaf 0x62 2, .leaf 0x72 2, .leaf 0x63 1, .leaf 0x64 1,
      .internal 3 4 2, .internal 1 2 4, .internal 5 6 6, .internal 0 7 11]
    root := 8
    treeValid := true
    ct := [⟨0x61, 1, 0b0⟩, ⟨0x63, 3, 0b001⟩, ⟨0x64, 3, 0b101⟩, ⟨0x62, 3, 0b011⟩, ⟨0x72, 3, 0b111⟩] }

/-- The state of V41: corpus `a a a`. -/
def lone : State :=
  { State.reset with
    ft := [⟨0x61, 3⟩], total := 3, node := [.leaf 0x61 3], root := 0, treeValid := true
    ct := [⟨0x61, 1, 0⟩], degen := true }

/-- The table of S7 and P3: a `0`, b `10`. -/
def pair : State := { State.reset with ct := [⟨0x61, 1, 0⟩, ⟨0x62, 2, 0b01⟩] }

/-- `abra` with an encode frame open. -/
def encoding : State := { abra with encOpen := true }

/-- `abra` with a decode frame open and an empty accumulator. -/
def decoding : State := { abra with decOpen := true }

/-- `pair` with a decode frame open and the accumulator `11` (V62). -/
def dead : State := { pair with decOpen := true, acc := 0b11, acclen := 2 }

/-- Table a `0`, a decode frame open and 15 digits `100000000000000` (V63). -/
def brim : State := { State.reset with ct := [⟨0x61, 1, 0⟩], decOpen := true, acc := 1, acclen := 15 }

/-- `brim` after the overrun (V63). -/
def overrun : State := { brim with ovr := true }

/-- Sixteen symbols counted once each (V22). -/
def crowd : State :=
  { State.reset with ft := (List.range 16).map (fun k => ⟨BitVec.ofNat 8 k, 1⟩), total := 16 }

/-- Sixteen 5-digit codes loaded (V45). -/
def laden : State :=
  { State.reset with ct := (List.range 16).map fun k => ⟨BitVec.ofNat 8 k, 5, BitVec.ofNat 15 k⟩ }

/-- One symbol counted 65535 times (V23). -/
def counted : State := { State.reset with ft := [⟨0x01, 65535⟩], total := 65535 }

/-- The state one step after `w` is presented. -/
def after (s : State) (w : Nat) : Option State :=
  match step (s.withFetchWord 32 w) with
  | .next t => some t
  | .fault _ => none
  | .refused _ => none

/-- The response to `w`. -/
def answer (s : State) (w : Nat) : Option Word := (after s w).bind fun t => t.rsp.getLast?

/-! ### One step per command -/

/-- V70. -/
theorem test_nop : after abra 0x00000000 = some (answered 0x00000000#32 abra) := by decide
/-- V21. -/
theorem test_ftclr : (after abra 0x08000000).map (fun t => (t.ft, t.total, t.ct, t.rsp)) =
    some ([], 0, abra.ct, [0x00000000#32]) := by decide
/-- V20, its third command. -/
theorem test_count : (after { State.reset with ft := [⟨0x61, 1⟩, ⟨0x62, 1⟩], total := 2 } 0x10000061).map
    (fun t => (t.ft, t.total, t.rsp)) = some ([⟨0x61, 2⟩, ⟨0x62, 1⟩], 3, [0x00000000#32]) := by decide
/-- V22, V23: the two refusals. -/
theorem test_count_refuses : answer crowd 0x10000010 = some 0x48000000#32 ∧
    answer counted 0x10000002 = some 0x50000000#32 ∧ answer crowd 0x10000003 = some 0x00000000#32 := by decide
/-- V30: five leaves, two ties. -/
theorem test_build : (after { abra with node := [], root := 0, treeValid := false } 0x18000000).map
    (fun t => (t.node, t.root, t.treeValid)) = some (abra.node, 8, true) := by decide
/-- V37. -/
theorem test_build_empty : answer State.reset 0x18000000 = some 0x08000000#32 ∧
    (after State.reset 0x18000000).map State.treeValid = some false := by decide
/-- V40: the walk order a, c, d, b, r. -/
theorem test_gen : (after { abra with ct := [], degen := true } 0x20000000).map (fun t => (t.ct, t.degen)) =
    some (abra.ct, false) := by decide
/-- V41 and V42. -/
theorem test_gen_single : (after { lone with ct := [], degen := false } 0x20000000).map
    (fun t => (t.ct, t.degen, t.errlog)) = some ([⟨0x61, 1, 0⟩], true, 0) ∧
    answer State.reset 0x20000000 = some 0x30000000#32 := by decide
/-- V47. -/
theorem test_ctclr : (after lone 0x28000000).map (fun t => (t.ct, t.degen)) = some ([], false) ∧
    answer encoding 0x28000000 = some 0x30000000#32 := by decide
/-- V44: b `10` joins a `0`. -/
theorem test_ldcode : (after { State.reset with ct := [⟨0x61, 1, 0⟩] } 0x30001262).map State.ct =
    some pair.ct := by decide
/-- V43, V44, V45, V80. -/
theorem test_ldcode_refuses : answer State.reset 0x30005261 = some 0x38000000#32 ∧
    answer pair 0x30001163 = some 0x40000000#32 ∧ answer pair 0x30002362 = some 0x40000000#32 ∧
    answer laden 0x30010520 = some 0x48000000#32 ∧ answer encoding 0x30000063 = some 0x30000000#32 := by decide
/-- V53. -/
theorem test_encbeg : (after State.reset 0x40000000).map State.encOpen = some true ∧
    answer encoding 0x40000000 = some 0x30000000#32 := by decide
/-- V50: b is `110`. -/
theorem test_enc : (after encoding 0x48000062).map (fun t => (t.bitout, t.encOpen)) =
    some ([.data true, .data true, .data false], true) := by decide
/-- P2: `UnknownSymbol`; V53. -/
theorem test_enc_unknown : (after encoding 0x48000065).map (fun t => (t.bitout, t.encOpen, t.errlog, t.rsp)) =
    some ([.abort], false, 0b100#11, [0x10000000#32]) ∧ answer abra 0x48000061 = some 0x30000000#32 := by decide
/-- V51, V53. -/
theorem test_encend : (after encoding 0x50000000).map (fun t => (t.bitout, t.encOpen)) = some ([.close], false) ∧
    answer abra 0x50000000 = some 0x30000000#32 := by decide
/-- V66. -/
theorem test_decbeg : (after abra 0x60000000).map State.decOpen = some true ∧
    answer dead 0x60000000 = some 0x30000000#32 := by decide
/-- V60: the second digit of `10` gives b. -/
theorem test_decbit : (after { pair with decOpen := true, acc := 1, acclen := 1 } 0x68000000).map
    (fun t => (t.symout, t.acc, t.acclen)) = some ([.data 0x62], 0, 0) := by decide
/-- V62: matching is of the whole accumulator; V63: the sixteenth digit. -/
theorem test_decbit_dead : (after dead 0x68000000).map (fun t => (t.symout, t.acc, t.acclen)) =
    some ([], 0b011, 3) ∧
    (after brim 0x68000000).map (fun t => (t.ovr, t.acclen, t.rsp)) = some (true, 15, [0x00000000#32]) := by decide
/-- V61. -/
theorem test_decend : (after decoding 0x70000000).map (fun t => (t.symout, t.decOpen, t.rsp)) =
    some ([.close], false, [0x00000000#32]) := by decide
/-- V63. -/
theorem test_decend_truncated : (after overrun 0x70000000).map
    (fun t => (t.symout, t.decOpen, t.acclen, t.ovr, t.rsp)) = some ([.abort], false, 0, false, [0x18000000#32]) ∧
    (after overrun 0x70000000).map State.errlog = some 0b1000#11 := by decide
/-- V62, V63, V40. -/
theorem test_rdstat : answer dead 0x80000000 = some 0x0000080C#32 ∧ answer overrun 0x80000000 = some 0x0000040C#32 ∧
    answer abra 0x80000000 = some 0x000014A1#32 := by decide
/-- V23. -/
theorem test_rdtot : answer counted 0x88000000 = some 0x0000FFFF#32 := by decide
/-- V20. -/
theorem test_rdfreq : answer abra 0x90000061 = some 0x00000005#32 ∧ answer abra 0x90000065 = some 0x00000000#32 := by
  decide
/-- V30. -/
theorem test_rdtree : answer abra 0x98000000 = some 0x00000128#32 := by decide
/-- V30: a Leaf and an Internal node. -/
theorem test_rdnode : answer abra 0xA0000000 = some 0x00001461#32 ∧ answer abra 0xA0000007 = some 0x040018C5#32 := by
  decide
/-- V70, V36. -/
theorem test_rdnode_refuses : answer State.reset 0xA0000000 = some 0x38000000#32 ∧
    answer abra 0xA000001F = some 0x38000000#32 := by decide
/-- V40, V70. -/
theorem test_rdcode : answer abra 0xA8000062 = some 0x00003362#32 ∧ answer abra 0xA8000065 = some 0x00000065#32 := by
  decide
/-- V81: an illegal word leaves the frame open and gives no token. -/
theorem test_illegal : after encoding 0x48000100 =
    some { encoding with errlog := 0b100000#11, rsp := [0x28000000#32] } := by decide

/-! ### Frames and the assembler -/

/-- V54, P1: a frame's result. -/
theorem test_frames :
    frameResults [.data false, .data true, .data false, Token.abort, .data true, .close] =
      [.failure, .success [true]] ∧ unfinished [Token.close, .data 0x61#8] = [0x61#8] := by decide
/-- R89. -/
theorem test_tokens : encodeBitToken (.data true) = (0#2, 1#1) ∧ encodeBitToken .close = (1#2, 0#1) ∧
    encodeSymToken (.data 0x62) = (0#2, 0x62#8) ∧ encodeSymToken .abort = (2#2, 0x00#8) := by decide
/-- P3's source lines. -/
theorem test_assemble : assembleLines ["LDCODE 'a', \"0\"".toList, " LDCODE 'b', \"10\" ; b".toList,
    "DECBEG".toList, "".toList, "DECBITS \"1\"".toList, "RDNODE 0x1E".toList] =
    some [0x30000161#32, 0x30001262#32, 0x60000000#32, 0x68000001#32, 0xA000001E#32] := by decide
/-- R91 and log entry 10: the apostrophe, the separators and the blank as quoted characters; their ASCII
codes are 0x27, 0x2C, 0x3B and 0x20. -/
theorem test_assemble_quoted : assembleLines ["COUNTS ''', ',', ';' ; it's".toList, "ENC ' '".toList] =
    some [0x10000027#32, 0x1000002C#32, 0x1000003B#32, 0x48000020#32] := by decide
/-- R91: an operand that does not fit is an error. -/
theorem test_assemble_rejects : assembleLines ["COUNT 256".toList] = none ∧ assembleLines ["DECBIT 2".toList] = none ∧
    assembleLines ["JUMP".toList] = none := by decide

/-! ### States that meet the invariant -/

theorem abra_tree : ValidTree 5 abra.node abra.root :=
  ⟨by decide, by decide, by decide, by decide, by decide, by decide, by decide, by decide, by decide⟩

theorem lone_tree : ValidTree 1 lone.node lone.root :=
  ⟨by decide, by decide, by decide, by decide, by decide, by decide, by decide, by decide, by decide⟩

theorem abra_ct : CtInv abra.ct := ⟨by decide, by decide, by decide, by unfold Apart; decide⟩
theorem pair_ct : CtInv pair.ct := ⟨by decide, by decide, by decide, by unfold Apart; decide⟩
theorem lone_ct : CtInv lone.ct := ⟨by decide, by decide, by decide, by unfold Apart; decide⟩
theorem laden_ct : CtInv laden.ct := ⟨by decide, by decide, by decide, by unfold Apart; decide⟩

theorem abra_ft : FtInv abra := ⟨by decide, by decide, by decide, by decide⟩
theorem lone_ft : FtInv lone := ⟨by decide, by decide, by decide, by decide⟩
theorem crowd_ft : FtInv crowd := ⟨by decide, by decide, by decide, by decide⟩

theorem abra_inv : Inv abra :=
  ⟨abra_ft, by rw [TreeInv, if_pos (by decide)]; exact ⟨5, abra_tree⟩, abra_ct,
    decInv_closed rfl rfl rfl rfl, by unfold ErrlogInv; decide⟩

theorem lone_inv : Inv lone :=
  ⟨lone_ft, by rw [TreeInv, if_pos (by decide)]; exact ⟨1, lone_tree⟩, lone_ct,
    decInv_closed rfl rfl rfl rfl, by unfold ErrlogInv; decide⟩

theorem encoding_inv : Inv encoding := abra_inv.congr rfl rfl rfl rfl rfl rfl rfl rfl rfl rfl rfl

theorem decoding_inv : Inv decoding :=
  ⟨⟨abra_ft.1, abra_ft.2, abra_ft.3, abra_ft.4⟩, abra_inv.tree, abra_ct,
    ⟨by decide, by decide, by decide, by decide⟩, by unfold ErrlogInv; decide⟩

/-- A tree-less state in the middle of a decode frame. -/
theorem overrun_inv : Inv overrun :=
  ⟨⟨by decide, by decide, by decide, by decide⟩, by simp [TreeInv, overrun, brim, State.reset], lone_ct,
    ⟨by decide, by decide, by decide, by decide⟩, by unfold ErrlogInv; decide⟩

theorem abra_closed : FramesClosed abra := ⟨fun _ => rfl, fun _ => rfl⟩

/-! ### Witnesses: for each statement with hypotheses, a state and operands that meet them -/

theorem witness_StepKeepsTheInvariant :
    Inv { decoding with cmd := [0x68000001#32] } ∧
    step { decoding with cmd := [0x68000001#32] } = .next (answered 0 { decoding with acc := 1, acclen := 1 }) :=
  ⟨decoding_inv.congr rfl rfl rfl rfl rfl rfl rfl rfl rfl rfl rfl, rfl⟩

theorem witness_StepLeavesFramesClosedUnlessOpen :
    FramesClosed { encoding with cmd := [0x48000062#32], bitout := [.data true] } ∧
    step { encoding with cmd := [0x48000062#32], bitout := [.data true] } =
      .next { encoding with rsp := [0], bitout := [true, true, true, false].map Token.data } :=
  ⟨⟨by decide, by decide⟩, rfl⟩

theorem witness_EveryWordCompletesInOneStep : Inv { abra with cmd := [0xFFFFFFFF#32, 0x20000000#32] } :=
  abra_inv.congr rfl rfl rfl rfl rfl rfl rfl rfl rfl rfl rfl

theorem witness_StepRunsTheDecodedCommand :
    ({ abra with cmd := [0x20000000#32] } : State).cmd = 0x20000000#32 :: [] ∧
    decode 0x20000000#32 = .ok .gen ∧ State.reset.cmd = [] := by decide

theorem witness_HostResetIsTotalAndTheOnlyClear :
    exec .ctclr { abra with errlog := 0x400#11 } =
      .next (answered 0 { abra with errlog := 0x400#11, ct := [] }) ∧
    ({ abra with errlog := 0x400#11 } : State).treeValid = true ∧
    ({ abra with errlog := 0x400#11 } : State).errlog.getLsbD 10 = true := by and_intros <;> rfl

theorem witness_EncodeOfDecodeIsTheWord : decode 0x37FFFF20#32 = .ok (.ldcode 0x20 15 0x7FFF) := by decide

/-- One word for each disjunct: the first and last reserved opcode, and one bit above the last field. -/
theorem witness_ReservedWordsAreIllegalCommands :
    (0x38000000#32).toNat / 2 ^ 27 = 0x07 ∧ (0xFFFFFFFF#32).toNat / 2 ^ 27 = 0x1F ∧
    ((0x98000001#32).toNat / 2 ^ 27 = 0x13 ∧ (0x98000001#32).toNat % 2 ^ 27 ≠ 0) ∧
    ((0xA8000100#32).toNat / 2 ^ 27 = 0x15 ∧ (0xA8000100#32).toNat % 2 ^ 27 / 2 ^ 8 ≠ 0) ∧
    ((0x68000002#32).toNat / 2 ^ 27 = 0x0D ∧ (0x68000002#32).toNat % 2 ^ 27 / 2 ≠ 0) ∧
    ((0xA0000020#32).toNat / 2 ^ 27 = 0x14 ∧ (0xA0000020#32).toNat % 2 ^ 27 / 2 ^ 5 ≠ 0) := by decide

/-- Each clause at its edge: TOTAL 65534 for a known symbol, and the sixteenth new symbol. -/
theorem witness_CountTalliesOneOccurrence :
    (({ counted with ft := [⟨0x01, 65534⟩], total := 65534 } : State).total ≠ 65535 ∧
      ({ counted with ft := [⟨0x01, 65534⟩], total := 65534 } : State).ft = [] ++ ⟨0x01, 65534⟩ :: [] ∧
      0x01#8 ∉ ([] : List FtEntry).map FtEntry.sym) ∧
    (({ crowd with ft := crowd.ft.take 15, total := 15 } : State).total ≠ 65535 ∧
      0x0F#8 ∉ (crowd.ft.take 15).map FtEntry.sym ∧ (crowd.ft.take 15).length ≠ 16) := by decide

theorem witness_CountRefusesAtItsLimits :
    counted.total = 65535 ∧ crowd.total ≠ 65535 ∧ crowd.ft.length = 16 ∧ 0x10#8 ∉ crowd.ft.map FtEntry.sym ∧
    0x0F#8 ∈ crowd.ft.map FtEntry.sym := by decide

/-- Sixteen distinct symbols, the most there can be. -/
theorem witness_CountsGiveTheFrequencyTable :
    State.reset.ft = [] ∧ State.reset.total = 0 ∧
    ((List.range 16).map (BitVec.ofNat 8)).length ≤ 65535 ∧
    (firstOccurrences ((List.range 16).map (BitVec.ofNat 8))).length = 16 := by decide

theorem witness_EmptyCorpusIsBuildOnTheEmptyTable :
    State.reset.ft = [] ∧ exec .build State.reset = .next (errored 1 State.reset) ∧
    (errored 1 State.reset).rsp = State.reset.rsp ++ [0x08000000#32] ∧ codeOf 0x08000000#32 = 1 := by and_intros <;> rfl

/-- One entry and sixteen, the least and the most BUILD can have; for BuildMakesAValidTree,
BuildMergesTheTwoLeastNodes and the first clause of BuildAndGenAreRepeatable. -/
theorem witness_BuildMakesAValidTree : (FtInv lone ∧ lone.ft ≠ []) ∧ FtInv crowd ∧ crowd.ft ≠ [] :=
  ⟨⟨lone_ft, by decide⟩, crowd_ft, by decide⟩

theorem witness_MergeFrequenciesDoNotDecrease :
    FtInv abra ∧ abra.ft ≠ [] ∧ exec .build abra = .next (answered 0 abra) ∧
    abra.ft.length ≤ 7 ∧ 7 + 1 < 2 * abra.ft.length - 1 := ⟨abra_ft, by and_intros <;> first | rfl | decide⟩

theorem witness_BuildAndGenAreRepeatable :
    (abra.ft = encoding.ft ∧ abra.ft ≠ [] ∧ exec .build abra = .next (answered 0 abra) ∧
      exec .build encoding = .next (answered 0 encoding)) ∧
    execAll [.build, .gen] abra = .next (answered 0 (answered 0 abra)) ∧
    execAll [.build, .gen] (answered 0 (answered 0 abra)) =
      .next (answered 0 (answered 0 (answered 0 (answered 0 abra)))) := by and_intros <;> first | rfl | decide

/-- The root-to-leaf paths of V30, by symbol. -/
def abraPath (x : Symbol) : List Digit := codeFor abra.ct x

theorem witness_BuiltTreeIsOptimal :
    FtInv abra ∧ exec .build abra = .next (answered 0 abra) ∧
    (∀ e ∈ abra.ft, PathTo (answered 0 abra).node (answered 0 abra).root.toNat (abraPath e.sym) e.sym) ∧
    (CodeTree.fork (.leaf 0x61) (.fork (.leaf 0x62) (.fork (.leaf 0x72) (.fork (.leaf 0x63) (.leaf 0x64))))).syms.Perm
      (abra.ft.map FtEntry.sym) := by
  refine ⟨abra_ft, rfl, ?_, by decide⟩
  intro e he
  simp only [abra, List.mem_cons, List.not_mem_nil, or_false] at he
  rcases he with rfl | rfl | rfl | rfl | rfl
  · exact .zero rfl (.leaf rfl)
  · exact .one rfl (.one rfl (.zero rfl (.leaf rfl)))
  · exact .one rfl (.one rfl (.one rfl (.leaf rfl)))
  · exact .one rfl (.zero rfl (.zero rfl (.leaf rfl)))
  · exact .one rfl (.zero rfl (.one rfl (.leaf rfl)))

theorem witness_GenIsRefusedWhenLockedOrTreeless :
    encoding.encOpen = true ∧ decoding.decOpen = true ∧ State.reset.treeValid = false := by decide

/-- For GenAssignsRootToLeafPaths and GeneratedTrieHasNoDeadBranch; and, at 15 digits, for
GeneratedCodeSetIsComplete. -/
theorem witness_GenAssignsRootToLeafPaths :
    Inv abra ∧ abra.encOpen = false ∧ abra.decOpen = false ∧ abra.treeValid = true ∧ 1 < abra.node.length ∧
    exec .gen abra = .next (answered 0 abra) ∧ 15 ≤ (List.replicate 15 true).length := ⟨abra_inv, by and_intros <;> first | rfl | decide⟩

theorem witness_GenOfASingleLeafGivesTheCodeZero :
    lone.encOpen = false ∧ lone.decOpen = false ∧ lone.treeValid = true ∧ lone.node = [.leaf 0x61 3] ∧
    lone.root = 0 := by decide

theorem witness_CtclrEmptiesTheCodeTable :
    (abra.encOpen = false ∧ abra.decOpen = false) ∧ encoding.encOpen = true ∧ decoding.decOpen = true := by decide

/-- One operand for each clause of LDCODE, at the edge of its range: length 0, a stray bit 14, a known
symbol, a conflicting code, a full table, and a 15-digit code that is taken. -/
theorem witness_LdcodeChecksInOrder :
    encoding.encOpen = true ∧ (State.reset.encOpen = false ∧ State.reset.decOpen = false) ∧
    (14 ≤ 14 ∧ (14#4).toNat ≤ 14 ∧ (0x4000#15).getLsbD 14 = true) ∧
    ((2#4) ≠ 0 ∧ (0b11#15 >>> 2 = 0#15) ∧ 0x61#8 ∈ pair.ct.map CtEntry.sym) ∧
    (0x63#8 ∉ pair.ct.map CtEntry.sym ∧ ∃ e ∈ pair.ct, e.code <+: digitsOf 1 1 ∨ digitsOf 1 1 <+: e.code) ∧
    (laden.ct.length = 16 ∧ 0x20#8 ∉ laden.ct.map CtEntry.sym ∧
      ¬ ∃ e ∈ laden.ct, e.code <+: digitsOf 5 16 ∨ digitsOf 5 16 <+: e.code) ∧
    (pair.ct.length ≠ 16 ∧ 0x63#8 ∉ pair.ct.map CtEntry.sym ∧
      ¬ ∃ e ∈ pair.ct, e.code <+: digitsOf 15 0x7FFF ∨ digitsOf 15 0x7FFF <+: e.code) := by decide

theorem witness_OpenFrameLocksTheCodeTable :
    encoding.encOpen = true ∧ decoding.decOpen = true ∧
    exec (.count 0x61) encoding = .next (answered 0
      { encoding with ft := [⟨0x61, 6⟩, ⟨0x62, 2⟩, ⟨0x72, 2⟩, ⟨0x63, 1⟩, ⟨0x64, 1⟩], total := 12 }) := by and_intros <;> rfl

theorem witness_EncbegAndEncendOpenAndClose : abra.encOpen = false ∧ encoding.encOpen = true := by decide

theorem witness_EncEmitsTheCodeOrAborts :
    (encoding.encOpen = true ∧ encoding.ct = abra.ct.take 4 ++ ⟨0x72, 3, 0b111⟩ :: [] ∧
      0x72#8 ∉ (abra.ct.take 4).map CtEntry.sym) ∧
    0x65#8 ∉ encoding.ct.map CtEntry.sym ∧ abra.encOpen = false := by decide

/-- With commands of the other units in between, for both outcomes; the failing symbol stands last. -/
theorem witness_EncodeFrameGivesTheConcatenation :
    Inv abra ∧ FramesClosed abra ∧ abra.encOpen = false ∧
    [Instr.decbeg, .enc 0x61, .build, .enc 0x72].filter isEncoder = [0x61#8, 0x72#8].map Instr.enc ∧
    (∀ x ∈ [0x61#8, 0x72#8], x ∈ abra.ct.map CtEntry.sym) ∧
    [Instr.enc 0x61, .rdstat, .enc 0x65].filter isEncoder = ([0x61#8] ++ 0x65#8 :: []).map Instr.enc ∧
    0x65#8 ∉ abra.ct.map CtEntry.sym := ⟨abra_inv, abra_closed, by decide⟩

theorem witness_DecbegOpensWithAnEmptyAccumulator : abra.decOpen = false ∧ dead.decOpen = true := by decide

/-- The cases of DECBIT: closed, overrun, full, a match in the last free place, and no match. -/
theorem witness_DecbitAppendsAndMatches :
    abra.decOpen = false ∧ (overrun.decOpen = true ∧ overrun.ovr = true) ∧
    (brim.decOpen = true ∧ brim.ovr = false ∧ brim.acclen = 15) ∧
    (∃ s : State, s.decOpen = true ∧ s.ovr = false ∧ s.acclen = 14 ∧ s.ct = [] ++ ⟨0x20, 15, 0x7FFF⟩ :: [] ∧
      setDigit s.acc s.acclen true = 0x7FFF#15) ∧
    (dead.decOpen = true ∧ dead.ovr = false ∧ dead.acclen ≠ 15 ∧
      ∀ e ∈ dead.ct, ¬ (e.len = dead.acclen + 1 ∧ e.bits = setDigit dead.acc dead.acclen false)) := by
  refine ⟨by decide, by decide, by decide,
    ⟨{ State.reset with ct := [⟨0x20, 15, 0x7FFF⟩], decOpen := true, acc := 0x3FFF, acclen := 14 }, ?_⟩, ?_⟩ <;>
    decide

theorem witness_DecendClosesTheFrame :
    (decoding.decOpen = true ∧ decoding.acclen = 0 ∧ decoding.ovr = false) ∧
    (dead.decOpen = true ∧ dead.acclen ≠ 0) ∧ (overrun.decOpen = true ∧ overrun.ovr = true) ∧
    abra.decOpen = false := by decide

/-- With other commands in between: `0` is a; `11` is no concatenation of the codes of V40. -/
theorem witness_DecodeFrameRecoversTheSymbols :
    Inv abra ∧ FramesClosed abra ∧ abra.decOpen = false ∧
    [Instr.encbeg, .decbit false, .nop].filter isDecoder = [false].map Instr.decbit ∧
    (⟨0x61, 1, 0⟩ : CtEntry) ∈ abra.ct ∧ [false] = [(⟨0x61, 1, 0⟩ : CtEntry)].flatMap CtEntry.code ∧
    ¬ ∃ es : List CtEntry, (∀ e ∈ es, e ∈ abra.ct) ∧ [true, true] = es.flatMap CtEntry.code := by
  refine ⟨abra_inv, abra_closed, by decide, by decide, by decide, by decide, ?_⟩
  rintro ⟨es, h1, h2⟩
  cases es with
  | nil => simp at h2
  | cons e es =>
    have he : e ∈ abra.ct := h1 e (by simp)
    have hp : e.code <+: [true, true] := ⟨es.flatMap CtEntry.code, by rw [h2, List.flatMap_cons]⟩
    exact absurd hp ((by decide : ∀ e ∈ abra.ct, ¬ e.code <+: [true, true]) e he)

/-- For SymbolLeavesWithItsLastDigit, BoundedAccumulatorEqualsUnbounded and TrieTraversalEqualsAccumulator. -/
theorem witness_SymbolLeavesWithItsLastDigit :
    Inv decoding ∧ decoding.decOpen = true ∧ decoding.acclen = 0 ∧ decoding.ovr = false ∧
    (⟨0x62, 3, 0b011⟩ : CtEntry) ∈ decoding.ct ∧
    [true, true] <+: (⟨0x62, 3, 0b011⟩ : CtEntry).code ∧ [true, true] ≠ (⟨0x62, 3, 0b011⟩ : CtEntry).code :=
  ⟨decoding_inv, by decide⟩

theorem witness_FactorisationIsUnique :
    CtInv pair.ct ∧ (∀ e ∈ pair.ct, e ∈ pair.ct) ∧ pair.ct.flatMap CtEntry.code = [false, true, false] :=
  ⟨pair_ct, by decide⟩

/-- At one distinct symbol and at sixteen. -/
theorem witness_EncodeThenDecodeIsTheInput :
    Inv State.reset ∧ FramesClosed State.reset ∧ State.reset.encOpen = false ∧ State.reset.decOpen = false ∧
    State.reset.ft = [] ∧ State.reset.total = 0 ∧ [0x61#8] ≠ [] ∧ [0x61#8].length < 65536 ∧
    (firstOccurrences [0x61#8]).length = 1 ∧
    (firstOccurrences ((List.range 16).map (BitVec.ofNat 8))).length = 16 :=
  ⟨⟨⟨by decide, by decide, by decide, by decide⟩, by simp [TreeInv, State.reset], CtInv.nil,
    decInv_closed rfl rfl rfl rfl, by unfold ErrlogInv; decide⟩, ⟨fun _ => rfl, fun _ => rfl⟩, by decide⟩

theorem witness_ReadBacksAnswerAndChangeNothing :
    (abra.ft = abra.ft.take 1 ++ ⟨0x62, 2⟩ :: abra.ft.drop 2 ∧ 0x62#8 ∉ (abra.ft.take 1).map FtEntry.sym) ∧
    0x65#8 ∉ abra.ft.map FtEntry.sym ∧ abra.node[0]? = some (.leaf 0x61 5) ∧
    abra.node[8]? = some (.internal 0 7 11) ∧
    (abra.ct = abra.ct.take 3 ++ ⟨0x62, 3, 0b011⟩ :: abra.ct.drop 4 ∧
      0x62#8 ∉ (abra.ct.take 3).map CtEntry.sym) ∧ 0x65#8 ∉ abra.ct.map CtEntry.sym := by decide

theorem witness_RdnodeRefusesAnIndexWithNoValue :
    Inv abra ∧ abra.nnodes.toNat ≤ (9#5).toNat ∧ (31#5) = 31 := ⟨abra_inv, by decide⟩

theorem witness_StatusWordLayout : Inv overrun ∧ Inv encoding ∧ abra.decOpen = false :=
  ⟨overrun_inv, encoding_inv, by decide⟩

theorem witness_RdcodeAnswerReloadsTheEntry : CtInv laden.ct ∧ (⟨0x0F, 5, 15⟩ : CtEntry) ∈ laden.ct :=
  ⟨laden_ct, by decide⟩

/-- One error of each kind: an illegal word, `UnknownSymbol` and `TruncatedStream`. -/
theorem witness_ErrorsArePrecise :
    (step { abra with cmd := [0x00000001#32] } = .next (errored 5 abra) ∧ codeOf 0x28000000#32 = 5) ∧
    (step { encoding with cmd := [0x48000065#32] } =
        .next { errored 2 encoding with encOpen := false, bitout := [.abort] } ∧ codeOf 0x10000000#32 = 2) ∧
    (step { dead with cmd := [0x70000000#32] } = .next
        { errored 3 dead with decOpen := false, acc := 0, acclen := 0, ovr := false, symout := [.abort] } ∧
      codeOf 0x18000000#32 = 3) := by and_intros <;> rfl

/-- For ResponseCodesAreTheTableOnes and ErrlogRecordsEveryError. -/
theorem witness_ErrlogRecordsEveryError :
    step { abra with cmd := [0x78000000#32] } =
      .next { abra with errlog := 0x020#11, rsp := [0x28000000#32] } ∧
    codeOf 0x28000000#32 = 5 := by and_intros <;> rfl

theorem witness_BadSequenceExactlyWhenOutOfOrder :
    Inv abra ∧ outOfOrder abra (.decbit true) = true ∧ outOfOrder abra .gen = false := ⟨abra_inv, by decide⟩

theorem witness_IllFormedOperandsAreRefused :
    Inv encoding ∧ (Instr.ldcode 0x63 0 0).wellFormed = false ∧ outOfOrder encoding (.ldcode 0x63 0 0) = true ∧
    Inv abra ∧ (Instr.rdnode 31).wellFormed = false ∧ outOfOrder abra (.rdnode 31) = false :=
  ⟨encoding_inv, by decide, by decide, abra_inv, by decide⟩

theorem witness_FirstCommandAfterReset :
    (Instr.ldcode 0x61 1 0).wellFormed = true ∧ (Instr.ldcode 0x20 15 0x7FFF).wellFormed = true := by decide

theorem witness_ElementsAreWrittenOnlyByTheirCommands :
    exec .rdtree abra = .next (answered 0x00000128#32 abra) ∧ Instr.rdtree ≠ .build ∧
    isEncoder .rdtree = false ∧ isDecoder .rdtree = false ∧ codeOf 0x00000128#32 = 0 := by
  and_intros <;> first | rfl | decide

/-- For the clause about an ENC that answers `OK`: the code of the symbol 0x61 is `[0]` (V50). -/
theorem witness_ElementsAreWrittenOnlyByTheirCommands_enc :
    exec (.enc 0x61) encoding =
      .next { answered 0x00000000#32 encoding with bitout := [.data false] } ∧
    codeOf 0x00000000#32 = 0 := by and_intros <;> rfl

theorem witness_CodersReadNothingUpstream :
    isEncoder .encbeg = true ∧ exec .encbeg abra = .next (answered 0 encoding) ∧
    isDecoder .decbeg = true ∧ exec .decbeg abra = .next (answered 0 decoding) := by and_intros <;> rfl

theorem witness_ErrlogAndDegenGateNothing :
    Instr.decbeg ≠ .rdstat ∧ exec .decbeg abra = .next (answered 0 decoding) := by and_intros <;> first | rfl | decide

theorem witness_ReadBacksAreIdempotent :
    (8#5).toNat < abra.node.length ∧ exec (.rdnode 8) abra = .next (answered 0x04002CE0#32 abra) ∧
    exec (.rdnode 8) (answered 0x04002CE0#32 abra) =
      .next (answered 0x04002CE0#32 (answered 0x04002CE0#32 abra)) ∧
    (answered 0x04002CE0#32 abra).rsp = abra.rsp ++ [0x04002CE0#32] := by and_intros <;> first | rfl | decide

theorem witness_PseudoCommandsExpand : (List.replicate 15 true).length ≤ 15 ∧ [true, false] ≠ [] := by decide

end Sys2Proof.Tests
end

/-! PROOFS. Scope (00_scope.md): what every step does to the channels (R12, R18), and that the encoder and
the decoder read nothing upstream of the code table (R3). -/

namespace Sys2Proof.Machine

open Sys2Proof

/-! ### One step on a command word -/

/-- A word that decodes runs its command with the word taken from CMD (30_encoding.md R83 stage 3). -/
theorem step_of_decode_ok {s : State} {w : Word} {rest : List Word} {i : Instr} (hs : s.cmd = w :: rest)
    (hd : decode w = .ok i) : step s = exec i { s with cmd := rest } := by
  simp only [step, hs, hd]

/-- A word that is no command raises `IllegalCommand` with the word taken from CMD (R83). -/
theorem step_of_decode_error {s : State} {w : Word} {rest : List Word} {r : Reject} (hs : s.cmd = w :: rest)
    (hd : decode w = .error r) : step s = failWith .illegalCommand { s with cmd := rest } := by
  simp only [step, hs, hd]

/-- The invariant does not see CMD. -/
theorem Inv.with_cmd {s : State} (h : Inv s) (c : List Word) : Inv { s with cmd := c } :=
  h.congr rfl rfl rfl rfl rfl rfl rfl rfl rfl rfl rfl

/-! ### What a command does to the channels (10_state.md R39) -/

/-- From `s` to `t` tokens were only appended to BITOUT and SYMOUT. -/
structure TokensAppended (s t : State) : Prop where
  bitout : s.bitout <+: t.bitout
  symout : s.symout <+: t.symout

/-- No token at all is the usual case. -/
theorem TokensAppended.of_eq {s t : State} (hb : t.bitout = s.bitout) (hy : t.symout = s.symout) :
    TokensAppended s t := ⟨hb ▸ List.prefix_rfl, hy ▸ List.prefix_rfl⟩

theorem tokensAppended_raise (e : Err) (s : State) : TokensAppended s (raise e s) := by
  cases e with
  | unknownSymbol => exact ⟨List.prefix_append _ _, List.prefix_rfl⟩
  | truncatedStream => exact ⟨List.prefix_rfl, List.prefix_append _ _⟩
  | _ => exact .of_eq rfl rfl

theorem tokensAppended_matchAcc (s : State) : TokensAppended s (matchAcc s) := by
  rcases matchAcc_cases s with ⟨_, _, _, _, h⟩ | ⟨_, h⟩ <;> rw [h]
  · exact ⟨List.prefix_rfl, List.prefix_append _ _⟩
  · exact .of_eq rfl rfl

/-- Of the commands that complete, ENC and ENCEND append to BITOUT, DECBIT and DECEND to SYMOUT. -/
theorem Completes.tokensAppended {i : Instr} {s s' : State} {d : RspData} (hc : Completes s i s' d) :
    TokensAppended s s' := by
  cases i <;> simp only [Completes] at hc
  case enc => obtain ⟨-, -, e, -, -, -, rfl⟩ := hc; exact ⟨List.prefix_append _ _, List.prefix_rfl⟩
  case encend => obtain ⟨-, -, rfl⟩ := hc; exact ⟨List.prefix_append _ _, List.prefix_rfl⟩
  case decbit dig =>
    obtain ⟨-, -, ⟨-, rfl⟩ | ⟨-, -, rfl⟩ | ⟨-, -, rfl⟩⟩ := hc
    · exact .of_eq rfl rfl
    · exact .of_eq rfl rfl
    · exact ⟨(tokensAppended_matchAcc (appendDigit dig s)).bitout,
        (tokensAppended_matchAcc (appendDigit dig s)).symout⟩
  case decend => obtain ⟨-, -, -, rfl⟩ := hc; exact ⟨List.prefix_rfl, List.prefix_append _ _⟩
  case count => obtain ⟨-, -, ⟨-, rfl⟩ | ⟨-, -, rfl⟩⟩ := hc <;> exact .of_eq rfl rfl
  case build => obtain ⟨-, -, -, rfl⟩ := hc; exact .of_eq rfl rfl
  case gen => obtain ⟨-, -, -, _, _, -, -, rfl⟩ := hc; exact .of_eq rfl rfl
  case ldcode => obtain ⟨-, -, -, -, -, -, rfl⟩ := hc; exact .of_eq rfl rfl
  case ctclr | encbeg | decbeg => obtain ⟨-, -, rfl⟩ := hc; exact .of_eq rfl rfl
  case nop | ftclr | rdnode => obtain ⟨rfl, -⟩ := hc; exact .of_eq rfl rfl
  case rdstat | rdtot | rdfreq | rdtree | rdcode => obtain ⟨-, rfl⟩ := hc; exact .of_eq rfl rfl

theorem exec_tokensAppended {i : Instr} {s t : State} (h : exec i s = .next t) : TokensAppended s t := by
  rcases exec_cases h with ⟨s', d, rfl, hc⟩ | ⟨e, rfl, -⟩
  · exact ⟨hc.tokensAppended.bitout, hc.tokensAppended.symout⟩
  · exact tokensAppended_raise e s

theorem exec_keeps_cmd {i : Instr} {s t : State} (h : exec i s = .next t) : t.cmd = s.cmd := by
  rcases exec_cases h with ⟨s', d, rfl, hc⟩ | ⟨e, rfl, -⟩
  · rw [respond_cmd, hc.kept.2.1]
  · exact raise_cmd e s

/-- Every word presented in a state that meets the invariant has a step, with one response (R12, R18). -/
theorem step_completes {s : State} {w : Word} {rest : List Word} (h : Inv s) (hs : s.cmd = w :: rest) :
    ∃ t r, step s = .next t ∧ t.cmd = rest ∧ t.rsp = s.rsp ++ [r] ∧ TokensAppended s t := by
  cases hd : decode w with
  | ok i =>
    obtain ⟨t, ht⟩ := exec_completes (h.with_cmd rest) i
    obtain ⟨r, hr⟩ := exec_rsp ht
    have htok := exec_tokensAppended ht
    exact ⟨t, r, (step_of_decode_ok hs hd).trans ht, exec_keeps_cmd ht, hr, htok.bitout, htok.symout⟩
  | error e =>
    exact ⟨_, _, step_of_decode_error hs hd, raise_cmd _ _, raise_rsp _ _, .of_eq rfl rfl⟩

/-- Settles O5, from `step_completes`: a word that decodes by what a command does to the channels, any
other by the error entry. -/
theorem everyWordCompletesInOneStep : Obligations.EveryWordCompletesInOneStep := by
  intro s w rest h hs
  obtain ⟨t, r, ht, hcmd, hrsp, ⟨bits, hbits⟩, ⟨syms, hsyms⟩⟩ := step_completes h hs
  exact ⟨t, r, bits, syms, ht, hcmd, hrsp, hbits.symm, hsyms.symm⟩

/-! ### The coders and what stands upstream of CT (00_scope.md R3)

Every operation the coders are made of commutes with replacing FT, TOTAL and the tree, and no guard of
theirs reads any of them. -/

theorem raise_withUpstream (e : Err) (u s : State) :
    raise e (withUpstream u s) = withUpstream u (raise e s) := by cases e <;> rfl

theorem failWith_withUpstream (e : Err) (u s : State) :
    failWith e (withUpstream u s) = mapNext (withUpstream u) (failWith e s) :=
  congrArg Host.Outcome.next (raise_withUpstream e u s)

theorem matchAcc_withUpstream (u s : State) :
    matchAcc (withUpstream u s) = withUpstream u (matchAcc s) := by
  have hdt : dtFind (withUpstream u s).ct (withUpstream u s).acclen (withUpstream u s).acc =
      dtFind s.ct s.acclen s.acc := rfl
  simp only [matchAcc, hdt]
  cases dtFind s.ct s.acclen s.acc <;> rfl

/-- Where there is only a guard to pass, the guard reads the same field in both states. -/
theorem exec_withUpstream_of_coder {i : Instr} (hi : isEncoder i = true ∨ isDecoder i = true) (u s : State) :
    exec i (withUpstream u s) = mapNext (withUpstream u) (exec i s) := by
  cases i with
  | encbeg => simp only [exec, execEncbeg, mapNext_ite, ← failWith_withUpstream]; rfl
  | encend => simp only [exec, execEncend, mapNext_ite, ← failWith_withUpstream]; rfl
  | decbeg => simp only [exec, execDecbeg, mapNext_ite, ← failWith_withUpstream]; rfl
  | decend => simp only [exec, execDecend, mapNext_ite, ← failWith_withUpstream]; rfl
  | enc x =>
    have hct : (withUpstream u s).ct = s.ct := rfl
    simp only [exec, execEnc, mapNext_ite, ← failWith_withUpstream, hct]
    cases ctFind s.ct x <;> rfl
  | decbit dig =>
    have happ : appendDigit dig (withUpstream u s) = withUpstream u (appendDigit dig s) := rfl
    simp only [exec, execDecbit, mapNext_ite, ← failWith_withUpstream, happ, matchAcc_withUpstream]
    rfl
  | _ => simp [isEncoder, isDecoder] at hi

/-- Settles O56, from `exec_withUpstream_of_coder`, each coder command commuting with `withUpstream`. -/
theorem codersReadNothingUpstream : Obligations.CodersReadNothingUpstream := by
  intro i s u t hi h
  rw [exec_withUpstream_of_coder hi, h]
  rfl

end Sys2Proof.Machine

/-! PROOFS. State (10_state.md): the reset values (R41), the invariant and the frames that every step keeps
(R42, R33), which command writes which element (R20), ERRLOG, DEGEN and STATUS (R34 to R36), and a program's
words as its commands (R37). -/

namespace Sys2Proof.Machine

open Sys2Proof

/-! ### What a step can be -/

/-- A step that answers a next state is the idle step, the command of the word taken from CMD, or
`IllegalCommand` for a word that is no command (30_encoding.md R83). -/
theorem step_cases {s t : State} (h : step s = .next t) :
    (s.cmd = [] ∧ t = s) ∨
    (∃ w rest i, s.cmd = w :: rest ∧ decode w = .ok i ∧ exec i { s with cmd := rest } = .next t) ∨
    (∃ w rest r, s.cmd = w :: rest ∧ decode w = .error r ∧
      t = raise .illegalCommand { s with cmd := rest }) := by
  cases hs : s.cmd with
  | nil =>
    simp only [step, hs, Host.Outcome.next.injEq] at h
    exact .inl ⟨rfl, h.symm⟩
  | cons w rest =>
    cases hd : decode w with
    | ok i => exact .inr (.inl ⟨w, rest, i, rfl, hd, (step_of_decode_ok hs hd).symm.trans h⟩)
    | error r =>
      rw [step_of_decode_error hs hd, failWith_eq_next] at h
      exact .inr (.inr ⟨w, rest, r, rfl, hd, h.symm⟩)

/-- A predicate that sees neither CMD nor RSP, and that every error and every effect of `OK` keep, is kept
by every step. -/
theorem step_keeps {P : State → Prop} (hcmd : ∀ s c, P s → P { s with cmd := c })
    (hrespond : ∀ s c d, P s → P (respond c d s)) (hraise : ∀ s e, P s → P (raise e s))
    (hok : ∀ {i s s' d}, Completes s i s' d → P s → P s') {s t : State} (h : P s)
    (hst : step s = .next t) : P t := by
  rcases step_cases hst with ⟨-, rfl⟩ | ⟨-, rest, i, -, -, hi⟩ | ⟨-, rest, -, -, -, rfl⟩
  · exact h
  · rcases exec_cases hi with ⟨s', d, rfl, hc⟩ | ⟨e, rfl, -⟩
    · exact hrespond _ _ _ (hok hc (hcmd s rest h))
    · exact hraise _ _ (hcmd s rest h)
  · exact hraise _ _ (hcmd s rest h)

/-! ### Reset (R41) -/

/-- Settles O1: each element by evaluation, the STATUS view (R36) among them. -/
theorem resetStateHoldsTheSpecValues : Obligations.ResetStateHoldsTheSpecValues := by
  unfold Obligations.ResetStateHoldsTheSpecValues
  decide

theorem FtInv.of_empty {s : State} (hft : s.ft = []) (htotal : s.total = 0) : FtInv s :=
  ⟨by simp [hft], by simp [hft], by simp [hft], by simp [hft, htotal]⟩

theorem inv_reset : Inv State.reset :=
  ⟨.of_empty rfl rfl, ⟨rfl, rfl⟩, CtInv.nil, decInv_closed rfl rfl rfl rfl, ⟨rfl, rfl⟩⟩

theorem framesClosed_reset : FramesClosed State.reset := ⟨fun _ => rfl, fun _ => rfl⟩

/-- Settles O2: the tables of the reset state are empty, its frames closed and its channels empty. -/
theorem resetMeetsTheInvariant : Obligations.ResetMeetsTheInvariant := ⟨inv_reset, framesClosed_reset⟩

/-! ### The invariant (R42)

Each command that completes writes at most one of the parts of `Inv`; so one lemma for each part, and one
that leaves the others as they are. -/

/-- FT and TOTAL are written: the rest of the invariant does not read them. -/
theorem Inv.with_ft {s : State} (h : Inv s) {ft : List FtEntry} {total : Count}
    (hft : FtInv { s with ft := ft, total := total }) : Inv { s with ft := ft, total := total } :=
  ⟨hft, h.tree, h.ct,
    ⟨h.dec.closed_empty, h.dec.high_zero, h.dec.no_code_inside, h.dec.overrun_full⟩, h.errlog⟩

/-- CT is written while no frame is open (20_memory.md R71), so that no digit waits in ACC. -/
theorem Inv.with_ct {s : State} (h : Inv s) (hl : s.locked = false) {ct : List CtEntry} (hct : CtInv ct)
    (degen : Bool) : Inv { s with ct := ct, degen := degen } := by
  have ho : s.decOpen = false := (Bool.or_eq_false_iff.mp hl).2
  obtain ⟨hlen, hacc, hovr⟩ := h.dec.closed_empty ho
  exact ⟨⟨h.ft.room, h.ft.distinct, h.ft.positive, h.ft.total_eq⟩, h.tree, hct,
    decInv_closed ho hacc hlen hovr, h.errlog⟩

/-- The decoder writes its registers, its flag and SYMOUT, and neither a table nor ERRLOG. -/
theorem Inv.with_dec {s t : State} (h : Inv s) (hft : t.ft = s.ft) (htotal : t.total = s.total)
    (htree : t.node = s.node ∧ t.root = s.root ∧ t.treeValid = s.treeValid) (hct : t.ct = s.ct)
    (hlog : t.errlog = s.errlog) (hdec : DecInv t) : Inv t := by
  obtain ⟨hnode, hroot, hvalid⟩ := htree
  refine ⟨⟨?_, ?_, ?_, ?_⟩, ?_, hct ▸ h.ct, hdec, ?_⟩
  · rw [hft]; exact h.ft.room
  · rw [hft]; exact h.ft.distinct
  · rw [hft]; exact h.ft.positive
  · rw [hft, htotal]; exact h.ft.total_eq
  · rw [TreeInv, hnode, hroot, hvalid]; exact h.tree
  · rw [ErrlogInv, hlog]; exact h.errlog

/-! #### FT -/

/-- COUNT of a known symbol keeps the table, while TOTAL is below its limit (40_frequency_counter.md R101). -/
theorem FtInv.bump {s : State} (h : FtInv s) {x : Symbol} (hx : x ∈ s.ft.map FtEntry.sym)
    (ht : s.total.toNat ≠ 65535) : FtInv { s with ft := bump x s.ft, total := s.total + 1 } := by
  have hlt : s.total.toNat < 65535 := by have := s.total.isLt; omega
  have hsum : (s.ft.map fun e => e.count.toNat).sum < 65535 := h.total_eq ▸ hlt
  refine ⟨?_, ?_, bump_positive h.positive hx hsum, ?_⟩
  · simpa using h.room
  · simpa using h.distinct
  · rw [bump_sum hx hsum, count_succ_toNat hlt, h.total_eq]

/-- COUNT of a new symbol keeps the table, while there is room (R101, R103). -/
theorem FtInv.append {s : State} (h : FtInv s) {x : Symbol} (hx : x ∉ s.ft.map FtEntry.sym)
    (ht : s.total.toNat ≠ 65535) (hl : s.ft.length ≠ 16) :
    FtInv { s with ft := s.ft ++ [⟨x, 1⟩], total := s.total + 1 } := by
  have hlt : s.total.toNat < 65535 := by have := s.total.isLt; omega
  refine ⟨?_, map_sym_append_nodup h.distinct hx, ?_, ?_⟩
  · rw [List.length_append]; exact Nat.lt_of_le_of_ne h.room hl
  · intro e he
    rcases List.mem_append.mp he with he | he
    · exact h.positive e he
    · rw [List.mem_singleton.mp he]; exact le_rfl
  · rw [count_succ_toNat hlt, h.total_eq]; simp

/-! #### CT -/

/-- LDCODE keeps the table: the checks of 42_code_table.md R126, R127 are the clauses of R27 and R29. -/
theorem CtInv.append {ct : List CtEntry} (h : CtInv ct) {x : Symbol} {len : CodeLen} {b : CodeBits}
    (hok : codeOperandOk len b = true) (hx : x ∉ ct.map CtEntry.sym)
    (hap : ∀ e ∈ ct, Apart e.code (digitsOf len b)) (hl : ct.length ≠ 16) : CtInv (ct ++ [⟨x, len, b⟩]) := by
  refine ⟨?_, ?_, map_sym_append_nodup h.distinct hx, ?_⟩
  · rw [List.length_append]; exact Nat.lt_of_le_of_ne h.room hl
  · intro e he
    rcases List.mem_append.mp he with he | he
    · exact h.well_formed e he
    · rw [List.mem_singleton.mp he]; exact hok
  · rw [List.pairwise_append]
    refine ⟨h.prefix_free, List.pairwise_singleton _ _, fun a ha e he => ?_⟩
    rw [List.mem_singleton.mp he]; exact hap a ha

/-- GEN gives a table that meets R27 and R29, since the tree is valid (42_code_table.md R122). -/
theorem Inv.genCodes_ctInv {s : State} (h : Inv s) (hv : s.treeValid = true)
    {new : List (Symbol × List Digit)} {single : Bool} (hg : genCodes s.node s.root = some (new, single)) :
    CtInv (new.map fun (sym, c) => CtEntry.ofCode sym c) := by
  have ht := h.tree
  rw [TreeInv, if_pos hv] at ht
  obtain ⟨n, ht⟩ := ht
  obtain ⟨new', single', hg', -, -, hct⟩ := ht.genCodes_inv
  rw [hg, Option.some.injEq, Prod.mk.injEq] at hg'
  rwa [hg'.1]

/-! #### The decoder's registers -/

/-- With an empty accumulator no code is inside it, because no code is empty (R27). -/
theorem decInv_empty {s : State} (hct : CtInv s.ct) (ha : s.acc = 0) (hl : s.acclen = 0)
    (hov : s.ovr = false) : DecInv s := by
  refine ⟨fun _ => ⟨hl, ha, hov⟩, by rw [ha, hl]; rfl, fun e he _ hp => ?_, fun h => by simp [hov] at h⟩
  rw [State.accDigits, hl, digitsOf_zero, List.prefix_nil] at hp
  exact hct.code_ne_nil he hp

/-- The overrun flag is set only at 15 digits (44_decoder.md R151). -/
theorem DecInv.overrun {s : State} (h : DecInv s) (ho : s.decOpen = true) (hl : s.acclen.toNat = 15) :
    DecInv { s with ovr := true } :=
  ⟨fun hc => absurd (ho.symm.trans hc) (by decide), h.high_zero, h.no_code_inside, fun _ => hl⟩

/-- A digit is appended and looked up (R151): on a match the accumulator is empty again; with none, a code
inside the longer accumulator would be inside the old one or equal to the new one. -/
theorem DecInv.matchAcc_appendDigit {s : State} (h : DecInv s) (hct : CtInv s.ct) (ho : s.decOpen = true)
    (hov : s.ovr = false) (hl : s.acclen.toNat ≠ 15) (d : Digit) :
    DecInv (matchAcc (appendDigit d s)) := by
  rcases matchAcc_cases (appendDigit d s) with ⟨e, -, -, -, hm⟩ | ⟨hno, hm⟩ <;> rw [hm]
  · exact decInv_empty hct rfl rfl hov
  · have hz := setDigit_high_zero s.acclen s.acc d hl h.high_zero
    refine ⟨fun hc => absurd (ho.symm.trans hc) (by decide), hz, fun e he _ hp => ?_,
      fun hc => absurd (hov.symm.trans hc) (by decide)⟩
    have hdig : (appendDigit d s).accDigits = s.accDigits ++ [d] := digitsOf_setDigit _ _ _ hl
    rcases List.prefix_concat_iff.mp (hdig ▸ hp) with heq | hpre
    · have hw := ((codeOperandOk_iff _ _).mp (hct.well_formed e he)).2
      exact hno e he (digitsOf_inj hw hz (heq.trans hdig.symm))
    · exact h.no_code_inside e he ho hpre

theorem Inv.matchAcc_appendDigit {s : State} (h : Inv s) (ho : s.decOpen = true) (hov : s.ovr = false)
    (hl : s.acclen.toNat ≠ 15) (d : Digit) : Inv (matchAcc (appendDigit d s)) := by
  have hdec := h.dec.matchAcc_appendDigit h.ct ho hov hl d
  rcases matchAcc_cases (appendDigit d s) with ⟨e, -, -, -, hm⟩ | ⟨-, hm⟩ <;> rw [hm] at hdec ⊢ <;>
    exact h.with_dec rfl rfl ⟨rfl, rfl, rfl⟩ rfl rfl hdec

/-! #### Every step -/

/-- The effect of every command that completes keeps the invariant. -/
theorem Completes.inv {i : Instr} {s s' : State} {d : RspData} (hc : Completes s i s' d) (h : Inv s) :
    Inv s' := by
  cases i <;> simp only [Completes] at hc
  case nop | rdnode => obtain ⟨rfl, -⟩ := hc; exact h
  case rdstat | rdtot | rdfreq | rdtree | rdcode => obtain ⟨-, rfl⟩ := hc; exact h
  case ftclr => obtain ⟨rfl, -⟩ := hc; exact h.with_ft (.of_empty rfl rfl)
  case count x =>
    obtain ⟨ht, -, ⟨hx, rfl⟩ | ⟨hx, hl, rfl⟩⟩ := hc
    · exact h.with_ft (h.ft.bump hx ht)
    · exact h.with_ft (h.ft.append hx ht hl)
  case build =>
    obtain ⟨hne, hroom, -, rfl⟩ := hc
    exact ⟨⟨h.ft.room, h.ft.distinct, h.ft.positive, h.ft.total_eq⟩,
      ⟨_, buildTree_valid hne hroom h.ft.sum_le h.ft.distinct⟩, h.ct,
      ⟨h.dec.closed_empty, h.dec.high_zero, h.dec.no_code_inside, h.dec.overrun_full⟩, h.errlog⟩
  case gen =>
    obtain ⟨hl, hv, -, new, single, hg, -, rfl⟩ := hc
    exact h.with_ct hl (h.genCodes_ctInv hv hg) single
  case ctclr => obtain ⟨hl, -, rfl⟩ := hc; exact h.with_ct hl .nil false
  case ldcode =>
    obtain ⟨hl, hok, hx, hap, hlen, -, rfl⟩ := hc
    exact h.with_ct hl (h.ct.append hok hx hap hlen) false
  case encbeg | encend => obtain ⟨-, -, rfl⟩ := hc; exact h.congr rfl rfl rfl rfl rfl rfl rfl rfl rfl rfl rfl
  case enc =>
    obtain ⟨-, -, e, -, -, -, rfl⟩ := hc
    exact h.congr rfl rfl rfl rfl rfl rfl rfl rfl rfl rfl rfl
  case decbeg =>
    obtain ⟨-, -, rfl⟩ := hc
    exact h.with_dec rfl rfl ⟨rfl, rfl, rfl⟩ rfl rfl (decInv_empty h.ct rfl rfl rfl)
  case decbit dig =>
    obtain ⟨ho, -, ⟨-, rfl⟩ | ⟨-, hl, rfl⟩ | ⟨hov, hl, rfl⟩⟩ := hc
    · exact h
    · exact h.with_dec rfl rfl ⟨rfl, rfl, rfl⟩ rfl rfl (h.dec.overrun ho hl)
    · exact h.matchAcc_appendDigit ho hov hl dig
  case decend =>
    obtain ⟨-, -, -, rfl⟩ := hc
    exact h.with_dec rfl rfl ⟨rfl, rfl, rfl⟩ rfl rfl (decInv_closed rfl rfl rfl rfl)

/-- Settles O3: neither CMD nor RSP is in the invariant, every error keeps it (`Inv.raise`), and so does
every effect of `OK` (`Completes.inv`). -/
theorem stepKeepsTheInvariant : Obligations.StepKeepsTheInvariant := by
  intro s t h hst
  exact step_keeps (fun _ c h => h.with_cmd c) (fun _ _ _ h => h.respond) (fun _ _ h => h.raise)
    (fun hc h => hc.inv h) h hst

/-! ### Which command writes which element (R20) -/

/-- From `s` to `t` nothing was written but what R20 lets the command `i` write. -/
structure WritesOnlyItsOwn (i : Instr) (s t : State) : Prop where
  counts : i ≠ .ftclr → (∀ x, i ≠ .count x) → t.ft = s.ft ∧ t.total = s.total
  tree : i ≠ .build → t.node = s.node ∧ t.root = s.root ∧ t.treeValid = s.treeValid
  codes : i ≠ .gen → i ≠ .ctclr → (∀ x len c, i ≠ .ldcode x len c) → t.ct = s.ct ∧ t.degen = s.degen
  encoder : isEncoder i = false → t.encOpen = s.encOpen ∧ t.bitout = s.bitout
  decoder : isDecoder i = false → t.acc = s.acc ∧ t.acclen = s.acclen ∧ t.ovr = s.ovr ∧ t.symout = s.symout
  decFlag : i ≠ .decbeg → i ≠ .decend → t.decOpen = s.decOpen

theorem WritesOnlyItsOwn.refl (i : Instr) (s : State) : WritesOnlyItsOwn i s s :=
  ⟨fun _ _ => ⟨rfl, rfl⟩, fun _ => ⟨rfl, rfl, rfl⟩, fun _ _ _ => ⟨rfl, rfl⟩, fun _ => ⟨rfl, rfl⟩,
    fun _ => ⟨rfl, rfl, rfl, rfl⟩, fun _ _ => rfl⟩

/-- The effect of `OK` is within R20: each command's effect is the state it began in but for the elements it
may write. -/
theorem Completes.writesOnlyItsOwn {i : Instr} {s s' : State} {d : RspData} (hc : Completes s i s' d) :
    WritesOnlyItsOwn i s s' := by
  have same := WritesOnlyItsOwn.refl i s
  cases i <;> simp only [Completes] at hc
  case nop | rdnode => obtain ⟨rfl, -⟩ := hc; exact same
  case rdstat | rdtot | rdfreq | rdtree | rdcode => obtain ⟨-, rfl⟩ := hc; exact same
  case ftclr => obtain ⟨rfl, -⟩ := hc; exact { same with counts := fun h => absurd rfl h }
  case count x =>
    obtain ⟨-, -, ⟨-, rfl⟩ | ⟨-, -, rfl⟩⟩ := hc <;> exact { same with counts := fun _ h => absurd rfl (h x) }
  case build => obtain ⟨-, -, -, rfl⟩ := hc; exact { same with tree := fun h => absurd rfl h }
  case gen => obtain ⟨-, -, -, _, _, -, -, rfl⟩ := hc; exact { same with codes := fun h => absurd rfl h }
  case ctclr => obtain ⟨-, -, rfl⟩ := hc; exact { same with codes := fun _ h => absurd rfl h }
  case ldcode x len c =>
    obtain ⟨-, -, -, -, -, -, rfl⟩ := hc; exact { same with codes := fun _ _ h => absurd rfl (h x len c) }
  case encbeg | encend => obtain ⟨-, -, rfl⟩ := hc; exact { same with encoder := fun h => Bool.noConfusion h }
  case enc => obtain ⟨-, -, _, -, -, -, rfl⟩ := hc; exact { same with encoder := fun h => Bool.noConfusion h }
  case decbeg =>
    obtain ⟨-, -, rfl⟩ := hc
    exact { same with decoder := fun h => Bool.noConfusion h, decFlag := fun h => absurd rfl h }
  case decbit dig =>
    obtain ⟨-, -, ⟨-, rfl⟩ | ⟨-, -, rfl⟩ | ⟨-, -, rfl⟩⟩ := hc
    · exact same
    · exact { same with decoder := fun h => Bool.noConfusion h }
    · rcases matchAcc_cases (appendDigit dig s) with ⟨_, -, -, -, hm⟩ | ⟨-, hm⟩ <;> rw [hm] <;>
        exact { same with decoder := fun h => Bool.noConfusion h }
  case decend =>
    obtain ⟨-, -, -, rfl⟩ := hc
    exact { same with decoder := fun h => Bool.noConfusion h, decFlag := fun _ h => absurd rfl h }

/-- Only ENC raises `UnknownSymbol` (60_exceptions.md R193). -/
theorem Raises.eq_enc {s : State} {i : Instr} (h : Raises s i .unknownSymbol) : ∃ x, i = .enc x := by
  cases i
  case enc x => exact ⟨x, rfl⟩
  all_goals simp [Raises] at h

/-- Only DECEND raises `TruncatedStream` (R194). -/
theorem Raises.eq_decend {s : State} {i : Instr} (h : Raises s i .truncatedStream) : i = .decend := by
  cases i
  case decend => rfl
  all_goals simp [Raises] at h

/-- An error writes ERRLOG, and an aborted frame is one of the command that raised it (R203). -/
theorem Raises.writesOnlyItsOwn {s : State} {i : Instr} {e : Err} (h : Raises s i e) :
    WritesOnlyItsOwn i s (raise e s) := by
  have same := WritesOnlyItsOwn.refl i s
  cases e
  case unknownSymbol =>
    obtain ⟨x, rfl⟩ := h.eq_enc
    exact { same with encoder := fun h => Bool.noConfusion h }
  case truncatedStream =>
    obtain rfl := h.eq_decend
    exact { same with decoder := fun h => Bool.noConfusion h, decFlag := fun _ h => absurd rfl h }
  all_goals exact { same with }

theorem exec_writesOnlyItsOwn {i : Instr} {s t : State} (h : exec i s = .next t) : WritesOnlyItsOwn i s t := by
  rcases exec_cases h with ⟨s', d, rfl, hc⟩ | ⟨e, rfl, he⟩
  · exact { hc.writesOnlyItsOwn with }
  · exact he.writesOnlyItsOwn

/-- A command that answers `OK` leaves ERRLOG, and an ENC that does leaves its frame open (R141). -/
theorem exec_ok_keeps {i : Instr} {s t : State} {r : Word} (h : exec i s = .next t)
    (hr : t.rsp = s.rsp ++ [r]) (hok : codeOf r = 0) :
    t.errlog = s.errlog ∧ ((∃ x, i = .enc x) → t.encOpen = s.encOpen) := by
  rcases exec_codeOf h hr with ⟨-, hlog, s', d, rfl, hc⟩ | ⟨e, he, -⟩
  · refine ⟨hlog, ?_⟩
    rintro ⟨x, rfl⟩
    obtain ⟨-, -, e, -, -, -, rfl⟩ := hc
    rfl
  · exact absurd (he.symm.trans hok) e.code_ne_zero

/-- Settles O55: the clauses of a command by `exec_writesOnlyItsOwn`, `exec_ok_keeps` and `exec_keeps_cmd`,
those of the host's reset by its definition. -/
theorem elementsAreWrittenOnlyByTheirCommands : Obligations.ElementsAreWrittenOnlyByTheirCommands := by
  refine ⟨fun i s t h => ?_, fun s => ⟨rfl, rfl, rfl, rfl, rfl, rfl, rfl, rfl, rfl, rfl, rfl, rfl, rfl⟩⟩
  have hw := exec_writesOnlyItsOwn h
  exact ⟨hw.counts, hw.tree, hw.codes, hw.encoder, hw.decoder, hw.decFlag,
    fun r hr hok => exec_ok_keeps h hr hok, exec_keeps_cmd h⟩

/-! ### Frames (R33, R40) -/

/-- A closing token ends the frame, whatever came before it. -/
theorem unfinished_close {α : Type} (ts : List (Token α)) : unfinished (ts ++ [.close]) = [] := by
  rw [unfinished, unfinishedFrom_append]; rfl

theorem unfinished_abort {α : Type} (ts : List (Token α)) : unfinished (ts ++ [.abort]) = [] := by
  rw [unfinished, unfinishedFrom_append]; rfl

/-- An error closes the frame with a token or leaves flag and history as they are (60_exceptions.md R203). -/
theorem FramesClosed.raise {s : State} (h : FramesClosed s) (e : Err) : FramesClosed (raise e s) := by
  cases e
  case unknownSymbol => exact ⟨fun _ => unfinished_abort s.bitout, h.dec⟩
  case truncatedStream => exact ⟨h.enc, fun _ => unfinished_abort s.symout⟩
  all_goals exact ⟨h.enc, h.dec⟩

/-- ENCBEG opens the frame, ENC needs it open, ENCEND closes it with a token; no other command touches it. -/
theorem Completes.encode_frame {i : Instr} {s s' : State} {d : RspData} (hc : Completes s i s' d)
    (h : s.encOpen = false → unfinished s.bitout = []) (ho : s'.encOpen = false) :
    unfinished s'.bitout = [] := by
  have hw := hc.writesOnlyItsOwn.encoder
  cases i <;> simp only [Completes] at hc
  case encbeg => obtain ⟨-, -, rfl⟩ := hc; exact Bool.noConfusion ho
  case enc => obtain ⟨hopen, -, _, -, -, -, rfl⟩ := hc; exact absurd (hopen.symm.trans ho) Bool.noConfusion
  case encend => obtain ⟨-, -, rfl⟩ := hc; exact unfinished_close s.bitout
  all_goals
    obtain ⟨hflag, hbits⟩ := hw rfl
    rw [hbits]
    exact h (hflag ▸ ho)

/-- DECBEG opens the frame, DECBIT needs it open, DECEND closes it with a token; no other command touches it. -/
theorem Completes.decode_frame {i : Instr} {s s' : State} {d : RspData} (hc : Completes s i s' d)
    (h : s.decOpen = false → unfinished s.symout = []) (ho : s'.decOpen = false) :
    unfinished s'.symout = [] := by
  have hw := hc.writesOnlyItsOwn
  cases i <;> simp only [Completes] at hc
  case decbeg => obtain ⟨-, -, rfl⟩ := hc; exact Bool.noConfusion ho
  case decbit =>
    have hflag := hw.decFlag Instr.noConfusion Instr.noConfusion
    exact absurd (hc.1.symm.trans (hflag.symm.trans ho)) Bool.noConfusion
  case decend => obtain ⟨-, -, -, rfl⟩ := hc; exact unfinished_close s.symout
  all_goals
    obtain ⟨-, -, -, hsyms⟩ := hw.decoder rfl
    rw [hsyms]
    exact h (hw.decFlag Instr.noConfusion Instr.noConfusion ▸ ho)

/-- Settles O4: an error and an effect of `OK` each keep the two channels' frames as their flags say. -/
theorem stepLeavesFramesClosedUnlessOpen : Obligations.StepLeavesFramesClosedUnlessOpen := by
  intro s t h hst
  exact step_keeps (fun _ _ h => ⟨h.enc, h.dec⟩) (fun _ _ _ h => ⟨h.enc, h.dec⟩) (fun _ e h => h.raise e)
    (fun hc h => ⟨hc.encode_frame h.enc, hc.decode_frame h.dec⟩) h hst

/-! ### ERRLOG (R35) -/

theorem getLsbD_logBit (e : Err) {k : Nat} (hk : k < 11) :
    (logBit e.code).getLsbD k = true ↔ k = e.code.toNat := by
  revert k
  cases e <;> decide

/-- The answer of a step says whether it set an ERRLOG bit, and which (60_exceptions.md R203). -/
theorem step_errlog {s t : State} {r : Word} (h : step s = .next t) (hr : t.rsp = s.rsp ++ [r]) :
    (codeOf r = 0 ∧ t.errlog = s.errlog) ∨
    (∃ e : Err, codeOf r = e.code.toNat ∧ t.errlog = s.errlog ||| logBit e.code) := by
  rcases step_cases h with ⟨-, rfl⟩ | ⟨-, rest, i, -, -, hi⟩ | ⟨-, rest, -, -, -, rfl⟩
  · simp at hr
  · rcases exec_codeOf hi hr with ⟨hok, hlog, -⟩ | ⟨e, he, rfl, -⟩
    · exact .inl ⟨hok, hlog⟩
    · exact .inr ⟨e, he, raise_errlog _ _⟩
  · rw [raise_rsp, List.append_cancel_left_eq, List.singleton_inj] at hr
    exact .inr ⟨.illegalCommand, by rw [← hr, codeOf_responseWord], raise_errlog _ _⟩

/-- Settles O51, from `step_errlog`: `OK` is code 0 and leaves ERRLOG, an error sets the bit of its code. -/
theorem errlogRecordsEveryError : Obligations.ErrlogRecordsEveryError := by
  intro s t r h hr k hk
  rcases step_errlog h hr with ⟨hok, hlog⟩ | ⟨e, he, hlog⟩
  · rw [hlog, hok]
    exact ⟨.inl, fun h => h.resolve_right fun ⟨hk0, h0⟩ => hk0 h0.symm⟩
  · have hbit := getLsbD_logBit e hk
    have hne := e.code_ne_zero
    rw [hlog, he, BitVec.getLsbD_or, Bool.or_eq_true, hbit]
    constructor
    · rintro (h | rfl)
      · exact .inl h
      · exact .inr ⟨hne, rfl⟩
    · exact Or.imp_right fun h => h.2.symm

/-! ### ERRLOG and DEGEN gate nothing (R34, R35)

Up to ERRLOG and DEGEN, every command but RDSTAT gives the same answer whatever stands in them. -/

/-- `s` with other values in ERRLOG and DEGEN. -/
def withLog (log : ErrLog) (degen : Bool) (s : State) : State := { s with errlog := log, degen := degen }

/-- Two answers that differ at most in ERRLOG and DEGEN of the next state. -/
def SameButLog (x y : Result) : Prop := ∀ log degen, mapNext (withLog log degen) x = mapNext (withLog log degen) y

theorem SameButLog.finish {s s' : State} (d : RspData) (h : ∀ log degen, withLog log degen s = withLog log degen s') :
    SameButLog (finish d s) (finish d s') := fun log degen =>
  congrArg (fun u => Host.Outcome.next (respond okCode d u)) (h log degen)

theorem SameButLog.failWith (e : Err) (log : ErrLog) (degen : Bool) (s : State) :
    SameButLog (failWith e (withLog log degen s)) (failWith e s) := fun _ _ => by cases e <;> rfl

theorem SameButLog.ite {p : Prop} [Decidable p] {x x' y y' : Result} (hx : SameButLog x x')
    (hy : SameButLog y y') : SameButLog (if p then x else y) (if p then x' else y') := by
  split
  · exact hx
  · exact hy

theorem matchAcc_withLog (log : ErrLog) (degen : Bool) (s : State) :
    matchAcc (withLog log degen s) = withLog log degen (matchAcc s) := by
  have hdt : dtFind (withLog log degen s).ct (withLog log degen s).acclen (withLog log degen s).acc =
      dtFind s.ct s.acclen s.acc := rfl
  rw [matchAcc, matchAcc, hdt]
  cases dtFind s.ct s.acclen s.acc <;> rfl

/-- Every arm of `exec` but RDSTAT's: the same guards and look-ups, and the same two endings. -/
theorem exec_withLog {i : Instr} (hi : i ≠ .rdstat) (log : ErrLog) (degen : Bool) (s : State) :
    SameButLog (exec i (withLog log degen s)) (exec i s) := by
  have fails (e : Err) := SameButLog.failWith e log degen s
  cases i with
  | rdstat => exact absurd rfl hi
  | nop | ftclr | rdtot | rdfreq | rdtree | rdcode => exact .finish _ fun _ _ => rfl
  | build => exact .ite (fails _) (.ite (fun _ _ => rfl) (.finish _ fun _ _ => rfl))
  | ctclr | encbeg | encend | decbeg => exact .ite (fails _) (.finish _ fun _ _ => rfl)
  | decend => exact .ite (fails _) (.ite (fails _) (.finish _ fun _ _ => rfl))
  | ldcode =>
    exact .ite (fails _) (.ite (fails _) (.ite (fails _) (.ite (fails _) (.ite (fails _) (.ite (fails _)
      (.finish _ fun _ _ => rfl))))))
  | count x =>
    have hft : (withLog log degen s).ft = s.ft := rfl
    refine .ite (fails _) ?_
    rw [hft]
    cases ftFind s.ft x with
    | some _ => exact .finish _ fun _ _ => rfl
    | none => exact .ite (fails _) (.finish _ fun _ _ => rfl)
  | gen =>
    have hg : genCodes (withLog log degen s).node (withLog log degen s).root = genCodes s.node s.root := rfl
    refine .ite (fails _) (.ite (fails _) ?_)
    rw [hg]
    cases genCodes s.node s.root with
    | none => exact fun _ _ => rfl
    | some _ => exact .ite (fun _ _ => rfl) (.finish _ fun _ _ => rfl)
  | enc x =>
    have hct : (withLog log degen s).ct = s.ct := rfl
    refine .ite (fails _) ?_
    rw [hct]
    cases ctFind s.ct x with
    | none => exact fails _
    | some _ => exact .finish _ fun _ _ => rfl
  | decbit dig =>
    have hm : matchAcc (appendDigit dig (withLog log degen s)) =
        withLog log degen (matchAcc (appendDigit dig s)) := matchAcc_withLog log degen (appendDigit dig s)
    exact .ite (fails _) (.ite (.finish _ fun _ _ => rfl) (.ite (.finish _ fun _ _ => rfl)
      (.finish _ fun l g => by rw [hm]; rfl)))
  | rdnode idx =>
    show SameButLog (execRdnode idx (withLog log degen s)) (execRdnode idx s)
    have hn : (withLog log degen s).node = s.node := rfl
    rw [execRdnode, execRdnode, hn]
    cases s.node[idx.toNat]? with
    | none => exact fails _
    | some _ => exact .finish _ fun _ _ => rfl

/-- Settles O57, from `exec_withLog`, with ERRLOG and DEGEN of the two next states made equal. -/
theorem errlogAndDegenGateNothing : Obligations.ErrlogAndDegenGateNothing := by
  intro i s t log degen hi h
  have hsame := exec_withLog hi log degen s t.errlog t.degen
  rw [h] at hsame
  show ∃ u, exec i (withLog log degen s) = .next u ∧ withLog t.errlog t.degen u = t
  cases hu : exec i (withLog log degen s) with
  | next u => rw [hu] at hsame; exact ⟨u, rfl, Host.Outcome.next.inj hsame⟩
  | fault r => rw [hu] at hsame; cases hsame
  | refused r => rw [hu] at hsame; cases hsame

/-! ### STATUS (R36) -/

theorem ftn_toNat {s : State} (h : FtInv s) : s.ftn.toNat = s.ft.length := by
  have hroom : s.ft.length ≤ 16 := h.room
  rw [State.ftn, BitVec.toNat_ofNat]; omega

theorem ctn_toNat {s : State} (h : CtInv s.ct) : s.ctn.toNat = s.ct.length := by
  have hroom : s.ct.length ≤ 16 := h.room
  rw [State.ctn, BitVec.toNat_ofNat]; omega

theorem dpend_iff (s : State) : s.dpend = true ↔ s.acclen ≠ 0 ∨ s.ovr = true := by
  simp [State.dpend]

/-- Outside a decode frame nothing is pending (R31, R32). -/
theorem dpend_of_closed {s : State} (h : DecInv s) (ho : s.decOpen = false) : s.dpend = false := by
  obtain ⟨hlen, -, hovr⟩ := h.closed_empty ho
  simp [State.dpend, hlen, hovr]

/-- STATUS as a number: five flags, the two counters and ERRLOG, each at its place. -/
theorem status_toNat (s : State) : s.status.toNat =
    s.errlog.toNat * 2 ^ 16 + s.ctn.toNat * 2 ^ 10 + s.ftn.toNat * 2 ^ 5 + s.degen.toNat * 2 ^ 4 +
      s.dpend.toNat * 2 ^ 3 + s.decOpen.toNat * 2 ^ 2 + s.encOpen.toNat * 2 + s.treeValid.toNat := by
  show (s.errlog ++ 0#1 ++ s.ctn ++ s.ftn ++ BitVec.ofBool s.degen ++ BitVec.ofBool s.dpend ++
    BitVec.ofBool s.decOpen ++ BitVec.ofBool s.encOpen ++ BitVec.ofBool s.treeValid :
      BitVec (11 + 1 + 5 + 5 + 1 + 1 + 1 + 1 + 1)).toNat = _
  simp only [toNat_append_eq, BitVec.toNat_ofNat, BitVec.toNat_ofBool]
  omega

theorem status_bit (s : State) (j : Nat) : s.status.getLsbD j =
    (s.errlog ++ 0#1 ++ s.ctn ++ s.ftn ++ BitVec.ofBool s.degen ++ BitVec.ofBool s.dpend ++
      BitVec.ofBool s.decOpen ++ BitVec.ofBool s.encOpen ++ BitVec.ofBool s.treeValid :
        BitVec (11 + 1 + 5 + 5 + 1 + 1 + 1 + 1 + 1)).getLsbD j := rfl

theorem status_flags (s : State) :
    s.status.getLsbD 0 = s.treeValid ∧ s.status.getLsbD 1 = s.encOpen ∧ s.status.getLsbD 2 = s.decOpen ∧
    s.status.getLsbD 3 = s.dpend ∧ s.status.getLsbD 4 = s.degen ∧ s.status.getLsbD 15 = false := by
  simp only [status_bit, BitVec.getLsbD_append, -Nat.reduceAdd]
  simp

theorem status_errlog (s : State) (k : Nat) :
    s.status.getLsbD (16 + k) = s.errlog.getLsbD k := by
  simp only [status_bit, BitVec.getLsbD_append, -Nat.reduceAdd]
  repeat rw [if_neg (by omega)]
  congr 1
  omega

/-- Settles O47: the flags and ERRLOG bit by bit, the counters from STATUS as a number. -/
theorem statusWordLayout : Obligations.StatusWordLayout := by
  intro s h
  obtain ⟨h0, h1, h2, h3, h4, h15⟩ := status_flags s
  have hnum := status_toNat s
  have hft := s.ftn.isLt
  have hct := s.ctn.isLt
  have := s.degen.toNat_lt
  have := s.dpend.toNat_lt
  have := s.decOpen.toNat_lt
  have := s.encOpen.toNat_lt
  have := s.treeValid.toNat_lt
  refine ⟨h0, h1, h2, h3 ▸ dpend_iff s, fun ho => h3 ▸ dpend_of_closed h.dec ho, h4, ?_, ?_, h15,
    fun k _ => status_errlog s k⟩
  · rw [← ftn_toNat h.ft]; omega
  · rw [← ctn_toNat h.ct]; omega

/-! ### A program's words (R37) -/

/-- The word of a command decodes to the command (30_encoding.md R81, R90), format by format. -/
theorem decode_encode (i : Instr) : decode (encode i) = .ok i := by
  cases i
  case count | enc | rdfreq | rdcode => rw [encode, decode, opField_wordS]; exact formatS_wordS _ _ _
  case ldcode => rw [encode, decode, opField_wordC]; exact formatC_wordC _ _ _ _ _
  case decbit => rw [encode, decode, opField_wordB]; exact formatB_wordB _ _ _
  case rdnode => rw [encode, decode, opField_wordN]; exact formatN_wordN _ _ _
  all_goals (rw [encode, decode, opField_wordZ]; exact formatZ_wordZ _ _)

/-- A step on the word of a command is the command, with the word taken from CMD and the rest left. -/
theorem step_encode (i : Instr) (s : State) (rest : List Word) :
    step { s with cmd := encode i :: rest } = exec i { s with cmd := rest } :=
  step_of_decode_ok rfl (decode_encode i)

/-- Settles O7, by induction on the program: a step is its first command (`step_encode`), which neither reads
nor writes the words behind it (`exec_cmd`, `exec_keeps_cmd`). -/
theorem encodedProgramRunsInOrder : Obligations.EncodedProgramRunsInOrder := by
  intro prog rest
  induction prog with
  | nil => exact fun s => rfl
  | cons i is ih =>
    intro s
    rw [List.length_cons, core_run_succ, List.map_cons, List.cons_append, step_encode, execAll,
      exec_cmd i s (is.map encode ++ rest), exec_cmd i s rest]
    cases exec i s with
    | next t => exact ih t
    | fault r => rfl
    | refused r => rfl

end Sys2Proof.Machine

/-! PROOFS. Memory (20_memory.md): an open frame locks the code table (R71), and a read-back command issued
twice answers the same twice (R66). -/

namespace Sys2Proof.Machine

open Sys2Proof

/-! ### The lock on the code table (R71) -/

/-- The three commands that write CT read the lock before anything else. -/
theorem exec_codeTableWriter_of_locked {s : State} (hl : s.locked = true) {i : Instr}
    (hi : i = .gen ∨ i = .ctclr ∨ ∃ sym len cbits, i = .ldcode sym len cbits) :
    exec i s = .next (errored 6 s) := by
  obtain rfl | rfl | ⟨sym, len, cbits, rfl⟩ := hi <;> exact if_pos hl

/-- Those three are refused, and no other command writes CT. -/
theorem exec_keeps_ct_of_locked {i : Instr} {s t : State} (hl : s.locked = true) (h : exec i s = .next t) :
    t.ct = s.ct := by
  by_cases hi : i = .gen ∨ i = .ctclr ∨ ∃ sym len cbits, i = .ldcode sym len cbits
  · rw [exec_codeTableWriter_of_locked hl hi, Host.Outcome.next.injEq] at h
    rw [← h]; rfl
  · have hcodes := (exec_writesOnlyItsOwn h).codes (fun hg => hi (.inl hg)) (fun hc => hi (.inr (.inl hc)))
      (fun sym len cbits hd => hi (.inr (.inr ⟨sym, len, cbits, hd⟩)))
    exact hcodes.1

/-- A response with the code of an error is the answer of that error. -/
theorem raises_of_codeOf {i : Instr} {s t : State} {r : Word} {e : Err} (h : exec i s = .next t)
    (hr : t.rsp = s.rsp ++ [r]) (hc : codeOf r = e.code.toNat) : Raises s i e := by
  rcases exec_codeOf h hr with ⟨hok, -⟩ | ⟨e', he', -, hraises⟩
  · exact absurd (hc.symm.trans hok) e.code_ne_zero
  · rwa [Err.code_injective (hc.symm.trans he')]

/-- Neither the frequency counter nor the tree builder has an order to keep (60_exceptions.md R197). -/
theorem not_raises_badSequence_of_upstream {s : State} {i : Instr}
    (hi : i = .ftclr ∨ i = .build ∨ ∃ sym, i = .count sym) : ¬ Raises s i .badSequence := by
  obtain rfl | rfl | ⟨sym, rfl⟩ := hi <;> simp [Raises]

/-- The commands that write FT or NODE leave the frames as they are. -/
theorem exec_upstream_keeps_frames {i : Instr} {s t : State}
    (hi : i = .ftclr ∨ i = .build ∨ ∃ sym, i = .count sym) (h : exec i s = .next t) :
    t.encOpen = s.encOpen ∧ t.decOpen = s.decOpen := by
  have hw := exec_writesOnlyItsOwn h
  obtain rfl | rfl | ⟨sym, rfl⟩ := hi <;> exact ⟨(hw.encoder rfl).1, hw.decFlag nofun nofun⟩

/-- Settles O30: the lock is read first by the writers of CT (`exec_codeTableWriter_of_locked`), and by none
of the commands that write FT or NODE (`not_raises_badSequence_of_upstream`). -/
theorem openFrameLocksTheCodeTable : Obligations.OpenFrameLocksTheCodeTable := by
  intro s hopen
  have hl : s.locked = true := Bool.or_eq_true_iff.mpr hopen
  exact ⟨fun _ hi => exec_codeTableWriter_of_locked hl hi, fun _ _ h => exec_keeps_ct_of_locked hl h,
    fun i t r hi h hr => ⟨fun hc => not_raises_badSequence_of_upstream hi (raises_of_codeOf h hr hc),
      exec_upstream_keeps_frames hi h⟩⟩

/-! ### Reading twice (R66) -/

/-- The data a read-back command answers with `OK`; `none` for a RDNODE of an index with no value
(45_control_readback.md R178) and for every other command. -/
def readBackData (i : Instr) (s : State) : Option RspData :=
  match i with
  | .rdstat => some s.status
  | .rdtot => some (countData s.total)
  | .rdfreq sym => some (countData (freqOf s.ft sym))
  | .rdtree => some (treeData s.nnodes s.root)
  | .rdnode idx => s.node[idx.toNat]?.map nodeData
  | .rdcode sym => some (codeData sym (ctFind s.ct sym))
  | _ => none

/-- A read-back that has data answers them and does nothing else (R175). -/
theorem exec_of_readBackData {i : Instr} {s : State} {d : RspData} (h : readBackData i s = some d) :
    exec i s = finish d s := by
  cases i <;> simp only [readBackData, Option.some.injEq, Option.map_eq_some_iff, reduceCtorEq] at h
  case rdnode idx =>
    obtain ⟨n, hn, rfl⟩ := h
    simp only [exec, execRdnode, hn]
  all_goals subst h; rfl

/-- The six read-backs read no channel, so not the answers before theirs. -/
@[simp] theorem readBackData_respond (i : Instr) (c : RspCode) (d : RspData) (s : State) :
    readBackData i (respond c d s) = readBackData i s := by
  cases i <;> rfl

/-- Of the six only RDNODE can lack data. -/
theorem exists_readBackData {i : Instr} {s : State}
    (hi : i ∈ [.rdstat, .rdtot, .rdtree] ∨ (∃ x, i = .rdfreq x ∨ i = .rdcode x) ∨
      (∃ idx, i = .rdnode idx ∧ idx.toNat < s.node.length)) : ∃ d, readBackData i s = some d := by
  rcases hi with hi | ⟨x, rfl | rfl⟩ | ⟨idx, rfl, hlt⟩
  · simp only [List.mem_cons, List.not_mem_nil, or_false] at hi
    rcases hi with rfl | rfl | rfl <;> exact ⟨_, rfl⟩
  · exact ⟨_, rfl⟩
  · exact ⟨_, rfl⟩
  · exact ⟨nodeData s.node[idx.toNat], by rw [readBackData, List.getElem?_eq_getElem hlt, Option.map_some]⟩

/-- Settles O58: the second read-back reads what the first one read (`readBackData_respond`), and each only
responds (`exec_of_readBackData`). -/
theorem readBacksAreIdempotent : Obligations.ReadBacksAreIdempotent := by
  intro i s t u r r' hi ht hu hr hr'
  obtain ⟨d, hd⟩ := exists_readBackData hi
  obtain rfl : respond okCode d s = t := finish_eq_next.mp ((exec_of_readBackData hd).symm.trans ht)
  have hd' : readBackData i (respond okCode d s) = some d := by rw [readBackData_respond, hd]
  obtain rfl : respond okCode d (respond okCode d s) = u :=
    finish_eq_next.mp ((exec_of_readBackData hd').symm.trans hu)
  obtain rfl : responseWord okCode d = r := List.singleton_inj.mp (List.append_cancel_left hr)
  obtain rfl : responseWord okCode d = r' := List.singleton_inj.mp (List.append_cancel_left hr')
  exact ⟨rfl, codeOf_responseWord okCode d, rfl⟩

end Sys2Proof.Machine

/-! PROOFS. Encoding (30_encoding.md): decoder and encoder agree (R81, R82), the opcode table (R83 to R86), the
answers of the read-back commands (R88), the response codes (R87), and the assembler (R91, R92). -/

namespace Sys2Proof

/-! ### Decoding undone (R85, R86)

Where a format's decoder accepts a word, the word is built from its opcode and the format's fields. -/

theorem encode_of_formatZ {op : BitVec 5} {w : Word} {i j : Instr} (hop : opField w = op)
    (hi : encode i = wordZ op) (h : formatZ w i = .ok j) : encode j = w := by
  obtain ⟨hzero, rfl⟩ := requireZero_eq_ok_iff.mp h
  rw [hi, ← hop]
  apply BitVec.eq_of_toNat_eq
  rw [wordZ_toNat, opField_toNat]; omega

theorem encode_of_formatS {op : BitVec 5} {w : Word} {f : Symbol → Instr} {j : Instr} (hop : opField w = op)
    (hf : ∀ x, encode (f x) = wordS op x) (h : formatS w f = .ok j) : encode j = w := by
  obtain ⟨hzero, rfl⟩ := requireZero_eq_ok_iff.mp h
  rw [hf, ← hop]
  apply BitVec.eq_of_toNat_eq
  rw [wordS_toNat, opField_toNat, symField_toNat]; omega

theorem encode_of_formatB {op : BitVec 5} {w : Word} {f : Digit → Instr} {j : Instr} (hop : opField w = op)
    (hf : ∀ d, encode (f d) = wordB op d) (h : formatB w f = .ok j) : encode j = w := by
  obtain ⟨hzero, rfl⟩ := requireZero_eq_ok_iff.mp h
  rw [hf, ← hop]
  apply BitVec.eq_of_toNat_eq
  rw [wordB_toNat, opField_toNat, digField_toNat]; omega

theorem encode_of_formatN {op : BitVec 5} {w : Word} {f : NodeIdx → Instr} {j : Instr} (hop : opField w = op)
    (hf : ∀ n, encode (f n) = wordN op n) (h : formatN w f = .ok j) : encode j = w := by
  obtain ⟨hzero, rfl⟩ := requireZero_eq_ok_iff.mp h
  rw [hf, ← hop]
  apply BitVec.eq_of_toNat_eq
  rw [wordN_toNat, opField_toNat, idxField_toNat]; omega

theorem encode_of_formatC {op : BitVec 5} {w : Word} {f : Symbol → CodeLen → CodeBits → Instr} {j : Instr}
    (hop : opField w = op) (hf : ∀ x len c, encode (f x len c) = wordC op x len c)
    (h : formatC w f = .ok j) : encode j = w := by
  obtain rfl := Except.ok.inj h
  rw [hf, ← hop]
  apply BitVec.eq_of_toNat_eq
  rw [wordC_toNat, opField_toNat, symField_toNat, clenField_toNat, cbitsField_toNat]; omega

/-- A word that decodes is the word of its command. The cases are the rows of the opcode map (R82), each with
its format: S, C, B and N, the reserved opcodes, and Z for all the others. -/
theorem encode_of_decode {w : Word} {i : Instr} (h : decode w = .ok i) : encode i = w := by
  unfold decode at h
  split at h <;> rename_i hop
  case h_3 | h_9 | h_16 | h_19 => exact encode_of_formatS hop (fun _ => rfl) h
  case h_7 => exact encode_of_formatC hop (fun _ _ _ => rfl) h
  case h_12 => exact encode_of_formatB hop (fun _ => rfl) h
  case h_18 => exact encode_of_formatN hop (fun _ => rfl) h
  case h_20 => cases h
  all_goals exact encode_of_formatZ hop rfl h

/-- Settles O9: `decode_encode`, each format's decoder on its own words. -/
theorem decodeOfEncodeIsTheCommand : Obligations.DecodeOfEncodeIsTheCommand := Machine.decode_encode

/-- Settles O10: `encode_of_decode`, where the reserved-zero bits leave a format one word for its fields. -/
theorem encodeOfDecodeIsTheWord : Obligations.EncodeOfDecodeIsTheWord := fun _ _ => encode_of_decode

/-! ### The opcode table (R83, R84) -/

/-- The 13 reserved values of OP (R84). -/
def reservedOps : List (BitVec 5) :=
  [0x07, 0x0B, 0x0F, 0x16, 0x17, 0x18, 0x19, 0x1A, 0x1B, 0x1C, 0x1D, 0x1E, 0x1F]

theorem opField_mem_reservedOps_iff (w : Word) : opField w ∈ reservedOps ↔
    w.toNat / 2 ^ 27 ∈ [0x07, 0x0B, 0x0F, 0x16, 0x17, 0x18, 0x19, 0x1A, 0x1B, 0x1C, 0x1D, 0x1E, 0x1F] := by
  rw [← opField_toNat]
  generalize opField w = op
  revert op
  decide

/-- The 19 other values of OP are those of the opcode map (R82). -/
theorem mem_reservedOps_of_not_assigned : ∀ op : BitVec 5,
    op ∉ [0x00, 0x01, 0x02, 0x03, 0x04, 0x05, 0x06, 0x08, 0x09, 0x0A, 0x0C, 0x0D, 0x0E, 0x10, 0x11, 0x12,
      0x13, 0x14, 0x15] → op ∈ reservedOps := by decide

/-- A reserved-zero bit is found in stage 2, never in stage 1. -/
theorem requireZero_ne_reservedOpcode (lo n : Nat) (w : Word) (i : Instr) :
    requireZero lo n w i ≠ .error .reservedOpcode := by
  unfold requireZero
  split <;> simp

theorem decode_eq_reservedOpcode_iff (w : Word) :
    decode w = .error .reservedOpcode ↔ opField w ∈ reservedOps := by
  unfold decode
  split <;> rename_i hop
  case h_7 => exact iff_of_false nofun (by rw [hop]; decide)
  case h_20 => exact iff_of_true rfl (mem_reservedOps_of_not_assigned _ (by simp; and_intros <;> assumption))
  all_goals exact iff_of_false (requireZero_ne_reservedOpcode _ _ _ _) (by rw [hop]; decide)

/-- The word of a command matches the command's row of the table. -/
theorem encode_matches_row (i : Instr) : Laws.EncodingRow.Statement i := by
  open Laws.EncodingRow in
  cases i with
  | nop => exact nop
  | ftclr => exact ftclr
  | count x => exact count x
  | build => exact build
  | gen => exact gen
  | ctclr => exact ctclr
  | ldcode x len c => exact ldcode x len c
  | encbeg => exact encbeg
  | enc x => exact enc x
  | encend => exact encend
  | decbeg => exact decbeg
  | decbit d => exact decbit d
  | decend => exact decend
  | rdstat => exact rdstat
  | rdtot => exact rdtot
  | rdfreq x => exact rdfreq x
  | rdtree => exact rdtree
  | rdnode n => exact rdnode n
  | rdcode x => exact rdcode x

/-! A row's mask keeps the bits of OP and of the format's reserved-zero field, so a word that matches a row
is built from the row's opcode and the word's own fields. -/

theorem eq_wordZ_of_matches {op : BitVec 5} {w : Word} (h : w &&& 0xFFFFFFFF#32 = wordZ op) : w = wordZ op := by
  rwa [show 0xFFFFFFFF#32 = BitVec.allOnes 32 from rfl, BitVec.and_allOnes] at h

theorem eq_wordS_of_matches {op : BitVec 5} {w : Word} (h : w &&& 0xFFFFFF00#32 = wordS op 0) :
    w = wordS op (symField w) := by
  have hp : (wordS op 0).toNat = op.toNat * 2 ^ 27 := by simp [wordS_toNat]
  rw [and_high_mask_eq_iff _ _ _ 8 (by decide) (by decide) (by omega)] at h
  apply BitVec.eq_of_toNat_eq
  rw [wordS_toNat, symField_toNat]; omega

theorem eq_wordB_of_matches {op : BitVec 5} {w : Word} (h : w &&& 0xFFFFFFFE#32 = wordB op false) :
    w = wordB op (digField w) := by
  have hp : (wordB op false).toNat = op.toNat * 2 ^ 27 := by simp [wordB_toNat]
  rw [and_high_mask_eq_iff _ _ _ 1 (by decide) (by decide) (by omega)] at h
  apply BitVec.eq_of_toNat_eq
  rw [wordB_toNat, digField_toNat]; omega

theorem eq_wordN_of_matches {op : BitVec 5} {w : Word} (h : w &&& 0xFFFFFFE0#32 = wordN op 0) :
    w = wordN op (idxField w) := by
  have hp : (wordN op 0).toNat = op.toNat * 2 ^ 27 := by simp [wordN_toNat]
  rw [and_high_mask_eq_iff _ _ _ 5 (by decide) (by decide) (by omega)] at h
  apply BitVec.eq_of_toNat_eq
  rw [wordN_toNat, idxField_toNat]; omega

theorem eq_wordC_of_matches {op : BitVec 5} {w : Word} (h : w &&& 0xF8000000#32 = wordC op 0 0 0) :
    w = wordC op (symField w) (clenField w) (cbitsField w) := by
  have hp : (wordC op 0 0 0).toNat = op.toNat * 2 ^ 27 := by simp [wordC_toNat]
  rw [and_high_mask_eq_iff _ _ _ 27 (by decide) (by decide) (by omega)] at h
  apply BitVec.eq_of_toNat_eq
  rw [wordC_toNat, symField_toNat, clenField_toNat, cbitsField_toNat]; omega

/-- A word that matches a row is the word of a command: row by row, in the table's order. -/
theorem exists_encode_of_matches {w : Word} (h : ∃ r ∈ tableRows, w &&& r.1 = r.2) : ∃ i, encode i = w := by
  simp only [tableRows, List.cons_append, List.nil_append, List.exists_mem_cons_iff, List.not_mem_nil, false_and,
    exists_false, or_false] at h
  rcases h with h | h | h | h | h | h | h | h | h | h | h | h | h | h | h | h | h | h | h
  · exact ⟨.nop, (eq_wordZ_of_matches h).symm⟩
  · exact ⟨.ftclr, (eq_wordZ_of_matches h).symm⟩
  · exact ⟨.count (symField w), (eq_wordS_of_matches h).symm⟩
  · exact ⟨.build, (eq_wordZ_of_matches h).symm⟩
  · exact ⟨.gen, (eq_wordZ_of_matches h).symm⟩
  · exact ⟨.ctclr, (eq_wordZ_of_matches h).symm⟩
  · exact ⟨.ldcode (symField w) (clenField w) (cbitsField w), (eq_wordC_of_matches h).symm⟩
  · exact ⟨.encbeg, (eq_wordZ_of_matches h).symm⟩
  · exact ⟨.enc (symField w), (eq_wordS_of_matches h).symm⟩
  · exact ⟨.encend, (eq_wordZ_of_matches h).symm⟩
  · exact ⟨.decbeg, (eq_wordZ_of_matches h).symm⟩
  · exact ⟨.decbit (digField w), (eq_wordB_of_matches h).symm⟩
  · exact ⟨.decend, (eq_wordZ_of_matches h).symm⟩
  · exact ⟨.rdstat, (eq_wordZ_of_matches h).symm⟩
  · exact ⟨.rdtot, (eq_wordZ_of_matches h).symm⟩
  · exact ⟨.rdfreq (symField w), (eq_wordS_of_matches h).symm⟩
  · exact ⟨.rdtree, (eq_wordZ_of_matches h).symm⟩
  · exact ⟨.rdnode (idxField w), (eq_wordN_of_matches h).symm⟩
  · exact ⟨.rdcode (symField w), (eq_wordS_of_matches h).symm⟩

theorem decodes_iff_matches (w : Word) : (∃ i, decode w = .ok i) ↔ ∃ r ∈ tableRows, w &&& r.1 = r.2 := by
  constructor
  · rintro ⟨i, hi⟩
    obtain ⟨hmem, hmatch⟩ := encode_matches_row i
    exact ⟨i.row, hmem, encode_of_decode hi ▸ hmatch⟩
  · intro h
    obtain ⟨i, rfl⟩ := exists_encode_of_matches h
    exact ⟨i, Machine.decode_encode i⟩

theorem opField_and (w m : Word) : opField (w &&& m) = opField w &&& opField m := BitVec.extractLsb'_and

theorem tableRows_masks_keep_opField : ∀ r ∈ tableRows, opField r.1 = BitVec.allOnes 5 := by
  simp [tableRows, opField]

/-- Every mask keeps all of OP, so a word that matches a row has the row's opcode. -/
theorem opField_of_matches {r : Word × Word} (hr : r ∈ tableRows) {w : Word} (h : w &&& r.1 = r.2) :
    opField w = opField r.2 := by
  have hmask : opField r.1 = BitVec.allOnes 5 := tableRows_masks_keep_opField r hr
  rw [← h, opField_and, hmask, BitVec.and_allOnes]

/-- No two rows have one opcode. -/
theorem tableRows_opcodes_distinct : tableRows.Pairwise fun a b => opField a.2 ≠ opField b.2 := by decide

/-- Settles O11. A command's word matches its row and a matching word is a command's (`decodes_iff_matches`);
a matching word has the row's opcode (`opField_of_matches`) and those differ; stage 1 of the decoder fails
exactly on the reserved opcodes (`decode_eq_reservedOpcode_iff`). -/
theorem decodingFollowsTheOpcodeTable : Obligations.DecodingFollowsTheOpcodeTable := by
  refine ⟨decodes_iff_matches, ?_, fun w => ?_⟩
  · refine tableRows_opcodes_distinct.imp_of_mem fun ha hb hne w ⟨hwa, hwb⟩ => hne ?_
    rw [← opField_of_matches ha hwa, opField_of_matches hb hwb]
  · rw [decode_eq_reservedOpcode_iff, opField_mem_reservedOps_iff]

/-! ### Words that are no command (R84, R85) -/

/-- OP is reserved, or a reserved-zero bit of OP's format is 1: format Z, S, B and N in turn. -/
def IsReservedWord (w : Word) : Prop :=
  w.toNat / 2 ^ 27 ∈ [0x07, 0x0B, 0x0F, 0x16, 0x17, 0x18, 0x19, 0x1A, 0x1B, 0x1C, 0x1D, 0x1E, 0x1F] ∨
  w.toNat / 2 ^ 27 ∈ [0x00, 0x01, 0x03, 0x04, 0x05, 0x08, 0x0A, 0x0C, 0x0E, 0x10, 0x11, 0x13] ∧
    w.toNat % 2 ^ 27 ≠ 0 ∨
  w.toNat / 2 ^ 27 ∈ [0x02, 0x09, 0x12, 0x15] ∧ w.toNat % 2 ^ 27 / 2 ^ 8 ≠ 0 ∨
  w.toNat / 2 ^ 27 = 0x0D ∧ w.toNat % 2 ^ 27 / 2 ≠ 0 ∨
  w.toNat / 2 ^ 27 = 0x14 ∧ w.toNat % 2 ^ 27 / 2 ^ 5 ≠ 0

theorem wordZ_reserved_bits (op : BitVec 5) : (wordZ op).toNat % 2 ^ 27 = 0 := by
  rw [wordZ_toNat]; omega

theorem wordS_reserved_bits (op : BitVec 5) (x : Symbol) : (wordS op x).toNat % 2 ^ 27 / 2 ^ 8 = 0 := by
  rw [wordS_toNat]; omega

theorem wordB_reserved_bits (op : BitVec 5) (d : Digit) : (wordB op d).toNat % 2 ^ 27 / 2 = 0 := by
  rw [wordB_toNat]; have := d.toNat_lt; omega

theorem wordN_reserved_bits (op : BitVec 5) (n : NodeIdx) : (wordN op n).toNat % 2 ^ 27 / 2 ^ 5 = 0 := by
  rw [wordN_toNat]; omega

/-- A command's word has an assigned opcode, and zeros in the reserved-zero bits of that opcode's format. -/
theorem not_isReservedWord_encode (i : Instr) : ¬ IsReservedWord (encode i) := by
  unfold IsReservedWord
  rw [← opField_toNat]
  cases i
  case count | enc | rdfreq | rdcode => rw [encode, opField_wordS, wordS_reserved_bits]; simp
  case ldcode => rw [encode, opField_wordC]; simp
  case decbit => rw [encode, opField_wordB, wordB_reserved_bits]; simp
  case rdnode => rw [encode, opField_wordN, wordN_reserved_bits]; simp
  all_goals rw [encode, opField_wordZ, wordZ_reserved_bits]; simp

theorem exists_decode_error {w : Word} (h : IsReservedWord w) : ∃ r, decode w = .error r := by
  cases hd : decode w with
  | ok i => exact absurd (encode_of_decode hd ▸ h) (not_isReservedWord_encode i)
  | error r => exact ⟨r, rfl⟩

end Sys2Proof

namespace Sys2Proof.Machine

open Sys2Proof

/-- Settles O12. A command's word is no reserved word (`not_isReservedWord_encode`), so a reserved word does
not decode, and the step is the error entry with code 5. -/
theorem reservedWordsAreIllegalCommands : Obligations.ReservedWordsAreIllegalCommands := by
  intro s w rest hs hw
  obtain ⟨r, hr⟩ := exists_decode_error hw
  exact step_of_decode_error hs hr

/-- Settles O6: the step on a word that decodes, and the idle step. -/
theorem stepRunsTheDecodedCommand : Obligations.StepRunsTheDecodedCommand :=
  ⟨fun _ _ _ _ hs hd => step_of_decode_ok hs hd, fun s hs => by simp only [step, hs]⟩

/-- Settles O13: eight closed words through the decoder. -/
theorem sampleWordsDecode : Obligations.SampleWordsDecode := by
  unfold Obligations.SampleWordsDecode
  decide

/-! ### Responses (R87, R88) -/

theorem responseWord_toNat_mod (c : RspCode) (d : RspData) : (responseWord c d).toNat % 2 ^ 27 = d.toNat := by
  rw [responseWord_toNat]; omega

theorem Err.code_mem (e : Err) : e.code.toNat ∈ [0, 1, 2, 3, 5, 6, 7, 8, 9, 10] := by cases e <;> decide

/-- The answer of a step is `OK`, or an error's code with no data. -/
theorem step_response {s t : State} {r : Word} (h : step s = .next t) (hr : t.rsp = s.rsp ++ [r]) :
    codeOf r = 0 ∨ ∃ e : Err, r = responseWord e.code 0 := by
  have raised {e : Err} {cmd : List Word} (ht : t = raise e { s with cmd := cmd }) :
      r = responseWord e.code 0 := by
    rw [ht, raise_rsp] at hr
    exact (List.singleton_inj.mp (List.append_cancel_left hr)).symm
  rcases step_cases h with ⟨-, rfl⟩ | ⟨-, rest, i, -, -, hi⟩ | ⟨-, rest, -, -, -, ht⟩
  · simp at hr
  · rcases exec_codeOf hi hr with ⟨hok, -⟩ | ⟨e, -, ht, -⟩
    · exact .inl hok
    · exact .inr ⟨e, raised ht⟩
  · exact .inr ⟨_, raised ht⟩

/-- Settles O50, from `step_response`: 0 is in the table and so is the code of every cause, and an error's
response word has no data. -/
theorem responseCodesAreTheTableOnes : Obligations.ResponseCodesAreTheTableOnes := by
  intro s t r h hr
  rcases step_response h hr with hok | ⟨e, rfl⟩
  · exact ⟨by rw [hok]; decide, fun hne => absurd hok hne⟩
  · exact ⟨by rw [codeOf_responseWord]; exact e.code_mem, fun _ => responseWord_toNat_mod _ _⟩

/-! The layouts of R88 as numbers. -/

theorem countData_toNat (c : Count) : (countData c).toNat = c.toNat := by
  show (0#11 ++ c : BitVec (11 + 16)).toNat = _
  simp only [toNat_append_eq, BitVec.toNat_ofNat]; omega

theorem treeData_toNat (nnodes root : NodeIdx) :
    (treeData nnodes root).toNat = nnodes.toNat * 2 ^ 5 + root.toNat := by
  show (0#17 ++ nnodes ++ root : BitVec (17 + 5 + 5)).toNat = _
  simp only [toNat_append_eq, BitVec.toNat_ofNat]; omega

theorem nodeData_leaf_toNat (x : Symbol) (f : Count) :
    (nodeData (.leaf x f)).toNat = f.toNat * 2 ^ 10 + x.toNat := by
  show (0#1 ++ f ++ 0#2 ++ x : BitVec (1 + 16 + 2 + 8)).toNat = _
  simp only [toNat_append_eq, BitVec.toNat_ofNat]; omega

theorem nodeData_internal_toNat (c0 c1 : NodeIdx) (f : Count) :
    (nodeData (.internal c0 c1 f)).toNat = 2 ^ 26 + f.toNat * 2 ^ 10 + c1.toNat * 2 ^ 5 + c0.toNat := by
  show (1#1 ++ f ++ c1 ++ c0 : BitVec (1 + 16 + 5 + 5)).toNat = _
  simp only [toNat_append_eq, BitVec.toNat_ofNat]; omega

theorem codeData_some_toNat (x y : Symbol) (len : CodeLen) (b : CodeBits) :
    (codeData x (some ⟨y, len, b⟩)).toNat = b.toNat * 2 ^ 12 + len.toNat * 2 ^ 8 + x.toNat := by
  show (b ++ len ++ x : BitVec (15 + 4 + 8)).toNat = _
  simp only [toNat_append_eq]; omega

theorem codeData_none_toNat (x : Symbol) : (codeData x none).toNat = x.toNat := by
  show (0#15 ++ 0#4 ++ x : BitVec (15 + 4 + 8)).toNat = _
  simp only [toNat_append_eq, BitVec.toNat_ofNat]; omega

/-- A read-back with data answers them as a number, and changes nothing else (R175). -/
theorem exec_readBack {i : Instr} {s : State} {d : RspData} {n : Nat} (h : readBackData i s = some d)
    (hn : d.toNat = n) : exec i s = .next (answered (BitVec.ofNat 32 n) s) := by
  rw [exec_of_readBackData h, finish_data, hn]

/-- Settles O45, read-back by read-back (`exec_readBack`): what the command reads, and its layout. -/
theorem readBacksAnswerAndChangeNothing : Obligations.ReadBacksAnswerAndChangeNothing := by
  intro s
  refine ⟨exec_of_readBackData rfl, exec_readBack rfl (countData_toNat _), ?_, ?_,
    exec_readBack rfl (treeData_toNat _ _), ?_, ?_, ?_, ?_⟩
  · intro x c pre post hft hpre
    exact exec_readBack rfl (by rw [hft, freqOf_split hpre, countData_toNat])
  · intro x hx
    exact exec_readBack (n := 0) rfl (by rw [freqOf_absent hx]; rfl)
  · intro idx x f hnode
    exact exec_readBack (by rw [readBackData, hnode]; rfl) (nodeData_leaf_toNat x f)
  · intro idx c0 c1 f hnode
    exact exec_readBack (by rw [readBackData, hnode]; rfl) (nodeData_internal_toNat c0 c1 f)
  · intro x len b pre post hct hpre
    exact exec_readBack rfl (by rw [hct, ctFind_split hpre, codeData_some_toNat])
  · intro x hx
    exact exec_readBack rfl (by rw [ctFind_eq_none_iff.mpr hx, codeData_none_toNat])

/-! ### The assembler (R91) -/

theorem symWords_singleton (f : Symbol → Instr) (n : Nat) :
    symWords f [n] = if n < 256 then some [encode (f (BitVec.ofNat 8 n))] else none := by
  by_cases h : n < 256 <;> simp [symWords, symWord, fit, h]

/-- The first operand that does not fit makes the error. -/
theorem ldcodeWord_eq (x len c : Nat) : ldcodeWord x len c =
    if x < 256 ∧ len < 16 ∧ c < 32768 then
      some (encode (.ldcode (BitVec.ofNat 8 x) (BitVec.ofNat 4 len) (BitVec.ofNat 15 c)))
    else none := by
  by_cases hx : x < 256
  · by_cases hlen : len < 16
    · by_cases hc : c < 32768 <;> simp [ldcodeWord, fit, hx, hlen, hc]
    · simp [ldcodeWord, fit, hx, hlen]
  · simp [ldcodeWord, fit, hx]

/-- Settles O59: the commands without operands by their equations, the others by whether each operand fits
(`symWords_singleton`, `ldcodeWord_eq`). -/
theorem assemblerEncodesOrRejects : Obligations.AssemblerEncodesOrRejects := by
  refine ⟨?_, symWords_singleton _, symWords_singleton _, symWords_singleton _, symWords_singleton _, ?_, ?_, ?_, ?_⟩
  · simp [Asm.words]
  · intro n
    by_cases h : n < 32 <;> simp [Asm.words, fit, h]
  · intro n
    match n with
    | 0 | 1 => rfl
    | n + 2 => simp [Asm.words, fit]
  · intro x len c
    rw [Asm.words, ldcodeWord_eq]
    split <;> rfl
  · intro n
    rw [Asm.words, fit]
    split <;> rfl

/-! ### The pseudo-commands (R92) -/

theorem fit_toNat {w : Nat} (x : BitVec w) : fit w x.toNat = some x := by
  simp [fit, x.isLt]

theorem symWords_toNat (f : Symbol → Instr) (syms : List Symbol) :
    symWords f (syms.map BitVec.toNat) = some (syms.map fun x => encode (f x)) := by
  induction syms with
  | nil => rfl
  | cons x xs ih => rw [List.map_cons, symWords, ih, symWord, fit_toNat]; rfl

theorem packNat_cons (d : Digit) (ds : List Digit) : packNat (d :: ds) = Nat.bit d (packNat ds) := by
  rw [packNat, Nat.bit_val, Nat.add_comm]

theorem packNat_lt (ds : List Digit) : packNat ds < 2 ^ ds.length := by
  induction ds with
  | nil => decide
  | cons d ds ih => rw [packNat, List.length_cons, pow_succ]; have := d.toNat_lt; omega

theorem testBit_packNat (ds : List Digit) (j : Nat) : (packNat ds).testBit j = (ds[j]?).getD false := by
  induction ds generalizing j with
  | nil => simp [packNat]
  | cons d ds ih =>
    rw [packNat_cons]
    cases j with
    | zero => simp
    | succ j => simp [Nat.testBit_bit_succ, ih]

/-- The assembler's packing of a digit string is the block's (20_memory.md R63). -/
theorem ofNat_packNat (ds : List Digit) : BitVec.ofNat 15 (packNat ds) = pack ds := by
  apply BitVec.eq_of_getLsbD_eq
  intro j hj
  rw [getLsbD_pack ds j hj, BitVec.getLsbD_ofNat, testBit_packNat]
  simp [hj]

theorem ldcodeWord_digits (x : Symbol) (ds : List Digit) (h : ds.length ≤ 15) :
    ldcodeWord x.toNat ds.length (packNat ds) =
      some (encode (.ldcode x (BitVec.ofNat 4 ds.length) (pack ds))) := by
  have hc : packNat ds < 32768 := (packNat_lt ds).trans_le (Nat.pow_le_pow_right (by decide) h)
  rw [ldcodeWord_eq, if_pos ⟨x.isLt, by omega, hc⟩, BitVec.ofNat_toNat, BitVec.setWidth_eq, ofNat_packNat]

/-- Settles O60: one word per symbol (`symWords_toNat`) or digit, with the commands of the frame or table
around them; a digit string is loaded as its length and its packing (`ldcodeWord_digits`). -/
theorem pseudoCommandsExpand : Obligations.PseudoCommandsExpand := by
  refine ⟨fun syms => ⟨symWords_toNat _ _, symWords_toNat _ _, ?_, ?_⟩, fun ds => ⟨?_, ?_⟩, fun x ds h => ?_⟩
  · simp [Asm.words, symWords_toNat, encodeFrame]
  · simp [Asm.words, symWords_toNat, tableProgram]
  · simp [Asm.words, digitWords]
  · simp [Asm.words, digitWords, decodeFrame]
  · exact ⟨BitVec.ofNat 4 ds.length, pack ds, digitsOf_pack ds h, fun hne => ofCode_ok x ds hne h,
      by rw [Asm.words, ldcodeWord_digits x ds h]; rfl⟩

end Sys2Proof.Machine

namespace Sys2Proof.Machine

open Sys2Proof

/-! ### Unit U1: FTCLR and COUNT (40_frequency_counter.md) -/

/-- A command has one word, the one the encoder gives it (R82, R86). -/
theorem encodedAs_encode (i : Instr) : EncodedAs i (encode i) :=
  fun _ => ⟨fun h => (encode_of_decode h).symm, fun h => h ▸ decode_encode i⟩

/-- Settles O14: the encoder's word (`encodedAs_encode`), and the meaning as it stands. -/
theorem ftclrEmptiesTheFrequencyTable : Obligations.FtclrEmptiesTheFrequencyTable :=
  ⟨encodedAs_encode .ftclr, fun _ => rfl⟩

theorem toNat_eq_freqMax_iff {c : Count} : c.toNat = Config.freqMax ↔ c = 65535 :=
  BitVec.toNat_inj (y := 65535)

/-- TOTAL is tested before anything else (R102, R201). -/
theorem exec_count_of_overflow {s : State} {x : Symbol} (h : s.total = 65535) :
    exec (.count x) s = .next (errored 10 s) :=
  if_pos (toNat_eq_freqMax_iff.mpr h)

/-- COUNT of a symbol in FT (R101). -/
theorem exec_count_of_mem {s : State} {x : Symbol} (h : s.total ≠ 65535) (hx : x ∈ s.ft.map FtEntry.sym) :
    exec (.count x) s = .next (answered 0x00000000#32 { s with ft := bump x s.ft, total := s.total + 1 }) := by
  obtain ⟨e, he⟩ : ∃ e, ftFind s.ft x = some e :=
    Option.ne_none_iff_exists'.mp fun hn => ftFind_eq_none_iff.mp hn hx
  rw [exec, execCount, if_neg (mt toNat_eq_freqMax_iff.mp h), he]
  rfl

/-- COUNT of a symbol not in FT, while FT has room (R101). -/
theorem exec_count_of_not_mem {s : State} {x : Symbol} (h : s.total ≠ 65535) (hx : x ∉ s.ft.map FtEntry.sym)
    (hroom : s.ft.length ≠ 16) : exec (.count x) s =
      .next (answered 0x00000000#32 { s with ft := s.ft ++ [⟨x, 1⟩], total := s.total + 1 }) := by
  rw [exec, execCount, if_neg (mt toNat_eq_freqMax_iff.mp h), ftFind_eq_none_iff.mpr hx]
  exact if_neg hroom

/-- COUNT of a symbol not in FT, when FT is full (R103). -/
theorem exec_count_of_full {s : State} {x : Symbol} (h : s.total ≠ 65535) (hx : x ∉ s.ft.map FtEntry.sym)
    (hfull : s.ft.length = 16) : exec (.count x) s = .next (errored 9 s) := by
  rw [exec, execCount, if_neg (mt toNat_eq_freqMax_iff.mp h), ftFind_eq_none_iff.mpr hx]
  exact if_pos hfull

/-- Settles O15: a symbol whose first entry stands after `pre` is in FT, and the bump is of that entry
(`bump_split`); any other symbol is appended. -/
theorem countTalliesOneOccurrence : Obligations.CountTalliesOneOccurrence := by
  refine fun s x htotal => ⟨fun pre post c hft hpre => ?_, fun hx hroom => ?_⟩
  · rw [exec_count_of_mem htotal (by simp [hft]), hft, bump_split hpre]
    rfl
  · exact exec_count_of_not_mem htotal hx hroom

/-- Settles O16, from the rule of COUNT at TOTAL 65535, for a full FT, and for a symbol in FT. -/
theorem countRefusesAtItsLimits : Obligations.CountRefusesAtItsLimits := by
  refine fun s x => ⟨exec_count_of_overflow, fun htotal hfull hx => ?_, fun htotal _ hx => ?_⟩
  · exact exec_count_of_full htotal hx hfull
  · exact ⟨_, exec_count_of_mem htotal hx, rfl⟩

/-! ### The order of first occurrence (R21 (c)) -/

@[simp] theorem mem_firstOccurrences {α : Type} [DecidableEq α] {x : α} {xs : List α} :
    x ∈ firstOccurrences xs ↔ x ∈ xs := by
  induction xs with
  | nil => simp [firstOccurrences]
  | cons y ys ih => by_cases h : x = y <;> simp [firstOccurrences, ih, h]

theorem firstOccurrences_append_singleton {α : Type} [DecidableEq α] (xs : List α) (x : α) :
    firstOccurrences (xs ++ [x]) = if x ∈ xs then firstOccurrences xs else firstOccurrences xs ++ [x] := by
  induction xs with
  | nil => rfl
  | cons y ys ih =>
    rw [List.cons_append, firstOccurrences, ih, firstOccurrences]
    by_cases hxy : x = y
    · subst hxy
      split <;> simp
    · by_cases hx : x ∈ ys <;> simp [hx, hxy]

theorem length_firstOccurrences_le_append {α : Type} [DecidableEq α] (xs : List α) (x : α) :
    (firstOccurrences xs).length ≤ (firstOccurrences (xs ++ [x])).length := by
  rw [firstOccurrences_append_singleton]
  split <;> simp

/-! ### The table of a sequence (R21 to R23) -/

/-- A bump adds one to the count of its own symbol (R101). -/
theorem freqOf_bump_self {x : Symbol} {ft : List FtEntry} (h : x ∈ ft.map FtEntry.sym) :
    freqOf (bump x ft) x = freqOf ft x + 1 := by
  obtain ⟨pre, c, post, rfl, hpre⟩ := ft_split h
  rw [bump_split hpre, freqOf_split hpre, freqOf_split hpre]

/-- FT and TOTAL after the sequence `xs` was counted from the empty table. -/
structure TableOf (xs : List Symbol) (ft : List FtEntry) (total : Count) : Prop where
  order : ft.map FtEntry.sym = firstOccurrences xs
  counts : ∀ x, (freqOf ft x).toNat = xs.count x
  total_eq : total.toNat = xs.length

section
variable {xs : List Symbol} {ft : List FtEntry} {total : Count} (h : TableOf xs ft total)
include h

theorem TableOf.mem_iff {x : Symbol} : x ∈ ft.map FtEntry.sym ↔ x ∈ xs := by
  rw [h.order, mem_firstOccurrences]

/-- One more occurrence of `x`: its place in the order is kept or made last, and its count alone goes
up, by one. -/
theorem TableOf.append_singleton {x : Symbol} {ft' : List FtEntry} (hlen : xs.length < 65535)
    (horder : ft'.map FtEntry.sym = firstOccurrences (xs ++ [x]))
    (hx : freqOf ft' x = freqOf ft x + 1) (hne : ∀ y, y ≠ x → freqOf ft' y = freqOf ft y) :
    TableOf (xs ++ [x]) ft' (total + 1) := by
  refine ⟨horder, fun y => ?_, ?_⟩
  · by_cases hy : y = x
    · subst hy
      have hc : (freqOf ft y).toNat < 65535 := by
        rw [h.counts]; exact List.count_le_length.trans_lt hlen
      rw [hx, count_succ_toNat hc, h.counts]
      simp
    · rw [hne y hy, h.counts]
      simp [Ne.symm hy]
  · rw [count_succ_toNat (by rw [h.total_eq]; exact hlen), h.total_eq]
    simp

theorem TableOf.bump {x : Symbol} (hlen : xs.length < 65535) (hx : x ∈ xs) :
    TableOf (xs ++ [x]) (bump x ft) (total + 1) := by
  refine h.append_singleton hlen ?_ (freqOf_bump_self (h.mem_iff.mpr hx)) fun y => freqOf_bump_ne ft
  rw [map_sym_bump, h.order, firstOccurrences_append_singleton, if_pos hx]

theorem TableOf.append {x : Symbol} (hlen : xs.length < 65535) (hx : x ∉ xs) :
    TableOf (xs ++ [x]) (ft ++ [⟨x, 1⟩]) (total + 1) := by
  have hft : x ∉ ft.map FtEntry.sym := mt h.mem_iff.mp hx
  refine h.append_singleton hlen ?_ ?_ fun y => freqOf_append_ne ft 1
  · rw [List.map_append, h.order, firstOccurrences_append_singleton, if_neg hx]
    rfl
  · rw [freqOf_split hft, freqOf_absent hft]
    rfl

end

/-- `s` after `n` COUNTs, all answered `OK`, that left the table `ft` and the total `total`. -/
def afterCounts (s : State) (n : Nat) (ft : List FtEntry) (total : Count) : State :=
  { s with ft := ft, total := total, rsp := s.rsp ++ List.replicate n 0x00000000#32 }

theorem answered_afterCounts (s : State) (n : Nat) (ft ft' : List FtEntry) (total total' : Count) :
    answered 0x00000000#32 { afterCounts s n ft total with ft := ft', total := total' } =
      afterCounts s (n + 1) ft' total' := by
  simp [answered, afterCounts, List.replicate_succ']

/-- One COUNT carries the table of `xs` to the table of `xs ++ [x]`, within the capacities (R101). -/
theorem exec_count_tableOf {s : State} {xs : List Symbol} {ft : List FtEntry} {total : Count} {x : Symbol}
    (h : TableOf xs ft total) (hlen : xs.length < 65535) (hroom : (firstOccurrences (xs ++ [x])).length ≤ 16) :
    ∃ ft', exec (.count x) (afterCounts s xs.length ft total) =
        .next (afterCounts s (xs ++ [x]).length ft' (total + 1)) ∧
      TableOf (xs ++ [x]) ft' (total + 1) := by
  have htotal : total ≠ 65535 := by
    rintro rfl
    exact hlen.ne h.total_eq.symm
  rw [List.length_append, List.length_singleton]
  by_cases hx : x ∈ xs
  · refine ⟨bump x ft, ?_, h.bump hlen hx⟩
    rw [exec_count_of_mem htotal (h.mem_iff.mpr hx), answered_afterCounts]
    rfl
  · have hfit : ft.length ≠ 16 := by
      rw [firstOccurrences_append_singleton, if_neg hx, ← h.order] at hroom
      simp at hroom
      omega
    refine ⟨ft ++ [⟨x, 1⟩], ?_, h.append hlen hx⟩
    rw [exec_count_of_not_mem htotal (mt h.mem_iff.mp hx) hfit, answered_afterCounts]
    rfl

/-- The COUNTs of a sequence within the capacities all complete and leave its table; by induction on the
sequence from its end, the order the commands run in. -/
theorem execAll_counts {s : State} (hft : s.ft = []) (htotal : s.total = 0) (xs : List Symbol)
    (hlen : xs.length ≤ 65535) (hroom : (firstOccurrences xs).length ≤ 16) :
    ∃ ft total, execAll (xs.map Instr.count) s = .next (afterCounts s xs.length ft total) ∧
      TableOf xs ft total := by
  induction xs using List.reverseRecOn with
  | nil =>
    refine ⟨[], 0, ?_, rfl, fun _ => rfl, rfl⟩
    simp [afterCounts, ← hft, ← htotal]
  | append_singleton xs x ih =>
    have hlt : xs.length < 65535 := by simpa using hlen
    obtain ⟨ft, total, hrun, htable⟩ := ih hlt.le ((length_firstOccurrences_le_append xs x).trans hroom)
    obtain ⟨ft', hstep, htable'⟩ := exec_count_tableOf (s := s) htable hlt hroom
    refine ⟨ft', total + 1, ?_, htable'⟩
    rw [List.map_append, execAll_append_eq_next]
    exact ⟨_, hrun, execAll_cons_eq_next.mpr ⟨_, hstep, execAll_nil _⟩⟩

/-- Settles O17: the run ends in the table of the sequence (`execAll_counts`), and `afterCounts` is its
frame. -/
theorem countsGiveTheFrequencyTable : Obligations.CountsGiveTheFrequencyTable := by
  intro s xs hft htotal hlen hroom
  obtain ⟨ft, total, hrun, htable⟩ := execAll_counts hft htotal xs hlen hroom
  exact ⟨_, hrun, htable.order, htable.counts, htable.total_eq, rfl⟩

end Sys2Proof.Machine

namespace Sys2Proof.Machine

open Sys2Proof

/-! ### Unit U2: BUILD (41_tree_builder.md) -/

/-- `s` after BUILD of a table that is neither empty nor too large (R110). -/
def built (s : State) : State :=
  answered 0x00000000#32
    { s with node := (buildTree s.ft).1, root := (buildTree s.ft).2, treeValid := true }

@[simp] theorem built_node (s : State) : (built s).node = (buildTree s.ft).1 := rfl
@[simp] theorem built_root (s : State) : (built s).root = (buildTree s.ft).2 := rfl
@[simp] theorem built_treeValid (s : State) : (built s).treeValid = true := rfl

/-- BUILD completes in every state whose FT has an entry and meets R21 to R23. -/
theorem FtInv.exec_build {s : State} (h : FtInv s) (hne : s.ft ≠ []) : exec .build s = .next (built s) := by
  rw [exec, execBuild, if_neg (mt List.length_eq_zero_iff.mp hne), if_neg (Nat.not_lt.mpr h.room)]
  rfl

/-- A BUILD that answers made the tree of FT, or found FT empty and raised `EmptyCorpus` (R113 (a)). -/
theorem exec_build_cases {s t : State} (h : exec .build s = .next t) :
    (s.ft ≠ [] ∧ t = built s) ∨ (s.ft = [] ∧ t = raise .emptyCorpus s) := by
  rcases exec_cases h with ⟨s', d, rfl, hne, -, rfl, rfl⟩ | ⟨e, rfl, rfl, hft⟩
  · exact .inl ⟨hne, rfl⟩
  · exact .inr ⟨hft, rfl⟩

theorem eq_built_of_exec_build {s t : State} (hne : s.ft ≠ []) (h : exec .build s = .next t) : t = built s :=
  (exec_build_cases h).elim And.right fun hft => absurd hft.1 hne

/-! ### The tree (R114 (a) to (c)) -/

/-- The first n nodes are the entries of the table as Leaves, in order (R110, the seed). -/
theorem buildTree_take {ft : List FtEntry} (hne : ft ≠ []) (hroom : ft.length ≤ 16)
    (hsum : (ft.map fun e => e.count.toNat).sum ≤ 65535) :
    (buildTree ft).1.take ft.length = ft.map fun e => Node.leaf e.sym e.count := by
  obtain ⟨m, hm, hnode, -⟩ := buildTree_spec hne hroom hsum
  rw [hnode, hm.seed]

/-- Settles O19: the loop's invariant gives the tree (`buildTree_valid`), its seed (`buildTree_take`) and the
frequency of its root (`buildTree_root_freq`), and TOTAL is the sum of the counts (R23). -/
theorem buildMakesAValidTree : Obligations.BuildMakesAValidTree := by
  intro s h hne
  refine ⟨built s, h.exec_build hne, buildTree_valid hne h.room h.sum_le h.distinct,
    buildTree_take hne h.room h.sum_le, ?_, rfl⟩
  rw [h.total_eq]
  exact buildTree_root_freq hne h.room h.sum_le

/-! ### The order of the merges (R111, R112, R115) -/

/-- Every Internal node of the tree joins the two nodes that were least when it was made. -/
theorem buildTree_mergedAt {ft : List FtEntry} (hne : ft ≠ []) (hroom : ft.length ≤ 16)
    (hsum : (ft.map fun e => e.count.toNat).sum ≤ 65535) {k : Nat} (hk : ft.length ≤ k)
    (hlt : k < 2 * ft.length - 1) : MergedAt (buildTree ft).1 k := by
  obtain ⟨m, hm, hnode, -⟩ := buildTree_spec hne hroom hsum
  have hsize := hm.size
  rw [hnode]
  exact hm.merged k hk (by omega)

/-- Settles O20: `MergedAt`, which every pass of the loop gives its own node and keeps for the nodes before
it, says what the statement says. -/
theorem buildMergesTheTwoLeastNodes : Obligations.BuildMergesTheTwoLeastNodes :=
  fun s h hne => ⟨built s, h.exec_build hne, fun _ => buildTree_mergedAt hne h.room h.sum_le⟩

theorem freqAt_of_internal {node : List Node} {k : Nat} {a b : NodeIdx} {f : Count}
    (h : node[k]? = some (.internal a b f)) : freqAt node k = f.toNat := by
  simp only [freqAt, h]

theorem NodeBefore.freq_le {node : List Node} {x y : Nat} (h : NodeBefore node x y) :
    freqAt node x ≤ freqAt node y :=
  h.elim Nat.le_of_lt fun h => h.1.le

/-- A merge takes its two children out of `live` and puts its own node in (R110). -/
theorem LiveAt.of_succ {node : List Node} {k i : Nat} {a b : NodeIdx} {f : Count}
    (hk : node[k]? = some (.internal a b f)) (h : LiveAt node (k + 1) i) :
    i = k ∨ LiveAt node k i ∧ i ≠ a.toNat ∧ i ≠ b.toNat := by
  obtain ⟨hlt, hchild⟩ := h
  rw [List.take_add_one, hk, childIdxs_append] at hchild
  simp only [Option.toList_some, childIdxs, List.mem_append, List.mem_cons, List.not_mem_nil, or_false,
    not_or] at hchild
  obtain ⟨hold, ha, hb⟩ := hchild
  rcases Nat.lt_succ_iff_lt_or_eq.mp hlt with hlt | rfl
  · exact .inr ⟨⟨hlt, hold⟩, ha, hb⟩
  · exact .inl rfl

/-- Two successive merges. If the later one joins the node of the earlier one, it adds to that node's
frequency; if not, both of its children were live at the earlier merge and were not the two least. -/
theorem MergedAt.freq_le_succ {node : List Node} {k : Nat} (h : MergedAt node k) (h' : MergedAt node (k + 1)) :
    freqAt node k ≤ freqAt node (k + 1) := by
  obtain ⟨a, b, f, hk, hf, -, -, hab, hleast⟩ := h
  obtain ⟨a', b', f', hk', hf', ha', hb', -, -⟩ := h'
  have hle := hab.freq_le
  have hfk := freqAt_of_internal hk
  rw [freqAt_of_internal hk', hf']
  rcases ha'.of_succ hk with ha' | ⟨hla, haa, hab'⟩
  · rw [ha']; omega
  · rcases hb'.of_succ hk with hb' | ⟨hlb, hba, hbb⟩
    · rw [hb']; omega
    · have hbefa := (hleast _ hla haa hab').freq_le
      have hbefb := (hleast _ hlb hba hbb).freq_le
      omega

/-- Settles O21, from the two merges that made the nodes (`MergedAt.freq_le_succ`). -/
theorem mergeFrequenciesDoNotDecrease : Obligations.MergeFrequenciesDoNotDecrease := by
  intro s t h hne hbuild i hi hlt
  rw [eq_built_of_exec_build hne hbuild]
  have merged {k : Nat} := buildTree_mergedAt (k := k) hne h.room h.sum_le
  exact (merged hi (by omega)).freq_le_succ (merged (by omega) hlt)

/-! ### Optimality (R114 (d)) -/

/-- Each symbol of FT with its frequency is an entry of FT (R173). -/
theorem map_syms_freqOf {ft : List FtEntry} (hd : (ft.map FtEntry.sym).Nodup) (g : Symbol → Count → Nat) :
    (ft.map FtEntry.sym).map (fun x => g x (freqOf ft x)) = ft.map fun e => g e.sym e.count := by
  rw [List.map_map]
  refine List.map_congr_left fun e he => ?_
  rw [Function.comp_apply, freqOf_of_mem hd he]

/-- The sum of the statement is the cost of the tree under the root: its Leaves are the symbols of FT, each
of its own, and a symbol's weight is its count. -/
theorem TreeAt.sum_entries {node : List Node} {i : Nat} {T : CodeTree} {ft : List FtEntry}
    {path : Symbol → List Digit} (h : TreeAt node i T) (hd : (ft.map FtEntry.sym).Nodup)
    (hT : T.syms.Perm (ft.map FtEntry.sym)) (hpath : ∀ e ∈ ft, PathTo node i (path e.sym) e.sym) :
    (ft.map fun e => e.count.toNat * (path e.sym).length).sum =
      T.costFrom (fun x => (freqOf ft x).toNat) 0 := by
  have hleaf : ∀ x ∈ T.syms, PathTo node i (path x) x := fun x hx => by
    obtain ⟨e, he, rfl⟩ := List.mem_map.mp (hT.mem_iff.mp hx)
    exact hpath e he
  calc (ft.map fun e => e.count.toNat * (path e.sym).length).sum
      = ((ft.map FtEntry.sym).map fun x => (freqOf ft x).toNat * (path x).length).sum := by
        rw [map_syms_freqOf hd fun x c => c.toNat * (path x).length]
    _ = (T.syms.map fun x => (freqOf ft x).toNat * (path x).length).sum := ((hT.map _).sum_eq).symm
    _ = T.costFrom (fun x => (freqOf ft x).toNat) 0 := h.sum_paths (hT.nodup_iff.mpr hd) _ hleaf

/-- Settles O23: the tree costs what greedy merging of the counts costs (`buildTree_greedy`), and no full
binary tree costs less (`Greedy.le_costFrom`). On the empty table the sum is 0. -/
theorem builtTreeIsOptimal : Obligations.BuiltTreeIsOptimal := by
  intro s t path other h hbuild hpath hother
  by_cases hne : s.ft = []
  · simp [hne]
  rw [eq_built_of_exec_build hne hbuild] at hpath
  obtain ⟨T, hT, hsyms, hgreedy⟩ := buildTree_greedy hne h.room h.sum_le h.distinct
  rw [hT.sum_entries h.distinct hsyms hpath]
  refine hgreedy.le_costFrom _ other ?_
  rw [← map_syms_freqOf h.distinct fun _ c => c.toNat]
  exact hother.map _

/-! ### Repeating BUILD and GEN (R116) -/

/-- What GEN reads of the tree: NODE, ROOT and TREE_VALID are the same in both states. -/
def SameTree (s t : State) : Prop := t.node = s.node ∧ t.root = s.root ∧ t.treeValid = s.treeValid

theorem SameTree.trans {s t u : State} (h : SameTree s t) (h' : SameTree t u) : SameTree s u := by
  obtain ⟨hnode, hroot, hvalid⟩ := h
  obtain ⟨hnode', hroot', hvalid'⟩ := h'
  exact ⟨hnode'.trans hnode, hroot'.trans hroot, hvalid'.trans hvalid⟩

theorem WritesOnlyItsOwn.sameTree {i : Instr} {s t : State} (h : WritesOnlyItsOwn i s t) (hi : i ≠ .build) :
    SameTree s t :=
  h.tree hi

/-- BUILD of a table whose tree stands in NODE already changes nothing of the tree; nor does BUILD of the
empty table, which leaves what stands there (R113 (a)). -/
theorem exec_build_again {s s' t t' : State} (h : exec .build s = .next s') (h' : exec .build t = .next t')
    (hft : t.ft = s.ft) (hsame : SameTree s' t) : SameTree s' t' := by
  rcases exec_build_cases h with ⟨hne, rfl⟩ | ⟨hempty, -⟩
  · rw [eq_built_of_exec_build (hft ▸ hne) h']
    simp [SameTree, hft]
  · rcases exec_build_cases h' with ⟨hne, -⟩ | ⟨-, rfl⟩
    · exact absurd (hft.trans hempty) hne
    · exact hsame.trans (by simp [SameTree])

/-- A GEN that answers was refused and left the code table, or gave it the codes of the tree (R120). -/
theorem exec_gen_cases {s t : State} (h : exec .gen s = .next t) :
    ((s.locked = true ∨ s.treeValid = false) ∧ t.ct = s.ct ∧ t.degen = s.degen) ∨
    (s.locked = false ∧ s.treeValid = true ∧ ∃ new, genCodes s.node s.root = some (new, t.degen) ∧
      t.ct = new.map fun (sym, c) => CtEntry.ofCode sym c) := by
  rcases exec_cases h with ⟨s', d, rfl, hl, hv, rfl, new, single, hg, -, rfl⟩ | ⟨e, rfl, -, hrefused⟩
  · exact .inr ⟨hl, hv, new, hg, rfl⟩
  · exact .inl ⟨hrefused, raise_ct e s, raise_degen e s⟩

/-- GEN of the tree whose codes stand in CT already changes nothing of the code table. -/
theorem exec_gen_again {s s' t t' : State} (h : exec .gen s = .next s') (h' : exec .gen t = .next t')
    (hsame : SameTree s t) (hl : t.locked = s.locked) (hct : t.ct = s'.ct) (hdegen : t.degen = s'.degen) :
    t'.ct = s'.ct ∧ t'.degen = s'.degen := by
  obtain ⟨hnode, hroot, hvalid⟩ := hsame
  rcases exec_gen_cases h' with ⟨-, hct', hdegen'⟩ | ⟨hopen, hv, new', hg', hct'⟩
  · exact ⟨hct'.trans hct, hdegen'.trans hdegen⟩
  rw [hl] at hopen
  rw [hvalid] at hv
  rcases exec_gen_cases h with ⟨hrefused, -⟩ | ⟨-, -, new, hg, hct₀⟩
  · simp [hopen, hv] at hrefused
  · rw [hnode, hroot, hg, Option.some.injEq, Prod.mk.injEq] at hg'
    obtain ⟨rfl, hd⟩ := hg'
    exact ⟨hct'.trans hct₀.symm, hd.symm⟩

theorem WritesOnlyItsOwn.locked_eq {i : Instr} {s t : State} (h : WritesOnlyItsOwn i s t)
    (henc : isEncoder i = false) (hbeg : i ≠ .decbeg) (hend : i ≠ .decend) : t.locked = s.locked := by
  rw [State.locked, (h.encoder henc).1, h.decFlag hbeg hend, State.locked]

theorem execAll_build_gen {s t : State} (h : execAll [.build, .gen] s = .next t) :
    ∃ m, exec .build s = .next m ∧ exec .gen m = .next t := by
  simpa [execAll_cons_eq_next] using h

/-- Settles O22: BUILD writes `buildTree` of FT, which neither command writes; so the second BUILD finds its
own tree in NODE (`exec_build_again`) and the second GEN its own codes in CT (`exec_gen_again`). -/
theorem buildAndGenAreRepeatable : Obligations.BuildAndGenAreRepeatable := by
  refine ⟨fun s s' t t' hft hne h h' => ?_, fun s t u hst htu => ?_⟩
  · rw [eq_built_of_exec_build hne h, eq_built_of_exec_build (hft ▸ hne) h']
    simp [hft]
  · obtain ⟨m, hbuild, hgen⟩ := execAll_build_gen hst
    obtain ⟨m', hbuild', hgen'⟩ := execAll_build_gen htu
    have wb := exec_writesOnlyItsOwn hbuild
    have wg := exec_writesOnlyItsOwn hgen
    have wb' := exec_writesOnlyItsOwn hbuild'
    have wg' := exec_writesOnlyItsOwn hgen'
    have hft : t.ft = s.ft := (wg.counts nofun nofun).1.trans (wb.counts nofun nofun).1
    have hsame : SameTree m m' := exec_build_again hbuild hbuild' hft (wg.sameTree nofun)
    have hlock : m'.locked = m.locked :=
      (wb'.locked_eq rfl nofun nofun).trans (wg.locked_eq rfl nofun nofun)
    obtain ⟨hct, hdegen⟩ := wb'.codes nofun nofun nofun
    obtain ⟨hnode, hroot, -⟩ := wg.sameTree nofun
    obtain ⟨hnode', hroot', -⟩ := hsame.trans (wg'.sameTree nofun)
    exact ⟨hnode'.trans hnode.symm, hroot'.trans hroot.symm, exec_gen_again hgen hgen' hsame hlock hct hdegen⟩

end Sys2Proof.Machine

namespace Sys2Proof.Machine

open Sys2Proof

/-! ### Unit U3: the code table (42_code_table.md) -/

theorem locked_iff {s : State} : s.locked = true ↔ s.encOpen = true ∨ s.decOpen = true :=
  Bool.or_eq_true_iff

theorem locked_eq_false {s : State} (henc : s.encOpen = false) (hdec : s.decOpen = false) : s.locked = false :=
  Bool.or_eq_false_iff.mpr ⟨henc, hdec⟩

/-- `s` after a command that wrote the code table and answered `OK` (R120, R125, R126). -/
def withCodes (ct : List CtEntry) (degen : Bool) (s : State) : State :=
  answered 0x00000000#32 { s with ct := ct, degen := degen }

@[simp] theorem withCodes_ct (ct : List CtEntry) (degen : Bool) (s : State) : (withCodes ct degen s).ct = ct := rfl

/-! #### GEN (R120 to R123) -/

/-- GEN with no frame open and no tree (R120). -/
theorem exec_gen_of_treeless {s : State} (hl : s.locked = false) (hv : s.treeValid = false) :
    exec .gen s = .next (errored 6 s) := by
  rw [exec, execGen, hl, hv]
  rfl

/-- Settles O24: the lock is read first (`exec_codeTableWriter_of_locked`), then TREE_VALID. -/
theorem genIsRefusedWhenLockedOrTreeless : Obligations.GenIsRefusedWhenLockedOrTreeless := by
  intro s h
  rcases hl : s.locked with _ | _
  · have hv : s.treeValid = false := by
      rw [← or_assoc, ← locked_iff, hl] at h
      exact h.resolve_left nofun
    exact exec_gen_of_treeless hl hv
  · exact exec_codeTableWriter_of_locked hl (.inl rfl)

/-- The code table GEN makes of a list of symbols with their codes (R120). -/
def codeTable (new : List (Symbol × List Digit)) : List CtEntry := new.map fun (sym, c) => CtEntry.ofCode sym c

@[simp] theorem length_codeTable (new : List (Symbol × List Digit)) : (codeTable new).length = new.length :=
  List.length_map _

@[simp] theorem map_sym_codeTable (new : List (Symbol × List Digit)) :
    (codeTable new).map CtEntry.sym = new.map Prod.fst :=
  List.map_map

/-- An entry's digits are the code it was made of, when that code fits the entry (20_memory.md R63). -/
theorem exists_mem_codeTable_iff {new : List (Symbol × List Digit)} (hlen : ∀ x ∈ new, x.2.length ≤ 15)
    (sym : Symbol) (c : List Digit) : (∃ e ∈ codeTable new, e.sym = sym ∧ e.code = c) ↔ (sym, c) ∈ new := by
  constructor
  · rintro ⟨e, he, rfl, rfl⟩
    obtain ⟨⟨sym, c⟩, hx, rfl⟩ := List.mem_map.mp he
    rwa [code_ofCode sym c (hlen _ hx)]
  · exact fun hx => ⟨.ofCode sym c, List.mem_map.mpr ⟨_, hx, rfl⟩, rfl, code_ofCode sym c (hlen _ hx)⟩

/-- GEN completes when the tree has codes and CT has room for them (R120). -/
theorem exec_gen_of_codes {s : State} (hl : s.locked = false) (hv : s.treeValid = true)
    {new : List (Symbol × List Digit)} {single : Bool} (hg : genCodes s.node s.root = some (new, single))
    (hroom : new.length ≤ 16) : exec .gen s = .next (withCodes (codeTable new) single s) := by
  rw [exec, execGen, if_neg (by simp [hl]), if_neg (by simp [hv]), hg]
  exact if_neg (Nat.not_lt.mpr hroom)

/-- Settles O26: the list of codes of a single Leaf is its symbol with `[0]`, by the model's equation. -/
theorem genOfASingleLeafGivesTheCodeZero : Obligations.GenOfASingleLeafGivesTheCodeZero := by
  intro s sym f henc hdec hv hnode hroot
  have hg : genCodes s.node s.root = some ([(sym, [false])], true) := by
    rw [hnode, hroot]
    rfl
  exact exec_gen_of_codes (locked_eq_false henc hdec) hv hg (by simp)

/-- A code of a walk that begins with no digits has at most as many digits as the walk may take (R121). -/
theorem length_le_of_walk_nil {node : List Node} {d i : Nat} {new : List (Symbol × List Digit)}
    (h : walk node d i [] = some new) : ∀ x ∈ new, x.2.length ≤ d :=
  fun x hx => by simpa using walk_length_le h hx

/-- A valid tree with two or more nodes has two or more Leaves (R26 (b)). -/
theorem Inv.exists_validTree {s : State} (h : Inv s) (hv : s.treeValid = true) (hsize : 1 < s.node.length) :
    ∃ n, ValidTree n s.node s.root ∧ 2 ≤ n := by
  have ht := h.tree
  rw [TreeInv, if_pos hv] at ht
  obtain ⟨n, ht⟩ := ht
  have := ht.size
  exact ⟨n, ht, by omega⟩

/-- What GEN does with a tree of n ≥ 2 Leaves: the walk from ROOT ends within n - 1 digits, with one code for
each Leaf, and its codes become the table, which meets R27 and R29 (R120 to R122). -/
theorem ValidTree.exec_gen {n : Nat} {s : State} (h : ValidTree n s.node s.root) (h2 : 2 ≤ n)
    (hl : s.locked = false) (hv : s.treeValid = true) :
    ∃ new, walk s.node (n - 1) s.root.toNat [] = some new ∧ new.length = n ∧
      (new.map Prod.fst).Perm (leafSyms s.node) ∧ CtInv (codeTable new) ∧
      exec .gen s = .next (withCodes (codeTable new) false s) := by
  obtain ⟨new, hwalk, -, hg⟩ := h.genCodes_eq h2
  obtain ⟨new', single, hg', hlen, hsyms, hct⟩ := h.genCodes_inv
  obtain ⟨rfl, rfl⟩ : new = new' ∧ false = single := by
    rwa [hg, Option.some.injEq, Prod.mk.injEq] at hg'
  exact ⟨new, hwalk, hlen, hsyms, hct, exec_gen_of_codes hl hv hg (hlen.trans_le h.room)⟩

/-- Settles O25: the entries of the table are the codes of the walk (`exists_mem_codeTable_iff`), which are the
paths from ROOT (`mem_walk_iff`). -/
theorem genAssignsRootToLeafPaths : Obligations.GenAssignsRootToLeafPaths := by
  intro s h henc hdec hv hsize
  obtain ⟨n, ht, h2⟩ := h.exists_validTree hv hsize
  obtain ⟨new, hwalk, hn, hsyms, hct, hexec⟩ := ht.exec_gen h2 (locked_eq_false henc hdec) hv
  have hnodes := ht.size
  have hroom : n ≤ 16 := ht.room
  have hlen := length_le_of_walk_nil hwalk
  have hentry := exists_mem_codeTable_iff fun x hx => (hlen x hx).trans (by omega)
  refine ⟨_, hexec, fun sym c => ?_, ?_, ?_, fun e he => ⟨?_, ?_⟩, hct, rfl⟩
  · simpa using (hentry sym c).trans (mem_walk_iff hwalk sym c)
  · rwa [withCodes_ct, map_sym_codeTable]
  · rw [withCodes_ct, length_codeTable]
    omega
  · exact List.length_pos_iff.mpr (hct.code_ne_nil he)
  · rw [withCodes_ct, length_codeTable, hn]
    exact hlen _ ((hentry e.sym e.code).mp ⟨e, he, rfl, rfl⟩)

/-- Two codes of a table that are prefixes of one sequence are one code (R29 (c)). -/
theorem CtInv.eq_of_prefixes {ct : List CtEntry} (h : CtInv ct) {a b : CtEntry} (ha : a ∈ ct) (hb : b ∈ ct)
    {ds : List Digit} (hpa : a.code <+: ds) (hpb : b.code <+: ds) : a = b := by
  rcases List.prefix_or_prefix_of_prefix hpa hpb with hab | hba
  · exact h.eq_of_prefix ha hb hab
  · exact (h.eq_of_prefix hb ha hba).symm

/-- Settles O27: some code of the walk begins the sequence (`walk_complete`), and of a table that meets R29
only one does (`CtInv.eq_of_prefixes`). -/
theorem generatedCodeSetIsComplete : Obligations.GeneratedCodeSetIsComplete := by
  intro s t ds h henc hdec hv hsize hst hds
  obtain ⟨n, ht, h2⟩ := h.exists_validTree hv hsize
  obtain ⟨new, hwalk, -, -, hct, hexec⟩ := ht.exec_gen h2 (locked_eq_false henc hdec) hv
  obtain rfl := Host.Outcome.next.inj (hexec.symm.trans hst)
  have hroom : n ≤ 16 := ht.room
  have hlen : ∀ x ∈ new, x.2.length ≤ 15 := fun x hx => (length_le_of_walk_nil hwalk x hx).trans (by omega)
  obtain ⟨⟨sym, c⟩, hx, hp⟩ := walk_complete hwalk ds (by omega)
  obtain ⟨e, he, -, rfl⟩ := (exists_mem_codeTable_iff hlen sym c).mpr hx
  exact ⟨e, he, hp, fun e' he' hp' => hct.eq_of_prefixes he' he hp' hp⟩

/-! #### CTCLR (R125) -/

theorem exec_ctclr_of_unlocked {s : State} (hl : s.locked = false) :
    exec .ctclr s = .next (withCodes [] false s) := by
  rw [exec, execCtclr, hl]
  rfl

/-- Settles O28: the encoder's word, and the two branches of the lock. -/
theorem ctclrEmptiesTheCodeTable : Obligations.CtclrEmptiesTheCodeTable :=
  ⟨encodedAs_encode .ctclr, fun _ => ⟨fun henc hdec => exec_ctclr_of_unlocked (locked_eq_false henc hdec),
    fun hopen => exec_codeTableWriter_of_locked (locked_iff.mpr hopen) (.inr (.inl rfl))⟩⟩

/-! #### LDCODE (R126, R127) -/

/-- The fields of a word of format C stand side by side (30_encoding.md R81). -/
theorem wordC_eq_or (op : BitVec 5) (x : Symbol) (len : CodeLen) (c : CodeBits) :
    wordC op x len c =
      op.setWidth 32 <<< 27 ||| c.setWidth 32 <<< 12 ||| len.setWidth 32 <<< 8 ||| x.setWidth 32 := by
  apply BitVec.eq_of_toNat_eq
  calc (op ++ c ++ len ++ x : BitVec (5 + 15 + 4 + 8)).toNat
      = op.toNat <<< 27 ||| c.toNat <<< 12 ||| len.toNat <<< 8 ||| x.toNat := by
        simp only [BitVec.toNat_append, Nat.shiftLeft_or_distrib, ← Nat.shiftLeft_add]
    _ = _ := by
        simp (disch := omega) only [BitVec.toNat_or, BitVec.toNat_shiftLeft, BitVec.toNat_setWidth,
          Nat.shiftLeft_eq, Nat.mod_eq_of_lt]

/-- A digit of CBITS at or beyond the length is what the model tests by a shift (R127 (b)). -/
theorem shiftRight_ne_zero_iff (c : CodeBits) (n : Nat) :
    c >>> n ≠ 0 ↔ ∃ j, n ≤ j ∧ j < 15 ∧ c.getLsbD j = true := by
  rw [ne_eq, shiftRight_eq_zero_iff]
  push Not
  refine exists_congr fun j => and_congr_right fun _ => ?_
  rw [Bool.ne_false_iff]
  exact ⟨fun h => ⟨BitVec.lt_of_getLsbD h, h⟩, And.right⟩

theorem any_comparable_iff (ct : List CtEntry) (c : List Digit) :
    (ct.any fun e => comparable e.code c) = true ↔ ∃ e ∈ ct, e.code <+: c ∨ c <+: e.code := by
  simp [comparable]

theorem isSome_ctFind_iff {ct : List CtEntry} {x : Symbol} :
    (ctFind ct x).isSome = true ↔ x ∈ ct.map CtEntry.sym := by
  rw [Option.isSome_iff_ne_none, ne_eq, ctFind_eq_none_iff, not_not]

/-- The checks of LDCODE after the lock, one for each error, in the order of R126. -/
theorem exec_ldcode_of_unlocked {s : State} (hl : s.locked = false) (x : Symbol) (len : CodeLen) (c : CodeBits) :
    exec (.ldcode x len c) s =
      if len = 0 ∨ c >>> len.toNat ≠ 0 then .next (errored 7 s)
      else if x ∈ s.ct.map CtEntry.sym ∨ ∃ e ∈ s.ct, e.code <+: digitsOf len c ∨ digitsOf len c <+: e.code then
        .next (errored 8 s)
      else if s.ct.length = 16 then .next (errored 9 s)
      else .next (withCodes (s.ct ++ [⟨x, len, c⟩]) false s) := by
  rw [exec, execLdcode, hl]
  simp only [← isSome_ctFind_iff, ← any_comparable_iff, ite_or]
  rfl

/-- Settles O29: the word field by field (`wordC_eq_or`), and the checks in their order
(`exec_ldcode_of_unlocked`). -/
theorem ldcodeChecksInOrder : Obligations.LdcodeChecksInOrder := by
  refine ⟨fun x len c => wordC_eq_or 0x06 x len c ▸ encodedAs_encode (.ldcode x len c), fun s x len c => ?_⟩
  refine ⟨fun hopen => exec_codeTableWriter_of_locked (locked_iff.mpr hopen) (.inr (.inr ⟨x, len, c, rfl⟩)),
    fun henc hdec => ?_⟩
  rw [exec_ldcode_of_unlocked (locked_eq_false henc hdec), ← shiftRight_ne_zero_iff c len.toNat]
  refine ⟨fun hbad => if_pos hbad, fun hlen hstray => ?_⟩
  rw [if_neg (not_or.mpr ⟨hlen, hstray⟩)]
  refine ⟨fun hconflict => if_pos hconflict, fun hknown hconflict => ?_⟩
  replace hconflict : ¬ ∃ e ∈ s.ct, e.code <+: digitsOf len c ∨ digitsOf len c <+: e.code := hconflict
  rw [if_neg (not_or.mpr ⟨hknown, hconflict⟩)]
  exact ⟨fun hfull => if_pos hfull, fun hroom => if_neg hroom⟩

end Sys2Proof.Machine

/-! PROOFS. Unit U4, the encoder (43_encoder.md): what each of its commands does (R140 to R144), what a run of
commands does to the encoder's frame, and the result of a whole encode frame (R145). -/

namespace Sys2Proof.Machine

open Sys2Proof

/-! ### Runs and the codes they answer (20_memory.md R69)

These speak of no unit in particular. -/

/-- Every command keeps the invariant (10_state.md R42). -/
theorem exec_keeps_inv {i : Instr} {s t : State} (h : Inv s) (hi : exec i s = .next t) : Inv t := by
  rcases exec_cases hi with ⟨s', d, rfl, hc⟩ | ⟨e, rfl, -⟩
  · exact (hc.inv h).respond
  · exact h.raise

/-- In a state that meets the invariant every program runs to its end (00_scope.md R18). -/
theorem execAll_completes {s : State} (h : Inv s) (prog : List Instr) : ∃ t, execAll prog s = .next t := by
  induction prog generalizing s with
  | nil => exact ⟨s, rfl⟩
  | cons i is ih =>
    obtain ⟨m, hm⟩ := exec_completes h i
    obtain ⟨t, ht⟩ := ih (exec_keeps_inv h hm)
    exact ⟨t, execAll_cons_eq_next.mpr ⟨m, hm, ht⟩⟩

theorem execAll_singleton {i : Instr} {s : State} : execAll [i] s = exec i s := by
  rw [execAll]
  cases exec i s <;> rfl

/-- A run appends one response for each of its commands. -/
theorem execAll_rsp {prog : List Instr} {s t : State} (h : execAll prog s = .next t) :
    ∃ rs : List Word, rs.length = prog.length ∧ t.rsp = s.rsp ++ rs := by
  induction prog generalizing s with
  | nil =>
    obtain rfl : s = t := by simpa using h
    exact ⟨[], rfl, (List.append_nil _).symm⟩
  | cons i is ih =>
    obtain ⟨m, hm, hrest⟩ := execAll_cons_eq_next.mp h
    obtain ⟨r, hr⟩ := exec_rsp hm
    obtain ⟨rs, hlen, hrs⟩ := ih hrest
    exact ⟨r :: rs, by simp [hlen], by simp [hrs, hr]⟩

theorem codesFor_of_rsp {keep : Instr → Bool} {prog : List Instr} {s t : State} {rs : List Word}
    (h : t.rsp = s.rsp ++ rs) :
    codesFor keep prog s t = ((prog.zip rs).filter fun x => keep x.1).map fun x => codeOf x.2 := by
  rw [codesFor, h, List.drop_left]

theorem codesFor_singleton {keep : Instr → Bool} {i : Instr} {s t : State} {r : Word}
    (h : t.rsp = s.rsp ++ [r]) : codesFor keep [i] s t = if keep i then [codeOf r] else [] := by
  rw [codesFor_of_rsp h]
  cases hk : keep i <;> simp [hk]

theorem codesFor_append {keep : Instr → Bool} {p q : List Instr} {s m t : State}
    (hp : execAll p s = .next m) (hq : execAll q m = .next t) :
    codesFor keep (p ++ q) s t = codesFor keep p s m ++ codesFor keep q m t := by
  obtain ⟨rs, hlen, hrs⟩ := execAll_rsp hp
  obtain ⟨rs', -, hrs'⟩ := execAll_rsp hq
  have hall : t.rsp = s.rsp ++ (rs ++ rs') := by rw [hrs', hrs, List.append_assoc]
  rw [codesFor_of_rsp hall, codesFor_of_rsp hrs, codesFor_of_rsp hrs', List.zip_append hlen.symm,
    List.filter_append, List.map_append]

/-! ### ENCBEG and ENCEND (R140, R144) -/

/-- `s` after an ENCBEG that was accepted. -/
def encodeOpened (s : State) : State := answered 0x00000000#32 { s with encOpen := true }

/-- `s` after an ENCEND that was accepted. -/
def encodeClosed (s : State) : State :=
  answered 0x00000000#32 { s with encOpen := false, bitout := s.bitout ++ [.close] }

theorem exec_encbeg_of_closed {s : State} (h : s.encOpen = false) :
    exec .encbeg s = .next (encodeOpened s) := by
  rw [exec, execEncbeg, h]
  rfl

theorem exec_encbeg_of_open {s : State} (h : s.encOpen = true) : exec .encbeg s = .next (errored 6 s) :=
  if_pos h

theorem exec_encend_of_open {s : State} (h : s.encOpen = true) :
    exec .encend s = .next (encodeClosed s) := by
  rw [exec, execEncend, h]
  rfl

theorem exec_encend_of_closed {s : State} (h : s.encOpen = false) : exec .encend s = .next (errored 6 s) := by
  rw [exec, execEncend, h]
  rfl

/-- Settles O31: the encoder's words, and the two branches of each command's test of ENC_OPEN. -/
theorem encbegAndEncendOpenAndClose : Obligations.EncbegAndEncendOpenAndClose :=
  ⟨encodedAs_encode .encbeg, encodedAs_encode .encend, fun _ =>
    ⟨exec_encbeg_of_closed, exec_encbeg_of_open, exec_encend_of_open, exec_encend_of_closed⟩⟩

/-! ### ENC (R141, R142) -/

/-- The fields of a word of format S stand side by side (30_encoding.md R81). -/
theorem wordS_eq_or (op : BitVec 5) (x : Symbol) :
    wordS op x = op.setWidth 32 <<< 27 ||| x.setWidth 32 := by
  apply BitVec.eq_of_toNat_eq
  calc (wordS op x).toNat
      = op.toNat <<< 27 ||| x.toNat := by
        rw [wordS_toNat, ← Nat.shiftLeft_eq, Nat.shiftLeft_add_eq_or_of_lt (by omega)]
    _ = _ := by
        simp (disch := omega) only [BitVec.toNat_or, BitVec.toNat_shiftLeft, BitVec.toNat_setWidth,
          Nat.shiftLeft_eq, Nat.mod_eq_of_lt]

/-- `s` after an ENC that was accepted and emitted the digits `ds`. -/
def encoded (ds : List Digit) (s : State) : State := answered 0x00000000#32 (emitBits ds s)

theorem exec_enc_of_find {s : State} {x : Symbol} {e : CtEntry} (ho : s.encOpen = true)
    (he : ctFind s.ct x = some e) : exec (.enc x) s = .next (encoded e.code s) := by
  rw [exec, execEnc, ho, he]
  rfl

/-- The frame abort (R142). -/
theorem exec_enc_of_absent {s : State} {x : Symbol} (ho : s.encOpen = true)
    (hx : x ∉ s.ct.map CtEntry.sym) : exec (.enc x) s = .next (raise .unknownSymbol s) := by
  rw [exec, execEnc, ho, ctFind_eq_none_iff.mpr hx]
  rfl

theorem exec_enc_of_closed {s : State} {x : Symbol} (ho : s.encOpen = false) :
    exec (.enc x) s = .next (errored 6 s) := by
  rw [exec, execEnc, ho]
  rfl

/-- ENC of a symbol in CT emits the code CT maps it to (R145's `code(s)`). -/
theorem exec_enc_of_mem {s : State} {x : Symbol} (ho : s.encOpen = true) (hx : x ∈ s.ct.map CtEntry.sym) :
    exec (.enc x) s = .next (encoded (codeFor s.ct x) s) := by
  obtain ⟨e, he⟩ : ∃ e, ctFind s.ct x = some e :=
    Option.ne_none_iff_exists'.mp fun hn => ctFind_eq_none_iff.mp hn hx
  rw [exec_enc_of_find ho he, codeFor, he]

/-- Settles O32: the word by its two fields (`wordS_eq_or`); a first entry of the symbol is the one ENC finds
(`ctFind_split`), and the two other outcomes are `exec_enc_of_absent` and `exec_enc_of_closed`. -/
theorem encEmitsTheCodeOrAborts : Obligations.EncEmitsTheCodeOrAborts := by
  refine ⟨fun x => wordS_eq_or 0x09 x ▸ encodedAs_encode (.enc x), fun s x => ⟨?_, ?_, exec_enc_of_closed⟩⟩
  · intro ho pre post len bits hct hpre
    have he : ctFind s.ct x = some ⟨x, len, bits⟩ := hct ▸ ctFind_split hpre
    rw [exec_enc_of_find ho he, encoded, emitBits, CtEntry.code, digitsOf, List.map_map]
    rfl
  · exact exec_enc_of_absent

/-! ### What a run does to the encoder

A run of any commands is seen through the tokens it appends to BITOUT and the codes its encoder commands
answer; both add up when two runs follow each other. -/

/-- The run of `prog` from `s` ends in `t`, having appended the tokens `ts` to BITOUT and answered its encoder
commands with the codes `cs`. -/
structure EncoderRun (prog : List Instr) (s t : State) (ts : List (Token Digit)) (cs : List Nat) : Prop where
  run : execAll prog s = .next t
  tokens : t.bitout = s.bitout ++ ts
  codes : codesFor isEncoder prog s t = cs

theorem EncoderRun.nil (s : State) : EncoderRun [] s s [] [] := ⟨rfl, (List.append_nil _).symm, rfl⟩

theorem EncoderRun.append {p q : List Instr} {s m t : State} {ts ts' : List (Token Digit)} {cs cs' : List Nat}
    (hp : EncoderRun p s m ts cs) (hq : EncoderRun q m t ts' cs') :
    EncoderRun (p ++ q) s t (ts ++ ts') (cs ++ cs') where
  run := execAll_append_eq_next.mpr ⟨m, hp.run, hq.run⟩
  tokens := by rw [hq.tokens, hp.tokens, List.append_assoc]
  codes := by rw [codesFor_append hp.run hq.run, hp.codes, hq.codes]

theorem EncoderRun.of_encoder {i : Instr} {s t : State} {ts : List (Token Digit)} {r : Word}
    (hi : isEncoder i = true) (h : exec i s = .next t) (hts : t.bitout = s.bitout ++ ts)
    (hr : t.rsp = s.rsp ++ [r]) : EncoderRun [i] s t ts [codeOf r] :=
  ⟨execAll_singleton.trans h, hts, by rw [codesFor_singleton hr, if_pos hi]⟩

/-- An encoder command that is refused emits nothing (R140, R141, R144). -/
theorem EncoderRun.of_refused {i : Instr} {s : State} (hi : isEncoder i = true)
    (h : exec i s = .next (errored 6 s)) : EncoderRun [i] s (errored 6 s) [] [6] :=
  .of_encoder hi h (List.append_nil _).symm rfl

/-- No other unit emits on BITOUT (10_state.md R39). -/
theorem EncoderRun.of_other {i : Instr} {s t : State} (hi : isEncoder i = false) (h : exec i s = .next t) :
    EncoderRun [i] s t [] [] := by
  obtain ⟨r, hr⟩ := exec_rsp h
  have hbits := ((exec_writesOnlyItsOwn h).encoder hi).2
  exact ⟨execAll_singleton.trans h, by rw [hbits, List.append_nil], by simp [codesFor_singleton hr, hi]⟩

/-- The ENCs of a run decide what it does to the encoder: if `P` holds through all commands of the other units,
and each ENC of a symbol `x` of `xs` keeps `P`, emits `f x` and answers the code `c`, then so it goes through
the whole run. By induction on the commands. -/
theorem EncoderRun.of_encs {P : State → Prop} {f : Symbol → List (Token Digit)} {c : Nat}
    (hother : ∀ i s t, P s → isEncoder i = false → exec i s = .next t → P t)
    {mid : List Instr} {xs : List Symbol} (hmid : mid.filter isEncoder = xs.map Instr.enc)
    (henc : ∀ x ∈ xs, ∀ s, P s → ∃ t, P t ∧ EncoderRun [.enc x] s t (f x) [c])
    {s t : State} (hs : P s) (h : execAll mid s = .next t) :
    P t ∧ EncoderRun mid s t (xs.flatMap f) (List.replicate xs.length c) := by
  induction mid generalizing xs s with
  | nil =>
    obtain rfl : xs = [] := (List.map_eq_nil_iff.mp hmid.symm)
    obtain rfl : s = t := by simpa using h
    exact ⟨hs, .nil s⟩
  | cons i is ih =>
    obtain ⟨m, hm, hrest⟩ := execAll_cons_eq_next.mp h
    cases hi : isEncoder i with
    | false =>
      rw [List.filter_cons_of_neg (by simp [hi])] at hmid
      obtain ⟨hP, hrun⟩ := ih hmid henc (hother i s m hs hi hm) hrest
      exact ⟨hP, (EncoderRun.of_other hi hm).append hrun⟩
    | true =>
      rw [List.filter_cons_of_pos hi] at hmid
      obtain ⟨x, xs, rfl, rfl, hxs⟩ := List.map_eq_cons_iff.mp hmid.symm
      obtain ⟨m', hm', hx⟩ := henc x List.mem_cons_self s hs
      obtain rfl : m' = m := Host.Outcome.next.inj ((execAll_singleton.symm.trans hx.run).symm.trans hm)
      obtain ⟨hP, hrun⟩ := ih hxs.symm (fun y hy => henc y (List.mem_cons_of_mem x hy)) hm' hrest
      exact ⟨hP, hx.append hrun⟩

/-- Inside an encode frame on the code table `ct`. -/
def InFrame (ct : List CtEntry) (s : State) : Prop := s.encOpen = true ∧ s.ct = ct

/-- No command of another unit closes the frame or, the table being locked, writes CT (20_memory.md R71). -/
theorem InFrame.keeps {ct : List CtEntry} {i : Instr} {s t : State} (h : InFrame ct s)
    (hi : isEncoder i = false) (hx : exec i s = .next t) : InFrame ct t := by
  obtain ⟨ho, rfl⟩ := h
  exact ⟨((exec_writesOnlyItsOwn hx).encoder hi).1.trans ho,
    exec_keeps_ct_of_locked (locked_iff.mpr (.inl ho)) hx⟩

theorem InFrame.enc_of_mem {ct : List CtEntry} {x : Symbol} (hx : x ∈ ct.map CtEntry.sym) {s : State}
    (h : InFrame ct s) :
    ∃ t, InFrame ct t ∧ EncoderRun [.enc x] s t ((codeFor ct x).map Token.data) [0] := by
  obtain ⟨ho, rfl⟩ := h
  exact ⟨encoded (codeFor s.ct x) s, ⟨ho, rfl⟩, .of_encoder rfl (exec_enc_of_mem ho hx) rfl rfl⟩

/-- Inside a frame, ENCs of symbols in CT emit their codes and leave the frame open. -/
theorem InFrame.run {ct : List CtEntry} {s t : State} {mid : List Instr} {xs : List Symbol} (hs : InFrame ct s)
    (hmid : mid.filter isEncoder = xs.map Instr.enc) (hxs : ∀ x ∈ xs, x ∈ ct.map CtEntry.sym)
    (h : execAll mid s = .next t) :
    InFrame ct t ∧
      EncoderRun mid s t ((xs.flatMap (codeFor ct)).map Token.data) (List.replicate xs.length 0) := by
  rw [List.map_flatMap]
  exact EncoderRun.of_encs (fun _ _ _ hs => hs.keeps) hmid (fun x hx _ hs => hs.enc_of_mem (hxs x hx)) hs h

/-- With no frame open, ENCs emit nothing and answer `BadSequence`. -/
theorem EncoderRun.of_closed {s t : State} {mid : List Instr} {xs : List Symbol} (hs : s.encOpen = false)
    (hmid : mid.filter isEncoder = xs.map Instr.enc) (h : execAll mid s = .next t) :
    t.encOpen = false ∧ EncoderRun mid s t [] (List.replicate xs.length 6) := by
  have hall := EncoderRun.of_encs (P := fun s => s.encOpen = false) (f := fun _ => [])
    (fun i s t hs hi hx => ((exec_writesOnlyItsOwn hx).encoder hi).1.trans hs) hmid
    (fun x _ s hs => ⟨errored 6 s, hs, .of_refused rfl (exec_enc_of_closed hs)⟩) hs h
  rwa [List.flatMap_eq_nil_iff.mpr fun _ _ => rfl] at hall

/-- The commands around one ENC of a run, when the run's encoder commands are all ENCs. -/
theorem exists_split_at_enc {mid : List Instr} {pre post : List Symbol} {x : Symbol}
    (h : mid.filter isEncoder = (pre ++ x :: post).map Instr.enc) :
    ∃ a b, mid = a ++ (.enc x :: b) ∧ a.filter isEncoder = pre.map Instr.enc ∧
      b.filter isEncoder = post.map Instr.enc := by
  rw [List.map_append, List.map_cons, List.filter_eq_append_iff] at h
  obtain ⟨a, rest, rfl, ha, hrest⟩ := h
  obtain ⟨others, b, rfl, hothers, -, hb⟩ := List.filter_eq_cons_iff.mp hrest
  exact ⟨a ++ others, b, (List.append_assoc _ _ _).symm,
    by rw [List.filter_append, ha, List.filter_eq_nil_iff.mpr hothers, List.append_nil], hb⟩

/-- Inside a frame, ENCs whose first symbol not in CT is `x` emit the codes before it; the ENC of `x` aborts the
frame, and the later ones find none open (R142). -/
theorem InFrame.run_of_unknown {ct : List CtEntry} {s t : State} {mid : List Instr} {pre post : List Symbol}
    {x : Symbol} (hs : InFrame ct s) (hmid : mid.filter isEncoder = (pre ++ x :: post).map Instr.enc)
    (hpre : ∀ y ∈ pre, y ∈ ct.map CtEntry.sym) (hx : x ∉ ct.map CtEntry.sym)
    (h : execAll mid s = .next t) :
    t.encOpen = false ∧ EncoderRun mid s t ((pre.flatMap (codeFor ct)).map Token.data ++ [.abort])
      (List.replicate pre.length 0 ++ 2 :: List.replicate post.length 6) := by
  obtain ⟨a, b, rfl, ha, hb⟩ := exists_split_at_enc hmid
  obtain ⟨u, hu, hrest⟩ := execAll_append_eq_next.mp h
  obtain ⟨v, hv, hlate⟩ := execAll_cons_eq_next.mp hrest
  obtain ⟨⟨hopen, hct⟩, hrun⟩ := hs.run ha hpre hu
  obtain rfl : raise .unknownSymbol u = v :=
    Host.Outcome.next.inj ((exec_enc_of_absent hopen (hct ▸ hx)).symm.trans hv)
  have habort : EncoderRun [.enc x] u (raise .unknownSymbol u) [.abort] [2] := .of_encoder rfl hv rfl rfl
  obtain ⟨hclosed, hrefused⟩ := EncoderRun.of_closed (s := raise .unknownSymbol u) rfl hb hlate
  exact ⟨hclosed, hrun.append (habort.append hrefused)⟩

/-! ### A whole encode frame (R145) -/

/-- A frame's run is ENCBEG, the commands within it, and ENCEND. -/
theorem execAll_encodeFrame {mid : List Instr} {s t : State} (ho : s.encOpen = false)
    (h : execAll (encodeFrame mid) s = .next t) :
    ∃ m, execAll mid (encodeOpened s) = .next m ∧ exec .encend m = .next t ∧
      EncoderRun [.encbeg] s (encodeOpened s) [] [0] := by
  have hbeg := exec_encbeg_of_closed ho
  obtain ⟨o, ho', hrest⟩ := execAll_cons_eq_next.mp h
  obtain rfl : encodeOpened s = o := Host.Outcome.next.inj (hbeg.symm.trans ho')
  obtain ⟨m, hm, hend⟩ := execAll_append_eq_next.mp hrest
  exact ⟨m, hm, execAll_singleton.symm.trans hend, .of_encoder rfl hbeg (List.append_nil _).symm rfl⟩

/-- ENCEND leaves no frame open, accepted or refused (R144). -/
theorem exec_encend_encOpen {s t : State} (h : exec .encend s = .next t) : t.encOpen = false := by
  cases ho : s.encOpen with
  | true =>
    rw [exec_encend_of_open ho] at h
    exact Host.Outcome.next.inj h ▸ rfl
  | false =>
    rw [exec_encend_of_closed ho] at h
    exact Host.Outcome.next.inj h ▸ ho

section
variable {s t : State} {mid : List Instr}

/-- A frame whose symbols are all in CT. -/
theorem EncoderRun.encodeFrame_of_known {syms : List Symbol} (ho : s.encOpen = false)
    (h : execAll (encodeFrame mid) s = .next t) (hmid : mid.filter isEncoder = syms.map Instr.enc)
    (hknown : ∀ x ∈ syms, x ∈ s.ct.map CtEntry.sym) :
    EncoderRun (encodeFrame mid) s t ((syms.flatMap (codeFor s.ct)).map Token.data ++ [.close])
      (List.replicate (syms.length + 2) 0) := by
  obtain ⟨m, hm, hend, hbeg⟩ := execAll_encodeFrame ho h
  have hopened : InFrame s.ct (encodeOpened s) := ⟨rfl, rfl⟩
  obtain ⟨⟨hopen, -⟩, hrun⟩ := hopened.run hmid hknown hm
  obtain rfl : encodeClosed m = t := Host.Outcome.next.inj ((exec_encend_of_open hopen).symm.trans hend)
  have hclose : EncoderRun [.encend] m (encodeClosed m) [.close] [0] := .of_encoder rfl hend rfl rfl
  rw [List.replicate_succ, List.replicate_succ']
  exact hbeg.append (hrun.append hclose)

/-- A frame with a first symbol `x` that is not in CT. -/
theorem EncoderRun.encodeFrame_of_unknown {pre post : List Symbol} {x : Symbol} (ho : s.encOpen = false)
    (h : execAll (encodeFrame mid) s = .next t)
    (hmid : mid.filter isEncoder = (pre ++ x :: post).map Instr.enc)
    (hpre : ∀ y ∈ pre, y ∈ s.ct.map CtEntry.sym) (hx : x ∉ s.ct.map CtEntry.sym) :
    EncoderRun (encodeFrame mid) s t ((pre.flatMap (codeFor s.ct)).map Token.data ++ [.abort])
      (List.replicate (pre.length + 1) 0 ++ 2 :: List.replicate (post.length + 1) 6) := by
  obtain ⟨m, hm, hend, hbeg⟩ := execAll_encodeFrame ho h
  have hopened : InFrame s.ct (encodeOpened s) := ⟨rfl, rfl⟩
  obtain ⟨hclosed, hrun⟩ := hopened.run_of_unknown hmid hpre hx hm
  have hrefused := exec_encend_of_closed hclosed
  obtain rfl : errored 6 m = t := Host.Outcome.next.inj (hrefused.symm.trans hend)
  rw [List.replicate_succ, List.replicate_succ' (n := post.length)]
  simpa [encodeFrame] using hbeg.append (hrun.append (.of_refused rfl hrefused))

end

/-- Settles O33: a frame of known symbols emits their codes and `End` (`encodeFrame_of_known`), one with a
first unknown symbol the codes before it and `Abort` (`encodeFrame_of_unknown`); the history before the frame
ends closed, so these tokens are one frame of it. -/
theorem encodeFrameGivesTheConcatenation : Obligations.EncodeFrameGivesTheConcatenation := by
  intro s syms mid hinv hframes ho hmid
  have hbefore := hframes.enc ho
  obtain ⟨t, ht⟩ := execAll_completes hinv (encodeFrame mid)
  obtain ⟨m, -, hend, -⟩ := execAll_encodeFrame ho ht
  refine ⟨t, ht, exec_encend_encOpen hend, fun hknown => ?_, ?_⟩
  · have hrun := EncoderRun.encodeFrame_of_known ho ht hmid hknown
    rw [hrun.tokens, ← List.append_assoc]
    exact ⟨frameResults_close hbefore _, hrun.codes⟩
  · rintro pre post x rfl hpre hx
    have hrun := EncoderRun.encodeFrame_of_unknown ho ht hmid hpre hx
    rw [hrun.tokens, ← List.append_assoc]
    exact ⟨frameResults_abort hbefore _, hrun.codes⟩

end Sys2Proof.Machine

/-! PROOFS. Unit U5, the decoder (44_decoder.md): what each of its commands does (R150 to R155), digit sequences
as codes one after another (R157, R161), the block as doc00's machine (R156) and as the traversal of the code
trie (R158, R159), the result of a whole decode frame (R161), and the round trip (R162). -/

namespace Sys2Proof.Machine

open Sys2Proof

/-! ### DECBEG and DECEND (R150, R154, R155) -/

/-- `s` after a DECBEG that was accepted. -/
def decodeOpened (s : State) : State := answered 0x00000000#32 (setDecFrame true s)

/-- `s` after a DECEND that found nothing pending. -/
def decodeClosed (s : State) : State :=
  answered 0x00000000#32 (emitSymout .close (setDecFrame false s))

theorem exec_decbeg_of_closed {s : State} (ho : s.decOpen = false) :
    exec .decbeg s = .next (decodeOpened s) := by
  rw [exec, execDecbeg, ho]
  rfl

theorem exec_decbeg_of_open {s : State} (ho : s.decOpen = true) : exec .decbeg s = .next (errored 6 s) :=
  if_pos ho

theorem exec_decend_of_closed {s : State} (ho : s.decOpen = false) : exec .decend s = .next (errored 6 s) := by
  rw [exec, execDecend, ho]
  rfl

theorem exec_decend_of_not_dpend {s : State} (ho : s.decOpen = true) (hp : s.dpend = false) :
    exec .decend s = .next (decodeClosed s) := by
  rw [exec, execDecend, ho, hp]
  rfl

/-- The frame abort (R155). -/
theorem exec_decend_of_dpend {s : State} (ho : s.decOpen = true) (hp : s.dpend = true) :
    exec .decend s = .next (raise .truncatedStream s) := by
  rw [exec, execDecend, ho, hp]
  rfl

theorem dpend_eq_false_iff (s : State) : s.dpend = false ↔ s.acclen = 0 ∧ s.ovr = false := by
  simp [State.dpend]

/-- Settles O34: the encoder's word, and the two branches of the test of DEC_OPEN. -/
theorem decbegOpensWithAnEmptyAccumulator : Obligations.DecbegOpensWithAnEmptyAccumulator :=
  ⟨encodedAs_encode .decbeg, fun _ => ⟨exec_decbeg_of_closed, exec_decbeg_of_open⟩⟩

/-- Settles O36: the encoder's word, and the outcomes by DEC_OPEN and by the pending condition (R32). -/
theorem decendClosesTheFrame : Obligations.DecendClosesTheFrame := by
  refine ⟨encodedAs_encode .decend, fun s => ⟨fun ho hlen hovr => ?_, fun ho hp => ?_, exec_decend_of_closed⟩⟩
  · exact exec_decend_of_not_dpend ho ((dpend_eq_false_iff s).mpr ⟨hlen, hovr⟩)
  · exact exec_decend_of_dpend ho ((dpend_iff s).mpr hp)

/-! ### DECBIT (R151) -/

section
variable {s : State} (d : Digit)

theorem exec_decbit_of_closed (ho : s.decOpen = false) : exec (.decbit d) s = .next (errored 6 s) := by
  rw [exec, execDecbit, ho]
  rfl

theorem exec_decbit_of_ovr (ho : s.decOpen = true) (hovr : s.ovr = true) :
    exec (.decbit d) s = .next (answered 0x00000000#32 s) := by
  rw [exec, execDecbit, ho, hovr]
  rfl

theorem exec_decbit_of_full (ho : s.decOpen = true) (hovr : s.ovr = false) (hlen : s.acclen = 15) :
    exec (.decbit d) s = .next (answered 0x00000000#32 { s with ovr := true }) := by
  rw [exec, execDecbit, ho, hovr, hlen]
  rfl

theorem exec_decbit_of_room (ho : s.decOpen = true) (hovr : s.ovr = false) (hlen : s.acclen ≠ 15) :
    exec (.decbit d) s = .next (answered 0x00000000#32 (matchAcc (appendDigit d s))) := by
  have hroom : s.acclen.toNat ≠ Config.lmax := fun h => hlen (BitVec.eq_of_toNat_eq h)
  rw [exec, execDecbit, ho, hovr]
  exact if_neg hroom

end

/-- The first entry with that length and those bits is the one found (R72). -/
theorem dtFind_split {pre post : List CtEntry} {e : CtEntry} {len : CodeLen} {b : CodeBits} (hlen : e.len = len)
    (hbits : e.bits = b) (hpre : ∀ x ∈ pre, ¬ (x.len = len ∧ x.bits = b)) :
    dtFind (pre ++ e :: post) len b = some e := by
  have hnone : pre.find? (fun x => x.len == len && x.bits == b) = none := by
    simpa [List.find?_eq_none] using hpre
  simp [dtFind, hnone, hlen, hbits]

theorem matchAcc_of_find {s : State} {e : CtEntry} (h : dtFind s.ct s.acclen s.acc = some e) :
    matchAcc s = clearAcc (emitSymout (.data e.sym) s) := by
  rw [matchAcc, h]

theorem matchAcc_of_absent {s : State} (h : ∀ e ∈ s.ct, ¬ (e.len = s.acclen ∧ e.bits = s.acc)) :
    matchAcc s = s := by
  rcases matchAcc_cases s with ⟨e, he, hlen, hbits, -⟩ | ⟨-, hm⟩
  · exact absurd ⟨hlen, hbits⟩ (h e he)
  · exact hm

/-- Settles O35: the two words, and the rule of DECBIT in each of its cases; with room, the new accumulator is
`setDigit`, and the look-up finds the first entry that fits (`dtFind_split`) or none. -/
theorem decbitAppendsAndMatches : Obligations.DecbitAppendsAndMatches := by
  refine ⟨encodedAs_encode (.decbit false), encodedAs_encode (.decbit true), fun s d =>
    ⟨exec_decbit_of_closed d, exec_decbit_of_ovr d, exec_decbit_of_full d, fun ho hovr hlen => ?_⟩⟩
  rw [exec_decbit_of_room d ho hovr hlen]
  refine ⟨setDigit s.acc s.acclen d, getLsbD_setDigit s.acc s.acclen d, ?_, fun hno => ?_⟩
  · intro pre post e hct hl hb hpre
    have hfind : dtFind (appendDigit d s).ct (appendDigit d s).acclen (appendDigit d s).acc = some e := by
      rw [appendDigit_ct, hct]
      exact dtFind_split hl hb hpre
    rw [matchAcc_of_find hfind]
    rfl
  · rw [matchAcc_of_absent (s := appendDigit d s) hno]
    rfl

/-! ### Codes one after another (R157, R161) -/

/-- Settles O39, by induction on the two sequences: their first codes begin the same digits, so they are one
entry (`CtInv.eq_of_prefixes`); and no code is empty. -/
theorem factorisationIsUnique : Obligations.FactorisationIsUnique := by
  intro ct xs ys h hxs hys heq
  induction xs generalizing ys with
  | nil =>
    cases ys with
    | nil => rfl
    | cons y ys => simp [h.code_ne_nil (hys y List.mem_cons_self)] at heq
  | cons x xs ih =>
    obtain ⟨hx, hxs⟩ := List.forall_mem_cons.mp hxs
    cases ys with
    | nil => simp [h.code_ne_nil hx] at heq
    | cons y ys =>
      obtain ⟨hy, hys'⟩ := List.forall_mem_cons.mp hys
      rw [List.flatMap_cons, List.flatMap_cons] at heq
      have hxy : x = y := h.eq_of_prefixes hx hy (heq ▸ List.prefix_append _ _) (List.prefix_append _ _)
      subst hxy
      rw [ih ys hxs hys' (List.append_cancel_left heq)]

/-! ### Two decoders side by side -/

/-- Decoders related digit by digit emit the same symbols and end related. -/
theorem feed_related {σ τ : Type} {f : σ → Digit → σ × Option Symbol} {g : τ → Digit → τ × Option Symbol}
    {R : σ → τ → Prop} (hbit : ∀ a b d, R a b → R (f a d).1 (g b d).1 ∧ (f a d).2 = (g b d).2) {a : σ} {b : τ}
    (h : R a b) (ds : List Digit) :
    R (feed f a ds).1 (feed g b ds).1 ∧ (feed f a ds).2 = (feed g b ds).2 := by
  induction ds generalizing a b with
  | nil => exact ⟨h, rfl⟩
  | cons d ds ih =>
    obtain ⟨hnext, hsym⟩ := hbit a b d h
    obtain ⟨hend, hsyms⟩ := ih hnext
    exact ⟨hend, by simp only [feed, hsym, hsyms]⟩

/-- What one digit keeps, a sequence of digits keeps. -/
theorem feed_keeps {σ : Type} {f : σ → Digit → σ × Option Symbol} {P : σ → Prop}
    (hbit : ∀ a d, P a → P (f a d).1) {a : σ} (h : P a) (ds : List Digit) : P (feed f a ds).1 := by
  induction ds generalizing a with
  | nil => exact h
  | cons d ds ih => exact ih (hbit a d h)

/-! ### doc00's machine (R156) on codes -/

section
variable {ct : List CtEntry}

theorem unboundedBit_of_code (h : CtInv ct) {e : CtEntry} (he : e ∈ ct) {acc : List Digit} {d : Digit}
    (hc : e.code = acc ++ [d]) : unboundedBit ct acc d = ([], some e.sym) := by
  rw [unboundedBit, h.decodeTable_eq_some_iff.mpr ⟨e, he, hc, rfl⟩]

theorem unboundedBit_of_no_code {acc : List Digit} {d : Digit} (hno : ∀ e ∈ ct, e.code ≠ acc ++ [d]) :
    unboundedBit ct acc d = (acc ++ [d], none) := by
  rw [unboundedBit, decodeTable_eq_none_iff.mpr hno]

/-- No code has more than 15 digits (10_state.md R27). -/
theorem unboundedBit_of_long {acc : List Digit} {d : Digit} (hlong : 15 ≤ acc.length) :
    unboundedBit ct acc d = (acc ++ [d], none) := by
  refine unboundedBit_of_no_code fun e _ hc => ?_
  have hle := length_code_le e
  rw [hc, List.length_append, List.length_singleton] at hle
  omega

/-- Digits that no code begins are kept, and emit nothing. -/
theorem feed_unboundedBit_of_no_prefix {acc ds : List Digit} (hno : ∀ e ∈ ct, ¬ e.code <+: acc ++ ds) :
    feed (unboundedBit ct) acc ds = (acc ++ ds, []) := by
  induction ds generalizing acc with
  | nil => simp [feed]
  | cons d ds ih =>
    have hsplit : acc ++ d :: ds = acc ++ [d] ++ ds := by simp
    rw [hsplit] at hno ⊢
    rw [feed, unboundedBit_of_no_code fun e he hc => hno e he (hc ▸ List.prefix_append _ _)]
    simp [ih hno]

/-- Digits with which a code begins, but not all of it, are begun by no code (R29 (c)). -/
theorem CtInv.not_prefix_of_proper (h : CtInv ct) {e : CtEntry} (he : e ∈ ct) {p : List Digit} (hp : p <+: e.code)
    (hne : p ≠ e.code) : ∀ e' ∈ ct, ¬ e'.code <+: p := by
  intro e' he' hp'
  obtain rfl := h.eq_of_prefix he' he (hp'.trans hp)
  exact hne (hp.eq_of_length (hp.length_le.antisymm hp'.length_le))

/-- The digits of a code emit its symbol and leave nothing: all of them but the last are kept. -/
theorem CtInv.feed_code (h : CtInv ct) {e : CtEntry} (he : e ∈ ct) :
    feed (unboundedBit ct) [] e.code = ([], [e.sym]) := by
  obtain ⟨p, d, hc⟩ : ∃ p d, e.code = p ++ [d] :=
    ⟨_, _, (List.dropLast_append_getLast (h.code_ne_nil he)).symm⟩
  have hno := h.not_prefix_of_proper he (p := p) (hc ▸ List.prefix_append _ _) (by simp [hc])
  rw [hc, feed_append, feed_unboundedBit_of_no_prefix (acc := []) hno]
  simp [feed, unboundedBit_of_code h he hc]

/-- Codes one after another emit their symbols and leave nothing. -/
theorem CtInv.feed_codes (h : CtInv ct) {es : List CtEntry} (hes : ∀ e ∈ es, e ∈ ct) :
    feed (unboundedBit ct) [] (es.flatMap CtEntry.code) = ([], es.map CtEntry.sym) := by
  induction es with
  | nil => rfl
  | cons e es ih =>
    obtain ⟨he, hes⟩ := List.forall_mem_cons.mp hes
    rw [List.flatMap_cons, feed_append, h.feed_code he, ih hes]
    rfl

/-- Whatever the digits, they are codes one after another and then what is left in the accumulator. -/
theorem CtInv.exists_codes_of_feed (h : CtInv ct) (acc ds : List Digit) :
    ∃ es : List CtEntry, (∀ e ∈ es, e ∈ ct) ∧
      acc ++ ds = es.flatMap CtEntry.code ++ (feed (unboundedBit ct) acc ds).1 := by
  induction ds generalizing acc with
  | nil => exact ⟨[], by simp, by simp [feed]⟩
  | cons d ds ih =>
    by_cases hcode : ∃ e ∈ ct, e.code = acc ++ [d]
    · obtain ⟨e, he, hc⟩ := hcode
      obtain ⟨es, hes, hds⟩ := ih []
      refine ⟨e :: es, List.forall_mem_cons.mpr ⟨he, hes⟩, ?_⟩
      rw [feed, unboundedBit_of_code h he hc, List.flatMap_cons, hc, List.append_assoc _ _ (Prod.fst _), ← hds]
      simp
    · push Not at hcode
      obtain ⟨es, hes, hds⟩ := ih (acc ++ [d])
      refine ⟨es, hes, ?_⟩
      rw [feed, unboundedBit_of_no_code hcode, ← hds]
      simp

/-- Nothing is left exactly when the digits are codes one after another (R161). -/
theorem CtInv.feed_eq_nil_iff (h : CtInv ct) (ds : List Digit) :
    (feed (unboundedBit ct) [] ds).1 = [] ↔
      ∃ es : List CtEntry, (∀ e ∈ es, e ∈ ct) ∧ ds = es.flatMap CtEntry.code := by
  constructor
  · intro hnil
    obtain ⟨es, hes, hds⟩ := h.exists_codes_of_feed [] ds
    exact ⟨es, hes, by simpa [hnil] using hds⟩
  · rintro ⟨es, hes, rfl⟩
    rw [h.feed_codes hes]

end

/-! ### The block as doc00's machine (R156) -/

theorem filter_isDecoder_decbits (ds : List Digit) :
    (ds.map Instr.decbit).filter isDecoder = ds.map Instr.decbit := by
  refine List.filter_eq_self.mpr fun i hi => ?_
  obtain ⟨d, -, rfl⟩ := List.mem_map.mp hi
  rfl

/-- Inside a decode frame on the code table `ct`, the block stands for the unbounded accumulator `acc`: ACC holds
it, or it has outgrown ACC and OVR is set. -/
structure StandsFor (ct : List CtEntry) (acc : List Digit) (s : State) : Prop where
  inv : Inv s
  isOpen : s.decOpen = true
  table : s.ct = ct
  digits : s.ovr = false ∧ s.accDigits = acc ∨ s.ovr = true ∧ 15 < acc.length

theorem StandsFor.of_empty {s : State} (h : Inv s) (ho : s.decOpen = true) (hlen : s.acclen = 0)
    (hovr : s.ovr = false) : StandsFor s.ct [] s :=
  ⟨h, ho, rfl, .inl ⟨hovr, (digitsOf_eq_nil_iff _ _).mpr hlen⟩⟩

section
variable {ct : List CtEntry} {acc : List Digit} {s : State} (h : StandsFor ct acc s)
include h

theorem StandsFor.accDigits_eq (hlen : acc.length ≤ 15) : s.accDigits = acc := by
  rcases h.digits with ⟨-, hacc⟩ | ⟨-, hlong⟩
  · exact hacc
  · omega

/-- The pending condition (10_state.md R32) is that of doc00's machine. -/
theorem StandsFor.dpend_eq_false_iff : s.dpend = false ↔ acc = [] := by
  rw [Machine.dpend_eq_false_iff]
  rcases h.digits with ⟨hovr, rfl⟩ | ⟨hovr, hlong⟩
  · simp [hovr, State.accDigits, digitsOf_eq_nil_iff]
  · exact iff_of_false (by simp [hovr]) (by rintro rfl; simp at hlong)

/-- No command of another unit reaches the frame or, the table being locked, writes CT (20_memory.md R71). -/
theorem StandsFor.keeps {i : Instr} {t : State} (hi : isDecoder i = false) (hx : exec i s = .next t) :
    StandsFor ct acc t := by
  have hw := exec_writesOnlyItsOwn hx
  obtain ⟨hacc, hlen, hovr, -⟩ := hw.decoder hi
  have hflag : t.decOpen = s.decOpen := hw.decFlag (by rintro rfl; cases hi) (by rintro rfl; cases hi)
  refine ⟨exec_keeps_inv h.inv hx, hflag.trans h.isOpen, ?_, ?_⟩
  · rw [exec_keeps_ct_of_locked (locked_iff.mpr (.inr h.isOpen)) hx, h.table]
  · rw [State.accDigits, hacc, hlen, hovr]
    exact h.digits

/-- DECBIT is one digit of doc00's machine, answered `OK`. With an accumulator of 15 digits or more the digit
only makes it longer; with a shorter one the look-up is the same (`exec_decbit_digits`). -/
theorem StandsFor.decbit (d : Digit) :
    ∃ t, exec (.decbit d) s = .next t ∧ StandsFor ct (unboundedBit ct acc d).1 t ∧
      t.symout = s.symout ++ (unboundedBit ct acc d).2.toList.map Token.data ∧
      t.rsp = s.rsp ++ [0x00000000#32] := by
  obtain ⟨hinv, ho, rfl, hdigits⟩ := h
  have stands {t : State} {acc' : List Digit} (hx : exec (.decbit d) s = .next t)
      (hflag : t.decOpen = s.decOpen) (hct : t.ct = s.ct)
      (hacc : t.ovr = false ∧ t.accDigits = acc' ∨ t.ovr = true ∧ 15 < acc'.length) :
      StandsFor s.ct acc' t := ⟨exec_keeps_inv hinv hx, hflag.trans ho, hct, hacc⟩
  rcases hdigits with ⟨hovr, rfl⟩ | ⟨hovr, hlong⟩
  · by_cases hfull : s.acclen = 15
    · have hlen : s.accDigits.length = 15 := by rw [State.accDigits, length_digitsOf, hfull]; rfl
      have hx := exec_decbit_of_full d ho hovr hfull
      rw [unboundedBit_of_long hlen.ge]
      exact ⟨_, hx, stands hx rfl rfl (.inr ⟨rfl, by simp [hlen]⟩), (List.append_nil _).symm, rfl⟩
    · have hroom : s.acclen.toNat ≠ 15 := fun hn => hfull (BitVec.eq_of_toNat_eq hn)
      rcases exec_decbit_digits hinv ho hovr hroom d with ⟨e, he, hc, hx⟩ | ⟨hno, hx, hacc⟩
      · rw [unboundedBit_of_code hinv.ct he hc]
        exact ⟨_, hx, stands hx rfl rfl (.inl ⟨hovr, digitsOf_zero 0⟩), rfl, rfl⟩
      · rw [unboundedBit_of_no_code hno]
        exact ⟨_, hx, stands hx rfl rfl (.inl ⟨hovr, hacc⟩), (List.append_nil _).symm, rfl⟩
  · have hx := exec_decbit_of_ovr d ho hovr
    rw [unboundedBit_of_long hlong.le]
    exact ⟨_, hx, stands hx rfl rfl (.inr ⟨hovr, by simp; omega⟩), (List.append_nil _).symm, rfl⟩

/-- Commands whose decoder commands are DECBITs do to the frame what their digits do to doc00's machine, and the
DECBITs answer `OK`. By induction on the commands. -/
theorem StandsFor.run {mid : List Instr} {ds : List Digit} (hmid : mid.filter isDecoder = ds.map Instr.decbit)
    {t : State} (hx : execAll mid s = .next t) :
    StandsFor ct (feed (unboundedBit ct) acc ds).1 t ∧
      t.symout = s.symout ++ (feed (unboundedBit ct) acc ds).2.map Token.data ∧
      codesFor isDecoder mid s t = List.replicate ds.length 0 := by
  induction mid generalizing s acc ds with
  | nil =>
    obtain rfl : ds = [] := List.map_eq_nil_iff.mp hmid.symm
    obtain rfl : s = t := by simpa using hx
    exact ⟨h, (List.append_nil _).symm, rfl⟩
  | cons i is ih =>
    obtain ⟨m, hm, hrest⟩ := execAll_cons_eq_next.mp hx
    have hcodes := codesFor_append (keep := isDecoder) (execAll_singleton.trans hm) hrest
    rw [List.singleton_append] at hcodes
    cases hi : isDecoder i with
    | false =>
      rw [List.filter_cons_of_neg (by simp [hi])] at hmid
      obtain ⟨r, hr⟩ := exec_rsp hm
      obtain ⟨hend, hsyms, hok⟩ := ih (h.keeps hi hm) hmid hrest
      obtain ⟨-, -, -, hsymout⟩ := (exec_writesOnlyItsOwn hm).decoder hi
      exact ⟨hend, hsymout ▸ hsyms, by rw [hcodes, hok, codesFor_singleton hr, hi]; rfl⟩
    | true =>
      rw [List.filter_cons_of_pos hi] at hmid
      obtain ⟨d, ds, rfl, rfl, hds⟩ := List.map_eq_cons_iff.mp hmid.symm
      obtain ⟨m', hm', hnext, hsym, hr⟩ := h.decbit d
      obtain rfl : m' = m := Host.Outcome.next.inj (hm'.symm.trans hm)
      obtain ⟨hend, hsyms, hok⟩ := ih hnext hds.symm hrest
      refine ⟨hend, ?_, by rw [hcodes, hok, codesFor_singleton hr, hi]; rfl⟩
      rw [hsyms, hsym, feed, List.map_append, List.append_assoc]

/-- The DECBITs of a digit sequence alone. -/
theorem StandsFor.decbits (ds : List Digit) :
    ∃ t, execAll (ds.map Instr.decbit) s = .next t ∧ StandsFor ct (feed (unboundedBit ct) acc ds).1 t ∧
      t.symout = s.symout ++ (feed (unboundedBit ct) acc ds).2.map Token.data := by
  obtain ⟨t, ht⟩ := execAll_completes h.inv (ds.map Instr.decbit)
  obtain ⟨hend, hsyms, -⟩ := h.run (filter_isDecoder_decbits ds) ht
  exact ⟨t, ht, hend, hsyms⟩

end

/-- Settles O40: the run is doc00's machine on the same digits (`StandsFor.decbits`), and so is the pending
condition. -/
theorem boundedAccumulatorEqualsUnbounded : Obligations.BoundedAccumulatorEqualsUnbounded := by
  intro s ds h ho hlen hovr
  obtain ⟨t, ht, hend, hsyms⟩ := (StandsFor.of_empty h ho hlen hovr).decbits ds
  exact ⟨t, ht, hsyms, by rw [← Bool.not_eq_false, ne_eq, hend.dpend_eq_false_iff]⟩

/-- Settles O38: the digits of a code give its symbol and leave nothing (`CtInv.feed_code`); fewer of them are
begun by no code (`CtInv.not_prefix_of_proper`), so they are kept, and ACC has room for them. -/
theorem symbolLeavesWithItsLastDigit : Obligations.SymbolLeavesWithItsLastDigit := by
  intro s e h ho hlen hovr he
  have hs := StandsFor.of_empty h ho hlen hovr
  refine ⟨?_, fun p hp hne => ?_⟩
  · obtain ⟨t, ht, hend, hsyms⟩ := hs.decbits e.code
    rw [h.ct.feed_code he] at hend hsyms
    exact ⟨t, ht, hsyms, (dpend_eq_false_iff t).mp (hend.dpend_eq_false_iff.mpr rfl)⟩
  · obtain ⟨t, ht, hend, hsyms⟩ := hs.decbits p
    rw [feed_unboundedBit_of_no_prefix (acc := []) (h.ct.not_prefix_of_proper he hp hne)] at hend hsyms
    exact ⟨t, ht, by simpa using hsyms, hend.accDigits_eq (hp.length_le.trans (length_code_le e))⟩

/-! ### The traversal of the code trie (R158, R159) -/

/-- POS stands for the accumulator `acc`: it is the node `acc`, or `acc` has left the trie. -/
def TrieStandsFor (ct : List CtEntry) (pos : TriePos) (acc : List Digit) : Prop :=
  pos = .node acc ∨ pos = .dead ∧ acc ≠ [] ∧ trieHas ct acc = false

theorem trieHas_iff {ct : List CtEntry} {p : List Digit} : trieHas ct p = true ↔ ∃ e ∈ ct, p <+: e.code := by
  simp [trieHas]

theorem trieHas_eq_false_iff {ct : List CtEntry} {p : List Digit} :
    trieHas ct p = false ↔ ∀ e ∈ ct, ¬ p <+: e.code := by
  rw [← Bool.not_eq_true, trieHas_iff]
  push Not
  rfl

/-- Outside the trie no digit leads to a code. -/
theorem unboundedBit_of_not_trieHas {ct : List CtEntry} {acc : List Digit} {d : Digit}
    (hno : trieHas ct (acc ++ [d]) = false) : unboundedBit ct acc d = (acc ++ [d], none) :=
  unboundedBit_of_no_code fun e he hc => trieHas_eq_false_iff.mp hno e he (hc ▸ List.prefix_rfl)

/-- One digit of the traversal is one digit of doc00's machine. -/
theorem TrieStandsFor.trieBit {ct : List CtEntry} (pos : TriePos) (acc : List Digit) (d : Digit)
    (h : TrieStandsFor ct pos acc) : TrieStandsFor ct (trieBit ct pos d).1 (unboundedBit ct acc d).1 ∧
      (trieBit ct pos d).2 = (unboundedBit ct acc d).2 := by
  rcases h with rfl | ⟨rfl, -, hno⟩
  · cases hhas : trieHas ct (acc ++ [d]) with
    | true =>
      simp only [Machine.trieBit, unboundedBit, hhas, if_true]
      cases decodeTable ct (acc ++ [d]) <;> exact ⟨.inl rfl, rfl⟩
    | false =>
      rw [Machine.trieBit, hhas, unboundedBit_of_not_trieHas hhas]
      exact ⟨.inr ⟨rfl, by simp, hhas⟩, rfl⟩
  · have hno' : trieHas ct (acc ++ [d]) = false := trieHas_eq_false_iff.mpr fun e he hp =>
      trieHas_eq_false_iff.mp hno e he ((List.prefix_append acc [d]).trans hp)
    rw [unboundedBit_of_not_trieHas hno']
    exact ⟨.inr ⟨rfl, by simp, hno'⟩, rfl⟩

theorem TrieStandsFor.pending_eq_false_iff {ct : List CtEntry} {pos : TriePos} {acc : List Digit}
    (h : TrieStandsFor ct pos acc) : triePending pos = false ↔ acc = [] := by
  rcases h with rfl | ⟨rfl, hne, -⟩
  · simp [triePending]
  · simp [triePending, hne]

/-- Settles O41: the traversal goes with doc00's machine digit by digit (`TrieStandsFor.trieBit`), and the block
does (`StandsFor.decbits`). -/
theorem trieTraversalEqualsAccumulator : Obligations.TrieTraversalEqualsAccumulator := by
  intro s ds h ho hlen hovr
  obtain ⟨t, ht, hend, hsyms⟩ := (StandsFor.of_empty h ho hlen hovr).decbits ds
  obtain ⟨htrie, heq⟩ := feed_related (TrieStandsFor.trieBit (ct := s.ct)) (.inl rfl : TrieStandsFor s.ct _ []) ds
  refine ⟨t, ht, by rw [hsyms, heq], ?_⟩
  rw [← Bool.not_inj_iff, Bool.eq_iff_iff, Bool.not_eq_true', Bool.not_eq_true', hend.dpend_eq_false_iff,
    htrie.pending_eq_false_iff]

/-- POS is a node that no code has led to yet. -/
def Inside (ct : List CtEntry) (pos : TriePos) : Prop := ∃ p, pos = .node p ∧ ∀ e ∈ ct, ¬ e.code <+: p

/-- Where some code begins every long enough sequence, each digit leads to a node: a code that begins the path,
the digit and more of them is the path with the digit, or goes on from there. -/
theorem Inside.trieBit {ct : List CtEntry} (hct : CtInv ct)
    (hcomplete : ∀ ds : List Digit, 15 ≤ ds.length → ∃ e ∈ ct, e.code <+: ds) (pos : TriePos) (d : Digit)
    (h : Inside ct pos) : Inside ct (trieBit ct pos d).1 := by
  obtain ⟨p, rfl, hno⟩ := h
  obtain ⟨e, he, hp⟩ := hcomplete (p ++ [d] ++ List.replicate 15 false) (by simp)
  have hhas : trieHas ct (p ++ [d]) = true := by
    refine trieHas_iff.mpr ⟨e, he, ?_⟩
    rcases List.prefix_or_prefix_of_prefix hp (List.prefix_append _ _) with hc | hc
    · rcases List.prefix_concat_iff.mp hc with hc | hc
      · exact hc ▸ List.prefix_rfl
      · exact absurd hc (hno e he)
    · exact hc
  cases hd : decodeTable ct (p ++ [d]) with
  | some x =>
    simp only [Machine.trieBit, hhas, if_true, hd]
    exact ⟨[], rfl, fun e he hc => hct.code_ne_nil he (List.prefix_nil.mp hc)⟩
  | none =>
    simp only [Machine.trieBit, hhas, if_true, hd]
    refine ⟨p ++ [d], rfl, fun e he hc => ?_⟩
    rcases List.prefix_concat_iff.mp hc with hc | hc
    · exact decodeTable_eq_none_iff.mp hd e he hc
    · exact hno e he hc

/-- Settles O42: the table of GEN is complete (`generatedCodeSetIsComplete`), so the traversal stays inside. -/
theorem generatedTrieHasNoDeadBranch : Obligations.GeneratedTrieHasNoDeadBranch := by
  intro s t ds h henc hdec hv hsize hgen
  have hct : CtInv t.ct := (exec_keeps_inv h hgen).ct
  have hcomplete (ds : List Digit) (hds : 15 ≤ ds.length) : ∃ e ∈ t.ct, e.code <+: ds := by
    obtain ⟨e, he, hp, -⟩ := generatedCodeSetIsComplete s t ds h henc hdec hv hsize hgen hds
    exact ⟨e, he, hp⟩
  have hroot : Inside t.ct (.node []) := ⟨[], rfl, fun e he hc => hct.code_ne_nil he (List.prefix_nil.mp hc)⟩
  obtain ⟨p, hp, -⟩ := feed_keeps (Inside.trieBit hct hcomplete) hroot ds
  rw [hp]
  exact TriePos.noConfusion

/-! ### A whole decode frame (R161) -/

theorem codesFor_kept {keep : Instr → Bool} {i : Instr} {s t : State} (hi : keep i = true) (r : Word)
    (hr : t.rsp = s.rsp ++ [r]) : codesFor keep [i] s t = [codeOf r] := by
  rw [codesFor_singleton hr, if_pos hi]

/-- DECEND leaves no frame open, accepted or refused (R154). -/
theorem exec_decend_decOpen {s t : State} (h : exec .decend s = .next t) : t.decOpen = false := by
  cases ho : s.decOpen with
  | false =>
    rw [exec_decend_of_closed ho] at h
    exact Host.Outcome.next.inj h ▸ ho
  | true =>
    cases hp : s.dpend with
    | false =>
      rw [exec_decend_of_not_dpend ho hp] at h
      exact Host.Outcome.next.inj h ▸ rfl
    | true =>
      rw [exec_decend_of_dpend ho hp] at h
      exact Host.Outcome.next.inj h ▸ rfl

section
variable {ct : List CtEntry} {acc : List Digit} {s t : State} (h : StandsFor ct acc s)
  (hx : exec .decend s = .next t)
include h hx

theorem StandsFor.decend_of_nil (hacc : acc = []) :
    t.symout = s.symout ++ [.close] ∧ codesFor isDecoder [.decend] s t = [0] := by
  have hclose := exec_decend_of_not_dpend h.isOpen (h.dpend_eq_false_iff.mpr hacc)
  obtain rfl : decodeClosed s = t := Host.Outcome.next.inj (hclose.symm.trans hx)
  exact ⟨rfl, codesFor_kept rfl 0x00000000#32 rfl⟩

theorem StandsFor.decend_of_ne_nil (hacc : acc ≠ []) :
    t.symout = s.symout ++ [.abort] ∧ codesFor isDecoder [.decend] s t = [3] := by
  have hpend : s.dpend = true := Bool.of_not_eq_false (mt h.dpend_eq_false_iff.mp hacc)
  have habort := exec_decend_of_dpend h.isOpen hpend
  obtain rfl : raise .truncatedStream s = t := Host.Outcome.next.inj (habort.symm.trans hx)
  exact ⟨rfl, codesFor_kept rfl 0x18000000#32 rfl⟩

end

/-- A frame's run up to its DECEND: DECBEG opens it with an empty accumulator, and its digits do to it what they
do to doc00's machine. -/
theorem execAll_decodeFrame {s t : State} {mid : List Instr} {ds : List Digit} (hinv : Inv s)
    (ho : s.decOpen = false) (hmid : mid.filter isDecoder = ds.map Instr.decbit)
    (h : execAll (decodeFrame mid) s = .next t) :
    ∃ m, StandsFor s.ct (feed (unboundedBit s.ct) [] ds).1 m ∧ exec .decend m = .next t ∧
      m.symout = s.symout ++ (feed (unboundedBit s.ct) [] ds).2.map Token.data ∧
      codesFor isDecoder (decodeFrame mid) s t =
        List.replicate (ds.length + 1) 0 ++ codesFor isDecoder [.decend] m t := by
  have hbeg := exec_decbeg_of_closed ho
  obtain ⟨o, ho', hrest⟩ := execAll_cons_eq_next.mp h
  obtain rfl : decodeOpened s = o := Host.Outcome.next.inj (hbeg.symm.trans ho')
  obtain ⟨m, hm, hend⟩ := execAll_append_eq_next.mp hrest
  have hopened : StandsFor s.ct [] (decodeOpened s) := .of_empty (exec_keeps_inv hinv hbeg) rfl rfl rfl
  obtain ⟨hstands, hsyms, hcodes⟩ := hopened.run hmid hm
  refine ⟨m, hstands, execAll_singleton.symm.trans hend, hsyms, ?_⟩
  have hfirst : codesFor isDecoder [.decbeg] s (decodeOpened s) = [0] := codesFor_kept rfl 0x00000000#32 rfl
  rw [decodeFrame, ← List.singleton_append, codesFor_append (execAll_singleton.trans hbeg) hrest,
    codesFor_append hm hend, hfirst, hcodes, List.replicate_succ]
  rfl

section
variable {s t : State} {mid : List Instr} {ds : List Digit} (hinv : Inv s) (ho : s.decOpen = false)
  (hclosed : unfinished s.symout = []) (hmid : mid.filter isDecoder = ds.map Instr.decbit)
  (h : execAll (decodeFrame mid) s = .next t)
include hinv ho hclosed hmid h

/-- A frame whose digits are codes one after another. -/
theorem decodeFrame_of_codes {es : List CtEntry} (hes : ∀ e ∈ es, e ∈ s.ct)
    (hds : ds = es.flatMap CtEntry.code) :
    frameResults t.symout = frameResults s.symout ++ [.success (es.map CtEntry.sym)] ∧
      codesFor isDecoder (decodeFrame mid) s t = List.replicate (ds.length + 2) 0 := by
  obtain ⟨m, hm, hend, hsyms, hcodes⟩ := execAll_decodeFrame hinv ho hmid h
  have hfeed := hinv.ct.feed_codes hes
  rw [← hds] at hfeed
  rw [hfeed] at hm hsyms
  obtain ⟨hclose, hcode⟩ := hm.decend_of_nil hend rfl
  rw [hclose, hsyms, hcodes, hcode, List.replicate_succ' (n := ds.length + 1)]
  exact ⟨frameResults_close hclosed _, rfl⟩

/-- A frame whose digits are not. -/
theorem decodeFrame_of_no_codes
    (hno : ¬ ∃ es : List CtEntry, (∀ e ∈ es, e ∈ s.ct) ∧ ds = es.flatMap CtEntry.code) :
    frameResults t.symout = frameResults s.symout ++ [.failure] ∧
      codesFor isDecoder (decodeFrame mid) s t = List.replicate (ds.length + 1) 0 ++ [3] := by
  obtain ⟨m, hm, hend, hsyms, hcodes⟩ := execAll_decodeFrame hinv ho hmid h
  obtain ⟨habort, hcode⟩ := hm.decend_of_ne_nil hend (mt (hinv.ct.feed_eq_nil_iff ds).mp hno)
  rw [habort, hsyms, hcodes, hcode]
  exact ⟨frameResults_abort hclosed _, rfl⟩

end

/-- Settles O37: doc00's machine is left with nothing exactly when the digits are codes one after another, and
then has emitted their symbols; DECEND tells which (`decodeFrame_of_codes`, `decodeFrame_of_no_codes`). -/
theorem decodeFrameRecoversTheSymbols : Obligations.DecodeFrameRecoversTheSymbols := by
  intro s ds mid hinv hframes ho hmid
  have hclosed := hframes.dec ho
  obtain ⟨t, ht⟩ := execAll_completes hinv (decodeFrame mid)
  obtain ⟨m, -, hend, -⟩ := execAll_decodeFrame hinv ho hmid ht
  exact ⟨t, ht, exec_decend_decOpen hend, fun _ => decodeFrame_of_codes hinv ho hclosed hmid ht,
    decodeFrame_of_no_codes hinv ho hclosed hmid ht⟩

/-! ### Runs answered `OK` throughout -/

/-- What each command of a program keeps, the program keeps. -/
theorem execAll_keeps {P : State → Prop} {prog : List Instr}
    (hstep : ∀ i ∈ prog, ∀ s t, P s → exec i s = .next t → P t) {s t : State} (hs : P s)
    (h : execAll prog s = .next t) : P t := by
  induction prog generalizing s with
  | nil =>
    obtain rfl : s = t := by simpa using h
    exact hs
  | cons i is ih =>
    obtain ⟨m, hm, hrest⟩ := execAll_cons_eq_next.mp h
    obtain ⟨hi, his⟩ := List.forall_mem_cons.mp hstep
    exact ih his (hi s m hs hm) hrest

theorem execAll_keeps_inv {prog : List Instr} {s t : State} (hs : Inv s) (h : execAll prog s = .next t) : Inv t :=
  execAll_keeps (fun _ _ _ _ => exec_keeps_inv) hs h

/-- The run of `prog` from `s` ends in `t`, with every command answered `OK`. -/
structure RunsOk (prog : List Instr) (s t : State) : Prop where
  run : execAll prog s = .next t
  ok : ∀ r ∈ t.rsp.drop s.rsp.length, codeOf r = 0

theorem RunsOk.of_exec {i : Instr} {s t : State} {r : Word} (h : exec i s = .next t) (hr : t.rsp = s.rsp ++ [r])
    (hok : codeOf r = 0) : RunsOk [i] s t :=
  ⟨execAll_singleton.trans h, by simpa [hr] using hok⟩

theorem RunsOk.append {p q : List Instr} {s m t : State} (hp : RunsOk p s m) (hq : RunsOk q m t) :
    RunsOk (p ++ q) s t := by
  refine ⟨execAll_append_eq_next.mpr ⟨m, hp.run, hq.run⟩, fun r hr => ?_⟩
  obtain ⟨rs, -, hrs⟩ := execAll_rsp hp.run
  obtain ⟨rs', -, hrs'⟩ := execAll_rsp hq.run
  have hall : t.rsp = s.rsp ++ (rs ++ rs') := by rw [hrs', hrs, List.append_assoc]
  have hp' := hp.ok
  have hq' := hq.ok
  rw [hrs, List.drop_left] at hp'
  rw [hrs', List.drop_left] at hq'
  rw [hall, List.drop_left] at hr
  exact (List.mem_append.mp hr).elim (hp' r) (hq' r)

/-- A program of commands that `keep` selects answers the codes of `codesFor keep`. -/
theorem codesFor_of_all {keep : Instr → Bool} {prog : List Instr} {s t : State} (hkeep : ∀ i ∈ prog, keep i = true)
    (h : execAll prog s = .next t) : codesFor keep prog s t = (t.rsp.drop s.rsp.length).map codeOf := by
  obtain ⟨rs, hlen, hrs⟩ := execAll_rsp h
  have hall : ∀ x ∈ prog.zip rs, keep x.1 = true := fun x hx => hkeep x.1 (List.of_mem_zip hx).1
  rw [codesFor_of_rsp hrs, List.filter_eq_self.mpr hall, hrs, List.drop_left, ← List.map_snd_zip hlen.le,
    List.map_map, List.map_snd_zip hlen.le]
  rfl

theorem RunsOk.of_codesFor {keep : Instr → Bool} {prog : List Instr} {s t : State} {n : Nat}
    (hkeep : ∀ i ∈ prog, keep i = true) (h : execAll prog s = .next t)
    (hcodes : codesFor keep prog s t = List.replicate n 0) : RunsOk prog s t := by
  rw [codesFor_of_all hkeep h] at hcodes
  exact ⟨h, fun r hr => (List.eq_replicate_iff.mp hcodes).2 _ (List.mem_map_of_mem hr)⟩

/-- Commands that answer `OK` leave ERRLOG (10_state.md R35). -/
theorem RunsOk.errlog {prog : List Instr} {s t : State} (h : RunsOk prog s t) : t.errlog = s.errlog := by
  obtain ⟨hrun, hok⟩ := h
  induction prog generalizing s with
  | nil =>
    obtain rfl : s = t := by simpa using hrun
    rfl
  | cons i is ih =>
    obtain ⟨m, hm, hrest⟩ := execAll_cons_eq_next.mp hrun
    obtain ⟨r, hr⟩ := exec_rsp hm
    obtain ⟨rs, -, hrs⟩ := execAll_rsp hrest
    rw [hrs, hr, List.append_assoc, List.drop_left] at hok
    have hlater : ∀ r ∈ t.rsp.drop m.rsp.length, codeOf r = 0 := by
      rw [hrs, List.drop_left]
      exact fun r hr => hok r (List.mem_cons_of_mem _ hr)
    rw [ih hrest hlater, (exec_ok_keeps hm hr (hok r List.mem_cons_self)).1]

/-! ### The round trip (R162) -/

/-- The tree of BUILD has the symbols of FT at its Leaves, in FT order. -/
theorem leafSyms_buildTree {ft : List FtEntry} (hne : ft ≠ []) (hroom : ft.length ≤ 16)
    (hsum : (ft.map fun e => e.count.toNat).sum ≤ 65535) : leafSyms (buildTree ft).1 = ft.map FtEntry.sym := by
  obtain ⟨m, hm, hnode, -⟩ := buildTree_spec hne hroom hsum
  rw [hnode, hm.leaf_syms]

/-- BUILD and GEN on a table that is not empty give every symbol of FT a code (R110, R120), and a single one the
code `[0]` (R123). -/
theorem FtInv.build_gen {s : State} (h : FtInv s) (hne : s.ft ≠ []) (hl : s.locked = false) :
    ∃ new single, RunsOk [.build, .gen] s (withCodes (codeTable new) single (built s)) ∧
      (new.map Prod.fst).Perm (s.ft.map FtEntry.sym) ∧ (s.ft.length = 1 → ∀ x ∈ new, x.2 = [false]) := by
  have hvalid := buildTree_valid hne h.room h.sum_le h.distinct
  obtain ⟨new, single, hg, hlen, hsyms, -⟩ := hvalid.genCodes_inv
  rw [leafSyms_buildTree hne h.room h.sum_le] at hsyms
  have hgen := exec_gen_of_codes (s := built s) hl rfl hg (hlen.trans_le h.room)
  refine ⟨new, single, (RunsOk.of_exec (h.exec_build hne) rfl rfl).append (.of_exec hgen rfl rfl), hsyms, ?_⟩
  intro hone
  obtain ⟨e, he⟩ := List.length_eq_one_iff.mp hone
  have hcodes : genCodes (buildTree s.ft).1 (buildTree s.ft).2 = some ([(e.sym, [false])], true) := by
    rw [he]
    rfl
  rw [hcodes, Option.some.injEq, Prod.mk.injEq] at hg
  simp [← hg.1]

/-- From `s` doc00's `build(input)` was run and ended in `t`, answered `OK` throughout: every symbol of the input has a
code, a single one the code `[0]`, and both frames and their channels are as before (R162). -/
structure TableBuilt (input : List Symbol) (s t : State) : Prop where
  runs : RunsOk (tableProgram input) s t
  known : ∀ x ∈ input, x ∈ t.ct.map CtEntry.sym
  single : (firstOccurrences input).length = 1 → ∀ e ∈ t.ct, e.code = [false]
  frames : t.encOpen = s.encOpen ∧ t.decOpen = s.decOpen ∧ t.bitout = s.bitout ∧ t.symout = s.symout

/-- doc00's `build(S)`. -/
theorem exists_tableBuilt {s : State} (hinv : Inv s) (hl : s.locked = false) (hft : s.ft = [])
    (htotal : s.total = 0) {input : List Symbol} (hne : input ≠ []) (hlen : input.length < 65536)
    (hroom : (firstOccurrences input).length ≤ 16) : ∃ t, TableBuilt input s t := by
  obtain ⟨ft, total, hcount, htable⟩ := execAll_counts hft htotal input (by omega) hroom
  have hcounted : RunsOk (input.map Instr.count) s (afterCounts s input.length ft total) := by
    refine ⟨hcount, fun r hr => ?_⟩
    rw [afterCounts, List.drop_left] at hr
    rw [List.eq_of_mem_replicate hr]
    rfl
  have hftne : ft ≠ [] := by
    obtain ⟨x, hx⟩ := List.exists_mem_of_ne_nil input hne
    rintro rfl
    simpa using htable.mem_iff.mpr hx
  obtain ⟨new, single, hbuild, hsyms, hone⟩ := (execAll_keeps_inv hinv hcount).ft.build_gen hftne hl
  refine ⟨_, hcounted.append hbuild, fun x hx => ?_, fun h1 e he => ?_, rfl, rfl, rfl, rfl⟩
  · rw [withCodes_ct, map_sym_codeTable, hsyms.mem_iff]
    exact htable.mem_iff.mpr hx
  · rw [← htable.order, List.length_map] at h1
    obtain ⟨⟨sym, c⟩, hx, rfl⟩ := List.mem_map.mp he
    obtain rfl : c = [false] := hone h1 _ hx
    exact code_ofCode sym [false] (by decide)

/-- What is left as it was: the code table and all the decoder sees or writes. -/
def SameForDecoder (s t : State) : Prop := t.ct = s.ct ∧ t.decOpen = s.decOpen ∧ t.symout = s.symout

theorem SameForDecoder.exec_encoder {i : Instr} {s m t : State} (hi : isEncoder i = true)
    (h : SameForDecoder s m) (hx : exec i m = .next t) : SameForDecoder s t := by
  have hw := exec_writesOnlyItsOwn hx
  obtain ⟨hct, hflag, hsyms⟩ := h
  cases i with
  | encbeg | enc | encend =>
    obtain ⟨-, -, -, hsyms'⟩ := hw.decoder rfl
    exact ⟨(hw.codes nofun nofun nofun).1.trans hct, (hw.decFlag nofun nofun).trans hflag, hsyms'.trans hsyms⟩
  | _ => cases hi

theorem filter_isEncoder_encs (input : List Symbol) :
    (input.map Instr.enc).filter isEncoder = input.map Instr.enc := by
  refine List.filter_eq_self.mpr fun i hi => ?_
  obtain ⟨x, -, rfl⟩ := List.mem_map.mp hi
  rfl

theorem isEncoder_of_mem_encodeFrame (input : List Symbol) :
    ∀ i ∈ encodeFrame (input.map Instr.enc), isEncoder i = true := by
  rw [← List.filter_eq_self, encodeFrame, List.filter_cons_of_pos rfl, List.filter_append, filter_isEncoder_encs]
  rfl

theorem isDecoder_of_mem_decodeFrame (ds : List Digit) :
    ∀ i ∈ decodeFrame (ds.map Instr.decbit), isDecoder i = true := by
  rw [← List.filter_eq_self, decodeFrame, List.filter_cons_of_pos rfl, List.filter_append, filter_isDecoder_decbits]
  rfl

/-- An encode frame of known symbols, alone on CMD (R145): its result is their codes, every answer is `OK`, and
the decoder finds what it found before. -/
theorem exists_encodeFrame_of_known {s : State} (hinv : Inv s) (ho : s.encOpen = false)
    (hclosed : unfinished s.bitout = []) {input : List Symbol} (hknown : ∀ x ∈ input, x ∈ s.ct.map CtEntry.sym) :
    ∃ t, RunsOk (encodeFrame (input.map Instr.enc)) s t ∧ SameForDecoder s t ∧
      frameResults t.bitout = frameResults s.bitout ++ [.success (input.flatMap (codeFor s.ct))] := by
  obtain ⟨t, ht⟩ := execAll_completes hinv (encodeFrame (input.map Instr.enc))
  have hrun := EncoderRun.encodeFrame_of_known ho ht (filter_isEncoder_encs input) hknown
  have hall := isEncoder_of_mem_encodeFrame input
  refine ⟨t, .of_codesFor hall ht hrun.codes, ?_, ?_⟩
  · exact execAll_keeps (fun i hi m u => SameForDecoder.exec_encoder (hall i hi)) ⟨rfl, rfl, rfl⟩ ht
  · rw [hrun.tokens, ← List.append_assoc]
    exact frameResults_close hclosed _

/-- A decode frame of codes one after another, alone on CMD (R161). -/
theorem exists_decodeFrame_of_codes {s : State} (hinv : Inv s) (ho : s.decOpen = false)
    (hclosed : unfinished s.symout = []) {es : List CtEntry} (hes : ∀ e ∈ es, e ∈ s.ct) :
    ∃ t, RunsOk (decodeFrame ((es.flatMap CtEntry.code).map Instr.decbit)) s t ∧
      frameResults t.symout = frameResults s.symout ++ [.success (es.map CtEntry.sym)] := by
  obtain ⟨t, ht⟩ := execAll_completes hinv (decodeFrame ((es.flatMap CtEntry.code).map Instr.decbit))
  obtain ⟨hresult, hcodes⟩ := decodeFrame_of_codes hinv ho hclosed (filter_isDecoder_decbits _) ht hes rfl
  exact ⟨t, .of_codesFor (isDecoder_of_mem_decodeFrame _) ht hcodes, hresult⟩

/-- The codes of known symbols are the codes of entries of those symbols. -/
theorem exists_entries_of_known {ct : List CtEntry} {input : List Symbol}
    (hknown : ∀ x ∈ input, x ∈ ct.map CtEntry.sym) :
    ∃ es : List CtEntry, (∀ e ∈ es, e ∈ ct) ∧ es.map CtEntry.sym = input ∧
      es.flatMap CtEntry.code = input.flatMap (codeFor ct) := by
  induction input with
  | nil => exact ⟨[], by simp, rfl, rfl⟩
  | cons x xs ih =>
    obtain ⟨hx, hxs⟩ := List.forall_mem_cons.mp hknown
    obtain ⟨es, hes, hsyms, hcodes⟩ := ih hxs
    obtain ⟨e, he⟩ := Option.isSome_iff_exists.mp (isSome_ctFind_iff.mpr hx)
    obtain ⟨hmem, hsym⟩ := ctFind_eq_some he
    refine ⟨e :: es, List.forall_mem_cons.mpr ⟨hmem, hes⟩, by rw [List.map_cons, hsym, hsyms], ?_⟩
    rw [List.flatMap_cons, List.flatMap_cons, hcodes, codeFor, he]

theorem flatMap_code_eq_replicate {es : List CtEntry} (h : ∀ e ∈ es, e.code = [false]) :
    es.flatMap CtEntry.code = List.replicate es.length false := by
  induction es with
  | nil => rfl
  | cons e es ih =>
    obtain ⟨he, hes⟩ := List.forall_mem_cons.mp h
    rw [List.flatMap_cons, he, ih hes]
    rfl

/-- Settles O43. Counting and building give every symbol of the input a code (`exists_tableBuilt`); encoding emits
these codes one after another (`exists_encodeFrame_of_known`), and decoding them gives the symbols back
(`exists_decodeFrame_of_codes`). The three runs together are answered `OK`, so ERRLOG is kept
(`RunsOk.errlog`). -/
theorem encodeThenDecodeIsTheInput : Obligations.EncodeThenDecodeIsTheInput := by
  intro s input hinv hframes henc hdec hft htotal hne hlen hroom
  obtain ⟨b, hb⟩ := exists_tableBuilt hinv (locked_eq_false henc hdec) hft htotal hne hlen hroom
  obtain ⟨henc', hdec', hbits, hsyms⟩ := hb.frames
  have hinvb := execAll_keeps_inv hinv hb.runs.run
  obtain ⟨t, hencode, ⟨hct, hflag, hsymout⟩, hresult⟩ :=
    exists_encodeFrame_of_known hinvb (henc'.trans henc) (hbits ▸ hframes.enc henc) hb.known
  obtain ⟨es, hes, rfl, hcodes⟩ := exists_entries_of_known hb.known
  have hinvt := execAll_keeps_inv hinvb hencode.run
  have hsymt : t.symout = s.symout := hsymout.trans hsyms
  obtain ⟨u, hdecode, hinput⟩ := exists_decodeFrame_of_codes hinvt ((hflag.trans hdec').trans hdec)
    (hsymt ▸ hframes.dec hdec) (hct ▸ hes)
  have hfirst := hb.runs.append hencode
  have hall := hfirst.append hdecode
  refine ⟨t, u, es.flatMap CtEntry.code, hfirst.run, ?_, hdecode.run, hsymt ▸ hinput, hall.ok, hall.errlog, ?_⟩
  · rw [hresult, hbits, hcodes]
  · intro hone
    rw [List.length_map]
    exact flatMap_code_eq_replicate fun e he => hb.single hone e (hes e he)

end Sys2Proof.Machine

/-! PROOFS. Control and read-back (45_control_readback.md): NOP (R170), the indices RDNODE refuses (R178), and
the answer of RDCODE as the word of an LDCODE (R179). -/

namespace Sys2Proof.Machine

open Sys2Proof

/-! ### RDCODE (R179) -/

/-- The data of RDCODE fill a word as LDCODE's operands do, with 0 in the place of the opcode (30_encoding.md
R88). -/
theorem responseWord_ok_codeData (e : CtEntry) :
    responseWord okCode (codeData e.sym (some e)) = wordC 0#5 e.sym e.len e.bits := by
  apply BitVec.eq_of_toNat_eq
  rw [responseWord_toNat, codeData_some_toNat, wordC_toNat, okCode_toNat, BitVec.toNat_zero]
  omega

/-- With LDCODE's opcode in that place the word is LDCODE's. -/
theorem ldcode_opcode_or_wordC (x : Symbol) (len : CodeLen) (c : CodeBits) :
    0x30000000#32 ||| wordC 0#5 x len c = encode (.ldcode x len c) := by
  rw [encode, wordC_eq_or, wordC_eq_or]
  simp [BitVec.or_assoc]

theorem decode_ldcode_opcode_or_codeData (e : CtEntry) :
    decode (0x30000000#32 ||| responseWord okCode (codeData e.sym (some e))) =
      .ok (.ldcode e.sym e.len e.bits) := by
  rw [responseWord_ok_codeData, ldcode_opcode_or_wordC, decode_encode]

/-- Settles O48: in a mapping RDCODE finds the entry under its symbol (`ctFind_of_mem`), and its answer with
LDCODE's opcode is the word of that LDCODE (`decode_ldcode_opcode_or_codeData`). -/
theorem rdcodeAnswerReloadsTheEntry : Obligations.RdcodeAnswerReloadsTheEntry := by
  intro s e hct he
  have hfound : readBackData (.rdcode e.sym) s = some (codeData e.sym (some e)) := by
    rw [readBackData, ctFind_of_mem hct.distinct he]
  exact ⟨_, exec_of_readBackData hfound, decode_ldcode_opcode_or_codeData e⟩

/-! ### NOP (R170) -/

/-- Settles O44: the encoder's word, and the meaning as it stands. -/
theorem nopOnlyResponds : Obligations.NopOnlyResponds := ⟨encodedAs_encode .nop, finish_zero⟩

/-! ### RDNODE of an index with no value (R178) -/

/-- A tree of at most 16 Leaves has at most 31 nodes (10_state.md R25). -/
theorem TreeInv.length_node_le {s : State} (h : TreeInv s) : s.node.length ≤ 31 := by
  unfold TreeInv at h
  split at h
  · obtain ⟨n, ht⟩ := h
    have hroom : n ≤ 16 := ht.room
    have hsize := ht.size
    omega
  · obtain ⟨hnode, -⟩ := h
    simp [hnode]

theorem nnodes_toNat {s : State} (h : TreeInv s) : s.nnodes.toNat = s.node.length := by
  have hle := h.length_node_le
  rw [State.nnodes, BitVec.toNat_ofNat]; omega

theorem exec_rdnode_of_length_le {s : State} {idx : NodeIdx} (h : s.node.length ≤ idx.toNat) :
    exec (.rdnode idx) s = .next (errored 7 s) := by
  rw [exec, execRdnode, List.getElem?_eq_none h]
  rfl

/-- Settles O46: NNODES is the length of the table (`nnodes_toNat`) and at most 31 (`TreeInv.length_node_le`),
so either condition puts the index beyond the table (`exec_rdnode_of_length_le`). -/
theorem rdnodeRefusesAnIndexWithNoValue : Obligations.RdnodeRefusesAnIndexWithNoValue := by
  intro s idx hinv hidx
  apply exec_rdnode_of_length_le
  rcases hidx with hbeyond | rfl
  · exact nnodes_toNat hinv.tree ▸ hbeyond
  · exact hinv.tree.length_node_le

end Sys2Proof.Machine

/-! PROOFS. Exceptions (60_exceptions.md): errors are precise (R203, R204), and the conditions of EmptyCorpus (R192),
BadSequence (R197) and BadOperand (R198). -/

namespace Sys2Proof.Machine

open Sys2Proof

/-! ### Errors are precise (R203, R204) -/

/-- The error entry by the response code: codes 2 and 3 abort their frame, every other cause changes only ERRLOG
and RSP. -/
theorem raise_eq_ite (e : Err) (s : State) :
    raise e s =
      if e.code.toNat = 2 then { errored 2 s with encOpen := false, bitout := s.bitout ++ [.abort] }
      else if e.code.toNat = 3 then
        { errored 3 s with
          decOpen := false, acc := 0, acclen := 0, ovr := false, symout := s.symout ++ [.abort] }
      else errored e.code.toNat s := by
  cases e <;> rfl

/-- A step with a response code other than 0 is the error entry of that code, with the word taken from CMD. -/
theorem step_eq_raise {s t : State} {w : Word} {rest : List Word} {r : Word} (hs : s.cmd = w :: rest)
    (h : step s = .next t) (hr : t.rsp = s.rsp ++ [r]) (hne : codeOf r ≠ 0) :
    ∃ e : Err, codeOf r = e.code.toNat ∧ t = raise e { s with cmd := rest } := by
  cases hd : decode w with
  | ok i =>
    rcases exec_codeOf ((step_of_decode_ok hs hd).symm.trans h) hr with ⟨hok, -⟩ | ⟨e, he, ht, -⟩
    · exact absurd hok hne
    · exact ⟨e, he, ht⟩
  | error d =>
    rw [step_of_decode_error hs hd, failWith_eq_next] at h
    rw [← h, raise_rsp, List.append_cancel_left_eq, List.singleton_inj] at hr
    exact ⟨.illegalCommand, by rw [← hr, codeOf_responseWord], h.symm⟩

/-- Settles O49: the step is the error entry of its response code (`step_eq_raise`), and `raise_eq_ite` says what
that entry changes. -/
theorem errorsArePrecise : Obligations.ErrorsArePrecise := by
  intro s t w rest r hs h hr hne
  obtain ⟨e, he, rfl⟩ := step_eq_raise hs h hr hne
  rw [he]
  exact raise_eq_ite e _

/-! ### EmptyCorpus (R192) -/

theorem exec_build_of_empty {s : State} (h : s.ft = []) : exec .build s = .next (errored 1 s) :=
  if_pos (List.length_eq_zero_iff.mpr h)

/-- Only BUILD of the empty table raises `EmptyCorpus`. -/
theorem Raises.eq_build {s : State} {i : Instr} (h : Raises s i .emptyCorpus) : i = .build ∧ s.ft = [] := by
  cases i
  case build => exact ⟨rfl, h.2⟩
  all_goals simp [Raises] at h

/-- Settles O18: BUILD tests FT first (`exec_build_of_empty`), and an answer with code 1 is `EmptyCorpus`, which
only BUILD raises (`Raises.eq_build`). -/
theorem emptyCorpusIsBuildOnTheEmptyTable : Obligations.EmptyCorpusIsBuildOnTheEmptyTable :=
  ⟨fun _ => exec_build_of_empty, fun _ _ _ _ h hr hc =>
    (raises_of_codeOf (e := .emptyCorpus) h hr hc).eq_build⟩

/-! ### BadSequence (R197) -/

/-- The tests of R197 come before every other (R202), whatever the state. -/
theorem exec_of_outOfOrder {s : State} {i : Instr} (h : outOfOrder s i = true) :
    exec i s = .next (errored 6 s) := by
  cases i with
  | gen =>
    refine genIsRefusedWhenLockedOrTreeless s ?_
    simpa [outOfOrder, or_assoc] using h
  | ctclr => exact exec_codeTableWriter_of_locked h (.inr (.inl rfl))
  | ldcode x len c => exact exec_codeTableWriter_of_locked h (.inr (.inr ⟨x, len, c, rfl⟩))
  | encbeg => exact exec_encbeg_of_open h
  | enc x => exact exec_enc_of_closed ((Bool.not_eq_true' _).mp h)
  | encend => exact exec_encend_of_closed ((Bool.not_eq_true' _).mp h)
  | decbeg => exact exec_decbeg_of_open h
  | decbit d => exact exec_decbit_of_closed d ((Bool.not_eq_true' _).mp h)
  | decend => exact exec_decend_of_closed ((Bool.not_eq_true' _).mp h)
  | _ => cases h

/-- `BadSequence` is raised under no other condition. -/
theorem outOfOrder_of_raises {s : State} {i : Instr} (h : Raises s i .badSequence) : outOfOrder s i = true := by
  cases i
  case gen | ctclr | ldcode | encbeg | enc | encend | decbeg | decbit | decend =>
    simpa [Raises, outOfOrder, State.locked] using h
  all_goals simp [Raises] at h

/-- Settles O52: a command out of order is refused (`exec_of_outOfOrder`); any other completes by the invariant,
and an answer with code 6 would put it out of order (`outOfOrder_of_raises`). -/
theorem badSequenceExactlyWhenOutOfOrder : Obligations.BadSequenceExactlyWhenOutOfOrder := by
  refine fun i s hinv => ⟨exec_of_outOfOrder, fun horder => ?_⟩
  obtain ⟨t, ht⟩ := exec_completes hinv i
  obtain ⟨r, hr⟩ := exec_rsp ht
  refine ⟨t, r, ht, hr, fun hc => ?_⟩
  have hraises : Raises s i .badSequence := raises_of_codeOf ht hr hc
  exact absurd (outOfOrder_of_raises hraises) (Bool.eq_false_iff.mp horder)

/-! ### BadOperand (R198) -/

theorem codeOperandOk_eq_false_iff (len : CodeLen) (c : CodeBits) :
    codeOperandOk len c = false ↔ len = 0 ∨ c >>> len.toNat ≠ 0 := by
  rw [Bool.eq_false_iff, ne_eq, codeOperandOk_iff, not_and_or, not_not]

/-- In order, LDCODE tests its operand before the table (R202), and RDNODE finds no node at an index no tree reaches. -/
theorem exec_of_not_wellFormed {s : State} {i : Instr} (htree : TreeInv s) (horder : outOfOrder s i = false)
    (hi : i.wellFormed = false) : exec i s = .next (errored 7 s) := by
  cases i with
  | ldcode x len c =>
    rw [exec_ldcode_of_unlocked horder]
    exact if_pos ((codeOperandOk_eq_false_iff len c).mp hi)
  | rdnode idx =>
    have hidx : 31 ≤ idx.toNat := Nat.not_lt.mp (of_decide_eq_false hi)
    exact exec_rdnode_of_length_le (htree.length_node_le.trans hidx)
  | _ => cases hi

/-- Settles O53: the test of the order comes first (`exec_of_outOfOrder`), then that of the operand
(`exec_of_not_wellFormed`). -/
theorem illFormedOperandsAreRefused : Obligations.IllFormedOperandsAreRefused := by
  intro i s hinv hi
  cases horder : outOfOrder s i with
  | true => exact exec_of_outOfOrder horder
  | false => exact exec_of_not_wellFormed hinv.tree horder hi

end Sys2Proof.Machine

/-! PROOFS. Reset (70_reset_and_hazards.md): the host's reset is total and the only way to clear ERRLOG and
TREE_VALID (R220, R222), and what each command does as the first after reset (R221). -/

namespace Sys2Proof.Machine

open Sys2Proof

/-! ### What only a reset clears (R220) -/

/-- A command that answers `OK` leaves ERRLOG, and an error sets the bit of its code (R35, 60_exceptions.md R203). -/
theorem exec_keeps_errlog_bit {i : Instr} {s t : State} (h : exec i s = .next t) {k : Nat}
    (hk : s.errlog.getLsbD k = true) : t.errlog.getLsbD k = true := by
  rcases exec_cases h with ⟨s', d, rfl, hc⟩ | ⟨e, rfl, -⟩
  · obtain ⟨-, -, hlog⟩ := hc.kept
    rw [respond_errlog, hlog, hk]
  · rw [raise_errlog, BitVec.getLsbD_or, hk, Bool.true_or]

/-- BUILD is the only writer of TREE_VALID (R20), and it sets it or, refused, leaves it (R25). -/
theorem exec_keeps_treeValid {i : Instr} {s t : State} (h : exec i s = .next t) (hv : s.treeValid = true) :
    t.treeValid = true := by
  by_cases hi : i = .build
  · subst hi
    rcases exec_build_cases h with ⟨-, rfl⟩ | ⟨-, rfl⟩
    · exact built_treeValid s
    · rw [raise_treeValid, hv]
  · obtain ⟨-, -, hvalid⟩ := (exec_writesOnlyItsOwn h).tree hi
    rw [hvalid, hv]

/-- Settles O8: the host's reset is `State.reset` but for the histories, by definition; a command keeps TREE_VALID
(`exec_keeps_treeValid`) and each bit of ERRLOG (`exec_keeps_errlog_bit`) once set. -/
theorem hostResetIsTotalAndTheOnlyClear : Obligations.HostResetIsTotalAndTheOnlyClear :=
  ⟨fun _ => rfl, fun _ _ _ h => ⟨exec_keeps_treeValid h, fun _ => exec_keeps_errlog_bit h⟩⟩

/-! ### The first command (R221) -/

/-- LDCODE of a well-formed entry into the empty table: there is no entry to conflict with (R126, R127). -/
theorem exec_ldcode_of_empty {s : State} (hl : s.locked = false) (hct : s.ct = []) {x : Symbol} {len : CodeLen}
    {c : CodeBits} (hok : codeOperandOk len c = true) :
    exec (.ldcode x len c) s = .next (withCodes [⟨x, len, c⟩] false s) := by
  obtain ⟨hlen, hstray⟩ := (codeOperandOk_iff len c).mp hok
  rw [exec_ldcode_of_unlocked hl, if_neg (not_or.mpr ⟨hlen, not_not.mpr hstray⟩), hct]
  simp

/-- Settles O54: each command by its own rule, the reset state having empty tables, no tree and no frame open. -/
theorem firstCommandAfterReset : Obligations.FirstCommandAfterReset := by
  obtain ⟨hrdstat, hrdtot, -, hrdfreq, hrdtree, -, -, -, hrdcode⟩ := readBacksAnswerAndChangeNothing State.reset
  refine ⟨exec_build_of_empty rfl, ?_, fun _ => exec_rdnode_of_length_le (Nat.zero_le _),
    fun x => hrdfreq x List.not_mem_nil, fun x => hrdcode x List.not_mem_nil, ?_,
    fun _ => exec_count_of_not_mem (by decide) List.not_mem_nil (by decide),
    fun _ _ _ hok => exec_ldcode_of_empty rfl rfl hok, exec_encbeg_of_closed rfl, exec_decbeg_of_closed rfl⟩
  · rintro i (rfl | ⟨x, rfl⟩ | rfl | ⟨d, rfl⟩ | rfl) <;> exact exec_of_outOfOrder rfl
  · rintro i (rfl | rfl | rfl | rfl | rfl | rfl)
    · exact hrdstat
    · exact hrdtot
    · exact hrdtree
    · exact finish_zero State.reset
    · exact ftclrEmptiesTheFrequencyTable.2 State.reset
    · exact exec_ctclr_of_unlocked rfl

end Sys2Proof.Machine
